-- ==== Sys2Proof/Word.lean ====
section
/-! DEFINITION. Sys2Proof/Word.lean: the words, lane indices and register numbers of the Vector Unit, and the one
way the model builds a vector of fixed length from a function of the index. -/

namespace Sys2Proof

/-- An instruction word, a configuration word, or the contents of one lane of one LReg (R40, R15, R17). That a lane
is 32 bits wide is the parameter LANE_BITS of R5 (PRESUMED, log entry 1). -/
abbrev Word := BitVec 32

/-- A lane number, 0 to 31 (R4, R13). -/
abbrev Lane := Fin 32

/-- An LReg number, 0 to 16 (R10). -/
abbrev LRegNum := Fin 17

/-- One bit for each lane, lane `l` at bit `l`. -/
abbrev LaneMask := BitVec 32

/-- The vector whose element at index `i` is `f i`. -/
def tab {α : Type} (n : Nat) (f : Fin n → α) : Vector α n :=
  ⟨⟨List.ofFn f⟩, by simp⟩

@[simp] theorem getElem_tab {α : Type} {n : Nat} (f : Fin n → α) (i : Nat) (h : i < n) :
    (tab n f)[i]'h = f ⟨i, h⟩ := by
  simp [tab]

/-- Every lane, in rising order. -/
def allLanes : List Lane := List.finRange 32

@[simp] theorem mem_allLanes (l : Lane) : l ∈ allLanes := List.mem_finRange l

end Sys2Proof
end

