-- ==== Sys2Proof/Syntax.lean ====
section
/-! DEFINITION. Sys2Proof/Syntax.lean: the instructions of spec/opcode_table.json, the assembler's macro calls, the
mnemonics of the sub-unit table, and the parsed instruction record that a sub-unit holds and executes. -/

namespace Sys2Proof

/-- The silicon generation, parameter ARCH (R2, R5): Blackhole or Wormhole. -/
inductive Arch where
  | bh
  | wh
  deriving DecidableEq, Repr, Inhabited

/-- One constructor for each row of spec/opcode_table.json. -/
inductive Instr where
  /-- SFPLOADMACRO in the Blackhole format (R41), its operands as R42 assembles them; `vd` is VDHi : VDLo. -/
  | sfploadmacroBh (macroIndex : BitVec 2) (vd : BitVec 3) (mod0 : BitVec 4) (addrMod : BitVec 3) (imm9 : BitVec 9)
  /-- SFPLOADMACRO in the Wormhole format, the four fields of R44 and nothing inside them. -/
  | sfploadmacroWh (lregInd : BitVec 4) (instrMod0 : BitVec 4) (sfpuAddrMod : BitVec 2) (destRegAddr : BitVec 14)
  /-- SFPTRANSP (R46); `vd` is the field lreg_dest. -/
  | sfptransp (imm12Math : BitVec 12) (lregC : BitVec 4) (vd : BitVec 4) (instrMod1 : BitVec 4)
  deriving DecidableEq, Repr, Inhabited

/-- A call of one of the source's `TT_OP_…` macros (R45, R48), its arguments as the programmer writes them: any
natural number, since the macros mask nothing. -/
inductive AsmCall where
  | sfploadmacro (lregInd instrMod0 sfpuAddrMod destRegAddr : Nat)
  | sfptransp (imm12Math lregC lregDest instrMod1 : Nat)
  deriving DecidableEq, Repr

/-- The four sub-units, numbered 0 to 3 in this order (R9). -/
inductive SubUnit where
  | simple
  | mad
  | round
  | store
  deriving DecidableEq, Repr, Inhabited

/-- The mnemonics the spec names: the 39 of the sub-unit table (R52), SFPLOAD, SFPLOADMACRO, and `unlisted` for an
SFPU instruction that the spec does not name. -/
inductive Mnemonic where
  | sfpabs | sfpand | sfparecip | sfpcast | sfpcompc | sfpconfig | sfpdivp2 | sfpencc | sfpexexp | sfpexman
  | sfpgt | sfpiadd | sfple | sfplz | sfpmov | sfpnop | sfpnot | sfpor | sfppopc | sfppushc | sfpsetcc
  | sfpsetexp | sfpsetman | sfpsetsgn | sfpshft | sfpswap | sfptransp | sfpxor
  | sfpadd | sfpaddi | sfplut | sfplutfp32 | sfpmad | sfpmul | sfpmuli | sfpmul24
  | sfpshft2 | sfpstochrnd
  | sfpstore
  | sfpload | sfploadmacro
  | unlisted (code : Nat)
  deriving DecidableEq, Repr, Inhabited

/-- The operands of a scheduled SFPSTORE that selector 3 leaves open: address mode and address (R63, parameter
SEL3_STORE_FIELDS). The source gives neither a width. -/
structure StoreFields where
  addrMod : Nat
  address : Nat
  deriving DecidableEq, Repr, Inhabited

/-- The operand fields of a parsed record besides those SFPLOADMACRO may override. -/
inductive OtherFields where
  /-- SFPNOP as selector 2 builds it: the source gives it no other field (R63). -/
  | none
  /-- SFPTRANSP: Mod1 and Imm12 (R46). -/
  | transp (mod1 : BitVec 4) (imm12 : BitVec 12)
  /-- SFPSTORE as selector 3 builds it (R63). -/
  | store (fields : StoreFields)
  /-- Every other instruction: whatever `parse` puts there (R6). -/
  | parsed (bits : Word)
  deriving DecidableEq, Repr, Inhabited

/-- What the parameter `parse` (R6) answers for a word that is neither instruction of this spec. Its register fields
are 4 bits wide (R12: the register fields of an instruction word reach 15 at most). -/
structure RawInsn where
  op   : Mnemonic
  vb   : Option (BitVec 4)
  vc   : Option (BitVec 4)
  vd   : BitVec 4
  mod0 : Option (BitVec 4)
  rest : Word
  deriving DecidableEq, Repr, Inhabited

/-- A parsed instruction record (R6, R46, R65). A field that the spec gives the instruction no place for is `none`
until an override assigns it. The register number 16 exists only here (R65). -/
structure Insn where
  op   : Mnemonic
  vb   : Option LRegNum
  vc   : Option LRegNum
  vd   : LRegNum
  mod0 : Option (BitVec 4)
  rest : OtherFields
  deriving DecidableEq, Repr, Inhabited

/-- What `SFPLOAD_sem` takes besides the state (R6): `SFPLOAD_sem(vd, mod0, addr_mod, imm10, State)`. -/
structure LoadOps where
  vd      : LRegNum
  mod0    : BitVec 4
  addrMod : BitVec 3
  imm10   : BitVec 10
  deriving DecidableEq, Repr, Inhabited

/-- A location that an instruction can read or write (R90: LReg lanes, Dst elements, configuration fields, predicate
bits), with the address counters that an address mode may advance (R61). -/
inductive Loc where
  | lreg (r : LRegNum) (l : Lane)
  | dst (element : Nat)
  | addrCounter (n : Nat)
  | sequenceEntry (l : Lane) (m : Fin 4)
  | instructionTemplate (l : Lane) (t : Fin 4)
  | storeMod0 (l : Lane)
  | usesLoadMod0ForStore (l : Lane)
  | unitDelayKind (l : Lane)
  | disableBackdoorLoad
  | laneEnabled (l : Lane)
  deriving DecidableEq, Repr, Inhabited

end Sys2Proof
end

