-- ==== Sys2Proof/WellFormed.lean ====
section
/-! DEFINITION. Sys2Proof/WellFormed.lean: which instructions a generation has, and which macro calls assemble to the
instruction they name. -/

namespace Sys2Proof

/-- Whether a generation has the instruction in this form: the two formats of SFPLOADMACRO exclude each other
(R41, R44), SFPTRANSP is the same on both (R46). -/
def Instr.wf (a : Arch) : Instr → Bool
  | .sfploadmacroBh _ _ _ _ _ => a == .bh
  | .sfploadmacroWh _ _ _ _ => a == .wh
  | .sfptransp _ _ _ _ => true

/-- The bounds a model that assembles from arguments must require: R45 (with R43's bound on dest_reg_addr) and R48.
An argument wider than its field would carry into the next one. -/
def AsmCall.wf : AsmCall → Bool
  | .sfploadmacro lregInd instrMod0 sfpuAddrMod destRegAddr =>
    decide (lregInd < 16) && decide (instrMod0 < 16) && decide (sfpuAddrMod < 8) && decide (destRegAddr < 1024)
  | .sfptransp imm12Math lregC lregDest instrMod1 =>
    decide (imm12Math < 4096) && decide (lregC < 16) && decide (lregDest < 16) && decide (instrMod1 < 16)

end Sys2Proof
end

