-- ==== Sys2Proof/Decode.lean ====
section
/-! DEFINITION. Sys2Proof/Decode.lean: the decoder, total on 32-bit words (R50), the encoder, and the source's
assembler macros (R40, R41, R46). -/

namespace Sys2Proof

/-- Why a word is no instruction of this spec. -/
inductive DecodeError where
  /-- Bits 12:10 of a Blackhole SFPLOADMACRO word are not zero (R43). -/
  | reservedBitsSet
  /-- The opcode byte is neither 0x93 nor 0x8C (R50). -/
  | notInScope
  deriving DecidableEq, Repr

/-- Bits 31:24, the opcode byte (R40). -/
def opcodeByte (w : Word) : BitVec 8 := w.extractLsb' 24 8

/-- The opcode byte of SFPLOADMACRO (R41). -/
def opSfploadmacro : BitVec 8 := 0x93#8

/-- The opcode byte of SFPTRANSP (R46). -/
def opSfptransp : BitVec 8 := 0x8C#8

/-- The operands of a Blackhole SFPLOADMACRO word (R42). -/
def decodeLoadmacroBh (w : Word) : Instr :=
  .sfploadmacroBh (w.extractLsb' 22 2) (w.extractLsb' 0 1 ++ w.extractLsb' 20 2) (w.extractLsb' 16 4)
    (w.extractLsb' 13 3) (w.extractLsb' 1 9)

/-- The four fields of a Wormhole SFPLOADMACRO word (R44). -/
def decodeLoadmacroWh (w : Word) : Instr :=
  .sfploadmacroWh (w.extractLsb' 20 4) (w.extractLsb' 16 4) (w.extractLsb' 14 2) (w.extractLsb' 0 14)

/-- The operands of an SFPTRANSP word (R46). -/
def decodeTransp (w : Word) : Instr :=
  .sfptransp (w.extractLsb' 12 12) (w.extractLsb' 8 4) (w.extractLsb' 4 4) (w.extractLsb' 0 4)

/-- The decoder (R50): the opcode byte alone selects the instruction. On Blackhole a word of opcode 0x93 whose bits
12:10 are not zero is refused (R43). -/
def decode (a : Arch) (w : Word) : Except DecodeError Instr :=
  if opcodeByte w = opSfploadmacro then
    match a with
    | .bh => if w.extractLsb' 10 3 = 0#3 then .ok (decodeLoadmacroBh w) else .error .reservedBitsSet
    | .wh => .ok (decodeLoadmacroWh w)
  else if opcodeByte w = opSfptransp then .ok (decodeTransp w)
  else .error .notInScope

/-- A field placed at bit `lo` of a word (R7). -/
def fieldAt {n : Nat} (lo : Nat) (v : BitVec n) : Word := v.setWidth 32 <<< lo

/-- The word of an instruction, from the same field tables (R41, R44, R46), most significant field first. -/
def encode : Instr → Word
  | .sfploadmacroBh macroIndex vd mod0 addrMod imm9 =>
    fieldAt 24 opSfploadmacro ||| fieldAt 22 macroIndex ||| fieldAt 20 (vd.extractLsb' 0 2) ||| fieldAt 16 mod0 |||
      fieldAt 13 addrMod ||| fieldAt 1 imm9 ||| fieldAt 0 (vd.extractLsb' 2 1)
  | .sfploadmacroWh lregInd instrMod0 sfpuAddrMod destRegAddr =>
    fieldAt 24 opSfploadmacro ||| fieldAt 20 lregInd ||| fieldAt 16 instrMod0 ||| fieldAt 14 sfpuAddrMod |||
      fieldAt 0 destRegAddr
  | .sfptransp imm12Math lregC vd instrMod1 =>
    fieldAt 24 opSfptransp ||| fieldAt 12 imm12Math ||| fieldAt 8 lregC ||| fieldAt 4 vd ||| fieldAt 0 instrMod1

/-- `TT_OP(op, p) = (op << 24) + p` (R40). -/
def ttOp (op p : Nat) : Nat := (op <<< 24) + p

/-- The word a macro call yields: the macros add their shifted arguments and mask none of them (R41, R45, R46, R48). -/
def AsmCall.word : AsmCall → Word
  | .sfploadmacro lregInd instrMod0 sfpuAddrMod destRegAddr =>
    BitVec.ofNat 32
      (ttOp 0x93 ((lregInd <<< 20) + (instrMod0 <<< 16) + (sfpuAddrMod <<< 13) + (destRegAddr <<< 0)))
  | .sfptransp imm12Math lregC lregDest instrMod1 =>
    BitVec.ofNat 32
      (ttOp 0x8c ((imm12Math <<< 12) + (lregC <<< 8) + (lregDest <<< 4) + (instrMod1 <<< 0)))

/-- The macro call a programmer writes for a Blackhole SFPLOADMACRO (R42, R45): `(MacroIndex << 2) | VDLo`, `Mod0`,
`AddrMod`, `(Imm9 << 1) | VDHi`. -/
def packLoadmacro (macroIndex vd mod0 addrMod imm9 : Nat) : AsmCall :=
  .sfploadmacro ((macroIndex <<< 2) ||| (vd % 4)) mod0 addrMod ((imm9 <<< 1) ||| (vd / 4))

/-- The instruction the decoder reads, on Blackhole, from a word as spec/opcode_table.json numbers its bits. -/
def decodeTableWord (nbits w : Nat) : Option Instr :=
  if nbits ≤ 32 ∧ w < 2 ^ 32 then
    match decode .bh (BitVec.ofNat 32 w) with
    | .ok i => some i
    | .error _ => none
  else none

end Sys2Proof
end

