-- ==== Sys2Proof/Config.lean ====
section
/-! DEFINITION. Sys2Proof/Config.lean: what the spec leaves to an implementation. Every `opaque` constant below is a
parameter of R5 or R6 or a free value: it has no body that a proof can see, so a statement holds whatever it is. The
parameters ARCH, SAME_CYCLE_POLICY and SEL3_STORE_FIELDS and the list of cross-lane instructions are plain data in the
state (Machine/State.lean, `Params`), so that a statement can speak of each of their values. -/

namespace Sys2Proof.Config

/-- The number of threads that can issue, N_THREADS (R5, R116): 3 is general knowledge (PRESUMED, log entry 2). -/
def nThreads : Nat := 3

/-- `parse` of R6 for a word whose opcode byte is neither 0x93 nor 0x8C: the record of an SFPU instruction, or
`none` where the word is no SFPU instruction. -/
opaque parse : Word → Option RawInsn

/-- The instructions other than SFPTRANSP that `ExecSFPU` declares cross-lane (R70), supplied at reset as a free value
(log entry 6). -/
opaque crossLane : List Mnemonic

/-- `Reads(insn, l)` of R90: the locations that an instruction other than SFPTRANSP and SFPLOADMACRO reads when it
executes on lane `l`. -/
opaque reads : Insn → Lane → List Loc

/-- `Writes(insn, l)` of R90. -/
opaque writes : Insn → Lane → List Loc

/-- `ExecSFPU` of R6: what an instruction, executing on a lane set, does to a location of its write footprint, from the
contents of the locations it reads (in the order of `reads`, lane after lane): the value it puts there, or `none` where
it leaves the location as it is (a lane that is not enabled, R21). -/
opaque execSfpu : Insn → LaneMask → List Word → Loc → Option Word

/-- The number of cycles after which the result of an instruction other than SFPTRANSP and SFPLOADMACRO is available
(R91: a multi-cycle producer, known to the embedding model only). -/
opaque latency : Insn → Nat

/-- The number of cycles after which the result of a regular SFPLOAD is available (R125 gives it for the load of
SFPLOADMACRO only). -/
opaque loadLatency : LoadOps → Nat

/-- The operands mod0, addr_mod and imm10 that the record of a regular SFPLOAD gives (R6: `parse` is a parameter; log
entry 11). -/
opaque loadOperands : Insn → BitVec 4 × BitVec 3 × BitVec 10

/-- The locations `SFPLOAD_sem` reads (R6, R90). -/
opaque loadReads : LoadOps → List Loc

/-- The locations `SFPLOAD_sem` writes besides its destination register (R60: whatever else it writes; R61: an address
counter that the address mode advances). -/
opaque loadWrites : LoadOps → List Loc

/-- `SFPLOAD_sem` of R6: what the load does to a location it may write, from the contents of the locations it reads: the
value it puts there, or `none` where it leaves the location as it is. -/
opaque sfpload : LoadOps → List Word → Loc → Option Word

/-- Whether a load with this addr_mod and imm10, under these address counters, reads a Dst region (R126: the source
does not define the term). -/
opaque loadReadsRegion : BitVec 3 → BitVec 10 → List (Nat × Word) → Nat → Bool

/-- The operands SEL3_STORE_FIELDS (R5, R63), supplied at reset as a free value (log entry 6). -/
opaque sel3StoreFields : StoreFields

end Sys2Proof.Config
end

