-- ==== Sys2Proof/Machine/State.lean ====
section
/-! DEFINITION. Sys2Proof/Machine/State.lean: every piece of state the spec gives the machine, as plain data, the
reasons a step can stop, and the state after reset. -/

namespace Sys2Proof.Machine

/-- The model's faults: undefined behaviour of the hardware (R111, its closed list of faults, and no other). Each stops
the machine where the hardware goes on in a way the spec does not give, so each is safe. -/
inductive Fault where
  /-- Raised by SFPLOADMACRO: a field of `Sequence[MacroIndex]` has selector 1 (R64). Safe. -/
  | undefinedSelector (l : Lane) (u : SubUnit)
  /-- Raised by SFPLOADMACRO: the selected instruction is not in the sub-unit's row (R69); `none` where the template is
  no instruction. Safe. -/
  | ineligibleForSubUnit (l : Lane) (u : SubUnit) (op : Option Mnemonic)
  /-- Raised by the cycle step: two entries of one lane and sub-unit are due together (R87). Safe. -/
  | scheduleCollision (l : Lane) (u : SubUnit)
  /-- Raised by the cycle step: a scheduled instruction reads a result that is not yet available (R91). Safe. -/
  | scheduledReadNotReady
  /-- Raised by SFPLOADMACRO: its load reads a Dst region fewer than 3 instructions after an FPU write (R126). Safe. -/
  | dstHazard
  /-- Raised by SFPLOADMACRO and by a regular SFPLOAD: `SFPLOAD_sem` reads state that holds no value (R24, R111), where
  the environment says that it does. It is the one reason of R111's closed list that a load can raise of its own (R71;
  R113, the faults of the load; log entry 11). No register raises it: each holds a value (log entry 5). Safe. -/
  | unwrittenRead
  deriving DecidableEq, Repr

/-- The model's refusals: situations the spec gives no meaning (R111, its list of refusals), and the host's
`notModelled`. Each stops the machine, so each is safe. -/
inductive Refusal where
  /-- Raised by an arm of `exec` for an instruction without a meaning; no arm does. Safe. -/
  | notModelled (mnemonic : String)
  /-- Raised on decoding: bits 12:10 of a Blackhole SFPLOADMACRO word are not zero (R43). Safe. -/
  | reservedBitsSet
  /-- Raised by SFPLOADMACRO in the Wormhole format (R44). Safe. -/
  | wormholePacking
  /-- Raised by SFPLOADMACRO: selector 3 while SEL3_STORE_FIELDS is not supplied (R63). Safe. -/
  | sel3FieldsOpen
  /-- Raised by the cycle step: a cross-lane instruction would execute on some lanes only, or with differing records
  (R70, R88). Safe. -/
  | nonUniformCrossLane
  /-- Raised by the cycle step: a regular instruction whose sub-unit the source does not give issues while a scheduled
  one is due (R88). Safe. -/
  | unknownSubUnit
  /-- Raised by the cycle step: co-executing instructions touch one location (R90). Safe. -/
  | sameCycleConflict
  /-- Raised by SFPTRANSP, regular or scheduled: VD is 12 or more and DISABLE_BACKDOOR_LOAD is 0 (R102). Safe. -/
  | backdoorLoadOpen
  /-- Raised on decoding: a word that is no instruction of this spec and that `parse` does not know (R50). Safe. -/
  | notInScope
  deriving DecidableEq, Repr

/-- The two delay kinds, WaitForElapsedCycles and WaitForElapsedInstructions (R83). -/
inductive DelayKind where
  | cycles
  | instructions
  deriving DecidableEq, Repr, Inhabited

/-- SAME_CYCLE_POLICY (R5, R90). -/
inductive CyclePolicy where
  | refuse
  | old
  | unitOrder
  deriving DecidableEq, Repr, Inhabited

/-- The parameters of R5 and R70 that choose between behaviours of one machine. No step changes them (log entry 3). -/
structure Params where
  arch            : Arch
  sameCyclePolicy : CyclePolicy
  /-- SEL3_STORE_FIELDS; `none` while not supplied (R63). -/
  sel3StoreFields : Option StoreFields
  /-- The instructions other than SFPTRANSP that `ExecSFPU` declares cross-lane (R70). -/
  crossLane       : List Mnemonic
  deriving DecidableEq, Repr

/-- `LoadMacroConfig[l].Misc` (R16). -/
structure Misc where
  storeMod0            : BitVec 4
  usesLoadMod0ForStore : BitVec 4
  unitDelayKind        : BitVec 4
  deriving DecidableEq, Repr

/-- One lane's `LoadMacroConfig` record (R14 to R17). -/
structure MacroConfig where
  misc                : Misc
  sequenceEntry       : Vector Word 4
  instructionTemplate : Vector Word 4
  deriving DecidableEq, Repr

/-- Sparse storage: pairs of a location's number and its contents, numbers strictly rising, no pair equal to what an
unlisted number reads as. -/
abbrev Memory := List (Nat × Word)

/-- What an unlisted Dst element or address counter reads as (DESIGN CHOICE, log entry 4). -/
def Memory.blank : Word := 0#32

/-- The canonical form of sparse storage. -/
abbrev Memory.wf (m : Memory) : Prop :=
  m.Pairwise (fun x y => x.1 < y.1) ∧ ∀ x ∈ m, x.2 ≠ Memory.blank

/-- The state that instructions read and write: what `ExecSFPU` and `SFPLOAD_sem` act on (R6). -/
structure Sfpu where
  /-- `LReg[0..16]`, 32 lanes each (R10). -/
  lreg                : Vector (Vector Word 32) 17
  /-- `LoadMacroConfig[0..31]` (R14). -/
  loadMacroConfig     : Vector MacroConfig 32
  /-- `LaneConfig.DISABLE_BACKDOOR_LOAD`, one bit for the unit (R18). -/
  disableBackdoorLoad : Bool
  /-- `LaneEnabled`, lane `l` at bit `l` (R21). -/
  laneEnabled         : LaneMask
  /-- Dst, opaque (R22): its elements by number. -/
  dst                 : Memory
  /-- The address counters an address mode may advance (R61), by number. -/
  addrCounters        : Memory
  deriving DecidableEq, Repr

/-- Both sparse parts are in canonical form. -/
abbrev Sfpu.wf (x : Sfpu) : Prop := x.dst.wf ∧ x.addrCounters.wf

/-- One scheduled entry (R19). -/
structure Entry where
  insn    : Insn
  counter : Fin 8
  kind    : DelayKind
  deriving DecidableEq, Repr

/-- An issuing thread: a list of instruction words and a position (R20). -/
structure Thread where
  words    : List Word
  position : Nat
  deriving DecidableEq, Repr

/-- A write of the Matrix Unit (FPU) to Dst (R22, R126): the region it counts as and the elements it sets. -/
structure FpuWrite where
  region : Nat
  cells  : List (Nat × Word)
  deriving DecidableEq, Repr

/-- What the environment does in one cycle: IssueSchedule's choice (R5, R80), the supply of LaneEnabled (R24), the
Matrix Unit's writes, how many Tensix instructions other than SFPU instructions each thread executes (R126), and
whether `SFPLOAD_sem`, if a load executes, raises (R71, R113; log entry 11). -/
structure CycleInput where
  issue       : Option (Fin Config.nThreads)
  laneEnabled : Option LaneMask
  fpuWrites   : List FpuWrite
  otherTensix : Vector Nat Config.nThreads
  loadRaises  : Bool
  deriving DecidableEq, Repr

/-- A cycle in which the environment does nothing. -/
def CycleInput.idle : CycleInput := ⟨none, none, [], tab Config.nThreads fun _ => 0, false⟩

/-- The entries of one lane, by sub-unit number. -/
abbrev LaneSched := Vector (List Entry) 4

/-- The machine. -/
structure State where
  sfpu        : Sfpu
  /-- `Sched[l][u]`: a list without repeats that stands for a set (R19). -/
  sched       : Vector LaneSched 32
  /-- Locations that hold a result not yet available to scheduled instructions, with the cycles left (R91); a later
  write does not end that (log entry 14). -/
  inFlight    : List (Loc × Nat)
  /-- For each Dst region the FPU has written: the Tensix instructions each thread has executed since (R126; log entry
  12). -/
  fpuDistance : List (Nat × Vector Nat Config.nThreads)
  /-- The issuing threads (R20, R116). -/
  threads     : Vector Thread Config.nThreads
  /-- The thread that issued last, in a cycle with an issue the one that issues (R80): whose instructions the hazard
  check of R126 counts (log entry 12). -/
  issuer      : Fin Config.nThreads
  /-- Whether the load of the cycle raises, as the environment said last (R71, R113; log entry 11). -/
  loadRaises  : Bool
  /-- The environment's inputs for the coming cycles, the next one first; idle after the last (log entry 7). -/
  inputs      : List CycleInput
  params      : Params
  /-- The fault mark (R23). -/
  faultMark   : Option Fault
  /-- The refusal mark (R23). -/
  refusalMark : Option Refusal
  deriving DecidableEq, Repr

/-- The record of a lane whose configuration nothing has written (log entry 5). -/
def MacroConfig.reset : MacroConfig :=
  ⟨⟨0#4, 0#4, 0#4⟩, tab 4 fun _ => 0#32, tab 4 fun _ => 0#32⟩

/-- The Vector Unit's registers and configuration at reset: the spec gives no value (R24, R120), the model takes zero
(log entry 5). -/
def Sfpu.reset : Sfpu where
  lreg                := tab 17 fun _ => tab 32 fun _ => 0#32
  loadMacroConfig     := tab 32 fun _ => MacroConfig.reset
  disableBackdoorLoad := false
  laneEnabled         := 0#32
  dst                 := []
  addrCounters        := []

/-- The parameters this spec uses (R5), with SEL3_STORE_FIELDS and the cross-lane instructions supplied as free values
(log entries 3 and 6). -/
def Params.reset : Params := ⟨.bh, .refuse, some Config.sel3StoreFields, Config.crossLane⟩

/-- The machine right after reset: `Sched` empty and the marks clear (R24, R121), every thread without a program. The
spec gives no starting value to what follows, and the model's choice is: no result in flight (R91; log entry 14), no Dst
region with a distance and thread 0 as the last to issue (R126; log entry 12), no input and no load that raises (log
entries 7 and 11). -/
def State.reset : State where
  sfpu        := Sfpu.reset
  sched       := tab 32 fun _ => tab 4 fun _ => []
  inFlight    := []
  fpuDistance := []
  threads     := tab Config.nThreads fun _ => ⟨[], 0⟩
  issuer      := ⟨0, by decide⟩
  loadRaises  := false
  inputs      := []
  params      := Params.reset
  faultMark   := none
  refusalMark := none

end Sys2Proof.Machine
end

