-- ==== Sys2Proof/Machine/Ops.lean ====
section
/-! DEFINITION. Sys2Proof/Machine/Ops.lean: sequencing of outcomes, sparse storage, one read and one write for every
location of the Vector Unit, and the operations on the scheduled entries of a sub-unit (R19, R68, R82). The spec has no
exception entry and no return from one (R110, R114, R115), so there is no operation for them. -/

namespace Sys2Proof.Machine

/-- The outcome of a part of a step. -/
abbrev Out (α : Type) := Host.Outcome α Fault Refusal

/-- Go on with the next part, unless this one stopped. -/
def andThen {α β : Type} (o : Out α) (f : α → Out β) : Out β :=
  match o with
  | .next a => f a
  | .fault r => .fault r
  | .refused r => .refused r

/-- Run a part once for each element of a list, in order, stopping at the first stop. -/
def foldOut {α β : Type} (f : α → β → Out β) : List α → β → Out β
  | [], b => .next b
  | a :: as, b => andThen (f a b) (foldOut f as)

/-! ## Sparse storage -/

/-- The contents of location `a`. -/
def Memory.read : Memory → Nat → Word
  | [], _ => Memory.blank
  | (b, w) :: m, a => if a = b then w else Memory.read m a

/-- `m` with location `a` holding `v`, in canonical form. -/
def Memory.write : Memory → Nat → Word → Memory
  | [], a, v => if v = Memory.blank then [] else [(a, v)]
  | (b, w) :: m, a, v =>
    if a < b then (if v = Memory.blank then (b, w) :: m else (a, v) :: (b, w) :: m)
    else if a = b then (if v = Memory.blank then m else (a, v) :: m)
    else (b, w) :: Memory.write m a v

/-- A list of writes, first to last. -/
def Memory.writeList (m : Memory) (cells : List (Nat × Word)) : Memory :=
  cells.foldl (fun m c => m.write c.1 c.2) m

/-! ## Lane geometry (R13) and register numbers -/

/-- The row of a lane, `l >> 3`. -/
def laneRow (l : Lane) : Fin 4 := ⟨l.val / 8, by omega⟩

/-- The column of a lane, `l & 7`. -/
def laneCol (l : Lane) : Fin 8 := ⟨l.val % 8, by omega⟩

/-- The lane at a row and a column, `r * 8 + c`. -/
def laneAt (r : Fin 4) (c : Fin 8) : Lane := ⟨r.val * 8 + c.val, by omega⟩

/-- The LReg a 3-bit register number names. -/
def lregOf3 (r : BitVec 3) : LRegNum := ⟨r.toNat, by omega⟩

/-- The LReg a 4-bit register field names (R12: 15 at most). -/
def lregOf4 (r : BitVec 4) : LRegNum := ⟨r.toNat, by omega⟩

/-- The macro-only register `LReg[16]` (R12). -/
def lreg16 : LRegNum := 16

/-- The bit of one lane in a mask. -/
def laneBit (l : Lane) : LaneMask := 1#32 <<< l.val

/-! ## Locations -/

/-- A Boolean as the contents of a location. -/
def wordOfBool (b : Bool) : Word := if b then 1#32 else 0#32

/-- The contents of a location; a narrower one is extended with zeros. -/
def Sfpu.get (x : Sfpu) : Loc → Word
  | .lreg r l => x.lreg[r][l]
  | .dst e => x.dst.read e
  | .addrCounter n => x.addrCounters.read n
  | .sequenceEntry l m => x.loadMacroConfig[l].sequenceEntry[m]
  | .instructionTemplate l t => x.loadMacroConfig[l].instructionTemplate[t]
  | .storeMod0 l => x.loadMacroConfig[l].misc.storeMod0.setWidth 32
  | .usesLoadMod0ForStore l => x.loadMacroConfig[l].misc.usesLoadMod0ForStore.setWidth 32
  | .unitDelayKind l => x.loadMacroConfig[l].misc.unitDelayKind.setWidth 32
  | .disableBackdoorLoad => wordOfBool x.disableBackdoorLoad
  | .laneEnabled l => wordOfBool (x.laneEnabled.getLsbD l.val)

/-- `x` with lane `l`'s configuration record changed by `f`. -/
def Sfpu.updateConfig (x : Sfpu) (l : Lane) (f : MacroConfig → MacroConfig) : Sfpu :=
  { x with loadMacroConfig := x.loadMacroConfig.set l (f x.loadMacroConfig[l]) }

/-- `c` with its `Misc` fields changed by `f`. -/
def MacroConfig.updateMisc (c : MacroConfig) (f : Misc → Misc) : MacroConfig := { c with misc := f c.misc }

/-- `x` with a location holding `w`; a narrower one takes the low bits. -/
def Sfpu.set (x : Sfpu) (loc : Loc) (w : Word) : Sfpu :=
  match loc with
  | .lreg r l => { x with lreg := x.lreg.set r (x.lreg[r].set l w) }
  | .dst e => { x with dst := x.dst.write e w }
  | .addrCounter n => { x with addrCounters := x.addrCounters.write n w }
  | .sequenceEntry l m => x.updateConfig l fun c => { c with sequenceEntry := c.sequenceEntry.set m w }
  | .instructionTemplate l t =>
    x.updateConfig l fun c => { c with instructionTemplate := c.instructionTemplate.set t w }
  | .storeMod0 l => x.updateConfig l fun c => c.updateMisc fun m => { m with storeMod0 := w.setWidth 4 }
  | .usesLoadMod0ForStore l =>
    x.updateConfig l fun c => c.updateMisc fun m => { m with usesLoadMod0ForStore := w.setWidth 4 }
  | .unitDelayKind l => x.updateConfig l fun c => c.updateMisc fun m => { m with unitDelayKind := w.setWidth 4 }
  | .disableBackdoorLoad => { x with disableBackdoorLoad := w.getLsbD 0 }
  | .laneEnabled l =>
    { x with laneEnabled := if w.getLsbD 0 then x.laneEnabled ||| laneBit l else x.laneEnabled &&& ~~~(laneBit l) }

/-- A list of writes, first to last. -/
def Sfpu.writeList (x : Sfpu) (ws : List (Loc × Word)) : Sfpu :=
  ws.foldl (fun x p => x.set p.1 p.2) x

/-- `x` with each listed location holding what `f` gives it; where `f` gives none the location stays as it is. -/
def Sfpu.assign (x : Sfpu) (locs : List Loc) (f : Loc → Option Word) : Sfpu :=
  x.writeList (locs.filterMap fun loc => (f loc).map fun w => (loc, w))

/-- `x` with the listed locations taken from `src`. -/
def Sfpu.overlay (x : Sfpu) (locs : List Loc) (src : Sfpu) : Sfpu :=
  locs.foldl (fun x loc => x.set loc (src.get loc)) x

/-! ## Sub-units and their scheduled entries -/

end Sys2Proof.Machine

namespace Sys2Proof

/-- A sub-unit's number (R9). -/
def SubUnit.number : SubUnit → Fin 4
  | .simple => 0
  | .mad => 1
  | .round => 2
  | .store => 3

/-- The sub-units in the order of their numbers. -/
def SubUnit.all : List SubUnit := [.simple, .mad, .round, .store]

end Sys2Proof

namespace Sys2Proof.Machine

/-- Every lane with every sub-unit, lane by lane (R62). -/
def lanesAndUnits : List (Lane × SubUnit) := allLanes.flatMap fun l => SubUnit.all.map fun u => (l, u)

/-- `Sched[l][u]` (R19). -/
def State.queue (s : State) (l : Lane) (u : SubUnit) : List Entry := s.sched[l][u.number]

/-- `s` with `Sched[l][u]` replaced. -/
def State.setQueue (s : State) (l : Lane) (u : SubUnit) (q : List Entry) : State :=
  { s with sched := s.sched.set l (s.sched[l].set u.number q) }

/-- `s` with its registers and configuration replaced. -/
def State.withSfpu (s : State) (x : Sfpu) : State := { s with sfpu := x }

/-- Forget the entries at a delay slot, unless the delay is 7 (R68). -/
def forget (q : List Entry) (delay : Fin 8) : List Entry :=
  if delay = 7 then q else q.filter fun e => e.counter ≠ delay

/-- Forget, then add the new entry to the set (R68). -/
def forgetAndSchedule (q : List Entry) (e : Entry) : List Entry :=
  let kept := forget q e.counter
  if e ∈ kept then kept else kept ++ [e]

/-- What a queue holds after the scheduling loop, given the entry that was built for it, if any (R68). -/
def queueAfter (q : List Entry) : Option Entry → List Entry
  | none => q
  | some e => forgetAndSchedule q e

/-- One entry's count-down in a cycle; `issued` says whether a regular SFPU instruction issues in it (R82, R83). A
counter of 0 does not wrap (R76). -/
def Entry.countDown (issued : Bool) (e : Entry) : Entry :=
  if e.kind = .cycles ∨ issued then { e with counter := ⟨e.counter.val - 1, by omega⟩ } else e

end Sys2Proof.Machine
end

