-- ==== Sys2Proof/Machine/Flags.lean ====
section
/-! DEFINITION. Sys2Proof/Machine/Flags.lean: the lane predicate LaneEnabled, the only predicate the spec names (R21),
and lane masks. No instruction of the spec computes or writes a flag (R21, R71, R105). -/

namespace Sys2Proof.Machine

/-- `LaneEnabled[l]` (R21). -/
def Sfpu.laneIsEnabled (x : Sfpu) (l : Lane) : Bool := x.laneEnabled.getLsbD l.val

/-- The mask with every lane. -/
def fullMask : LaneMask := BitVec.allOnes 32

/-- The lanes of a mask, in rising order. -/
def lanesOf (m : LaneMask) : List Lane := allLanes.filter fun l => m.getLsbD l.val

/-- The mask of the lanes that satisfy `p`. -/
def maskWhere (p : Lane → Bool) : LaneMask :=
  allLanes.foldl (fun m l => if p l then m ||| laneBit l else m) 0#32

end Sys2Proof.Machine
end

