-- ==== Sys2Proof/Machine/Operands.lean ====
section
/-! DEFINITION. Sys2Proof/Machine/Operands.lean: the operands SFPLOADMACRO passes on, the fields of a `Sequence` entry,
the sub-unit table, the choice of the instruction to schedule and its overrides (R15, R31, R52, R61, R63 to R69). -/

namespace Sys2Proof.Machine

/-- What the load part receives as its address: `(Imm9 << 1) | (VD >> 2)` (R42, R61). -/
def imm10 (imm9 : BitVec 9) (vd : BitVec 3) : BitVec 10 := imm9 ++ vd.extractLsb' 2 1

/-- The mode the load part receives: the constant 0, not the instruction's `instr_mod0` (R61). -/
def loadMod0 : BitVec 4 := 0#4

/-! ## The fields of a `Sequence` entry (R15) -/

/-- Sub-unit `u`'s 8-bit field, `(Sequence[m] >> (i * 8)) & 0xFF`. -/
def seqByte (entry : Word) (u : SubUnit) : BitVec 8 := (entry >>> (u.number.val * 8)).setWidth 8

/-- Bits 2:0, the instruction selector. -/
def seqSelector (b : BitVec 8) : BitVec 3 := b.extractLsb' 0 3

/-- Bits 5:3, the delay. -/
def seqDelay (b : BitVec 8) : Fin 8 := (b.extractLsb' 3 3).toFin

/-- Bit 6, use `LReg[16]`. -/
def seqUsesLreg16 (b : BitVec 8) : Bool := b.getLsbD 6

/-- Bit 7, the VB/VC select. -/
def seqSelectsVb (b : BitVec 8) : Bool := b.getLsbD 7

/-- The field of lane record `c` that an SFPLOADMACRO with MacroIndex `m` reads for sub-unit `u`. -/
def MacroConfig.field (c : MacroConfig) (m : BitVec 2) (u : SubUnit) : BitVec 8 :=
  seqByte (c.sequenceEntry[m.toFin]) u

/-! ## The sub-unit table (R52) -/

/-- `SubUnitOf`: the rows of the table a mnemonic is listed in. SFPLOAD, SFPLOADMACRO and an unlisted instruction are
in no row. -/
def subUnitOf : Mnemonic → List SubUnit
  | .sfpabs | .sfpand | .sfparecip | .sfpcast | .sfpcompc | .sfpconfig | .sfpdivp2 | .sfpencc | .sfpexexp
  | .sfpexman | .sfpgt | .sfpiadd | .sfple | .sfplz | .sfpmov | .sfpnot | .sfpor | .sfppopc | .sfppushc
  | .sfpsetcc | .sfpsetexp | .sfpsetman | .sfpsetsgn | .sfpshft | .sfpswap | .sfptransp | .sfpxor => [.simple]
  | .sfpadd | .sfpaddi | .sfplut | .sfplutfp32 | .sfpmad | .sfpmul | .sfpmuli | .sfpmul24 => [.mad]
  | .sfpshft2 | .sfpstochrnd => [.round]
  | .sfpnop => [.simple, .mad, .round]
  | .sfpstore => [.store]
  | .sfpload | .sfploadmacro | .unlisted _ => []

/-- The mnemonic of an instruction of this spec. -/
def instrOp : Instr → Mnemonic
  | .sfploadmacroBh _ _ _ _ _ => .sfploadmacro
  | .sfploadmacroWh _ _ _ _ => .sfploadmacro
  | .sfptransp _ _ _ _ => .sfptransp

/-! ## Parsing (R6, R46) -/

/-- The record of a word that `Config.parse` reads. -/
def insnOfRaw (r : RawInsn) : Insn where
  op   := r.op
  vb   := r.vb.map lregOf4
  vc   := r.vc.map lregOf4
  vd   := lregOf4 r.vd
  mod0 := r.mod0
  rest := .parsed r.rest

/-- The record of an SFPTRANSP word (R46): it has no Mod0 field, and its VB field is not placed by the source. -/
def insnOfTransp (w : Word) : Insn where
  op   := .sfptransp
  vb   := none
  vc   := some (lregOf4 (w.extractLsb' 8 4))
  vd   := lregOf4 (w.extractLsb' 4 4)
  mod0 := none
  rest := .transp (w.extractLsb' 0 4) (w.extractLsb' 12 12)

/-- The record of an SFPLOADMACRO word; nothing executes it, since no sub-unit takes SFPLOADMACRO (R52, R69). -/
def insnOfLoadmacro (w : Word) : Insn where
  op   := .sfploadmacro
  vb   := none
  vc   := none
  vd   := lregOf3 (w.extractLsb' 0 1 ++ w.extractLsb' 20 2)
  mod0 := some (w.extractLsb' 16 4)
  rest := .parsed w

/-- `parse` (R6): the two instructions of this spec are known by their opcode byte and by nothing else (R50), every
other word is the parameter's. -/
def parse (w : Word) : Option Insn :=
  if opcodeByte w = opSfptransp then some (insnOfTransp w)
  else if opcodeByte w = opSfploadmacro then some (insnOfLoadmacro w)
  else
    match Config.parse w with
    | none => none
    | some r => if r.op = .sfptransp ∨ r.op = .sfploadmacro then none else some (insnOfRaw r)

/-! ## Choosing the instruction (R63, R64, R69) -/

/-- SFPNOP as selector 2 schedules it (R63); its VD is always overridden (R65). -/
def nopInsn : Insn := ⟨.sfpnop, none, none, 0, none, .none⟩

/-- `SFPSTORE(vd=0)` as selector 3 schedules it (R63). -/
def storeInsn (f : StoreFields) : Insn := ⟨.sfpstore, none, none, 0, none, .store f⟩

/-- What a selector chooses, before anything is checked. -/
inductive Choice where
  | nothing
  | undefined
  | store
  | insn (i : Insn)
  | noInstruction
  deriving DecidableEq, Repr

/-- The table of R63. -/
def choose (c : MacroConfig) (sel : BitVec 3) : Choice :=
  if sel = 0#3 then .nothing
  else if sel = 1#3 then .undefined
  else if sel = 2#3 then .insn nopInsn
  else if sel = 3#3 then .store
  else
    match parse (c.instructionTemplate[(⟨sel.toNat - 4, by omega⟩ : Fin 4)]) with
    | some i => .insn i
    | none => .noInstruction

/-- The instruction to schedule on sub-unit `u` of lane `l`, if any, after the checks of R64, R69 and R63 (the
eligibility of selector 3 does not wait for its operands). -/
def selectInsn (p : Params) (c : MacroConfig) (l : Lane) (u : SubUnit) (sel : BitVec 3) : Out (Option Insn) :=
  match choose c sel with
  | .nothing => .next none
  | .undefined => .fault (.undefinedSelector l u)
  | .noInstruction => .fault (.ineligibleForSubUnit l u none)
  | .insn i => if u ∈ subUnitOf i.op then .next (some i) else .fault (.ineligibleForSubUnit l u (some i.op))
  | .store =>
    if u ∈ subUnitOf .sfpstore then
      match p.sel3StoreFields with
      | some f => .next (some (storeInsn f))
      | none => .refused .sel3FieldsOpen
    else .fault (.ineligibleForSubUnit l u (some .sfpstore))

/-! ## The overrides (R65, R66, R67) -/

/-- Simple, MAD and Round (R65). -/
def overrideCompute (b : BitVec 8) (vd : BitVec 3) (i : Insn) : Insn where
  op   := i.op
  vb   := if seqSelectsVb b then some (lregOf3 vd) else i.vb
  vc   := if seqSelectsVb b then i.vc else some (lregOf3 vd)
  vd   := if seqUsesLreg16 b then lreg16 else lregOf3 vd
  mod0 := i.mod0
  rest := i.rest

/-- The register a scheduled store stores (R66). -/
def storeVd (b : BitVec 8) (vd : BitVec 3) (own : LRegNum) : LRegNum :=
  if seqUsesLreg16 b then lreg16 else if seqSelectsVb b then own else lregOf3 vd

/-- The `Mod0` a scheduled store takes (R67). -/
def storeMod0For (c : MacroConfig) (m : BitVec 2) (mod0 : BitVec 4) : BitVec 4 :=
  if c.misc.usesLoadMod0ForStore.getLsbD m.toNat then mod0 else c.misc.storeMod0

/-- Store (R66, R67): VB and VC are never overridden. -/
def overrideStore (c : MacroConfig) (b : BitVec 8) (m : BitVec 2) (vd : BitVec 3) (mod0 : BitVec 4) (i : Insn) : Insn :=
  { i with vd := storeVd b vd i.vd, mod0 := some (storeMod0For c m mod0) }

/-- The overrides of sub-unit `u`. -/
def overrides (c : MacroConfig) (u : SubUnit) (b : BitVec 8) (m : BitVec 2) (vd : BitVec 3) (mod0 : BitVec 4)
    (i : Insn) : Insn :=
  match u with
  | .simple => overrideCompute b vd i
  | .mad => overrideCompute b vd i
  | .round => overrideCompute b vd i
  | .store => overrideStore c b m vd mod0 i

/-- The delay kind of sub-unit `u` (R16, R68). -/
def MacroConfig.delayKind (c : MacroConfig) (u : SubUnit) : DelayKind :=
  if c.misc.unitDelayKind.getLsbD u.number.val then .instructions else .cycles

/-- The entry that an SFPLOADMACRO with MacroIndex `m`, `VD` and `Mod0` schedules on sub-unit `u` of lane `l`, whose
record is `c`; none where the selector is 0 (R62 to R69). -/
def buildEntry (p : Params) (c : MacroConfig) (m : BitVec 2) (vd : BitVec 3) (mod0 : BitVec 4) (l : Lane) (u : SubUnit) :
    Out (Option Entry) :=
  let b := c.field m u
  andThen (selectInsn p c l u (seqSelector b)) fun chosen =>
    .next (chosen.map fun i => ⟨overrides c u b m vd mod0 i, seqDelay b, c.delayKind u⟩)

end Sys2Proof.Machine
end

