-- ==== Sys2Proof/Machine/Transp.lean ====
section
/-! DEFINITION. Sys2Proof/Machine/Transp.lean: SFPTRANSP (R100 to R108), and the source's two programs for it, the loop
nest of the functional model (R101) and the emulator's shortcut (R106), to be compared with the meaning. -/

namespace Sys2Proof.Machine

/-- The vector registers. -/
abbrev LRegFile := Vector (Vector Word 32) 17

/-- Register `base + i`, where `base` is 0 or 4: the first or the second group of four. -/
def groupReg (second : Bool) (i : Fin 4) : LRegNum := ⟨(if second then 4 else 0) + i.val, by split <;> omega⟩

/-- The simultaneous assignment of R101: lane `(j, c)` of register `base + i` takes lane `(i, c)` of register
`base + j` where lane `(j, c)` is enabled. The registers from 8 on are unchanged. -/
def transposeRegs (enabled : Lane → Bool) (old : LRegFile) : LRegFile :=
  tab 17 fun r => tab 32 fun l =>
    if r.val < 8 ∧ enabled l then
      old[groupReg (decide (4 ≤ r.val)) (laneRow l)][laneAt ⟨r.val % 4, by omega⟩ (laneCol l)]
    else old[r][l]

/-- The guard of R102: `VD < 12 or LaneConfig.DISABLE_BACKDOOR_LOAD`. -/
def transpGuard (vd : LRegNum) (x : Sfpu) : Bool := decide (vd.val < 12) || x.disableBackdoorLoad

/-- SFPTRANSP with destination field `vd`, regular or scheduled (R101, R104): under the guard the transpose, otherwise
the refusal of R102. -/
def transpose (vd : LRegNum) (x : Sfpu) : Out Sfpu :=
  if transpGuard vd x then .next { x with lreg := transposeRegs x.laneIsEnabled x.lreg }
  else .refused .backdoorLoadOpen

/-- SFPTRANSP (R101). Its other three operand fields are ignored (R47). -/
def execSfptransp (_imm12Math : BitVec 12) (_lregC : BitVec 4) (vd : BitVec 4) (_instrMod1 : BitVec 4) (s : State) :
    Host.Outcome State Fault Refusal :=
  andThen (transpose (lregOf4 vd) s.sfpu) fun x => .next (s.withSfpu x)

/-! ## The source's loop nests -/

/-- The pairs `(i, j)` with `j < i`, in the order of the source's loops `for i in range(4): for j in range(i)`. -/
def lowerPairs : List (Fin 4 × Fin 4) := [(1, 0), (2, 0), (2, 1), (3, 0), (3, 1), (3, 2)]

/-- The columns in order. -/
def columns : List (Fin 8) := List.finRange 8

/-- Write one lane of one register. -/
def LRegFile.put (f : LRegFile) (r : LRegNum) (l : Lane) (w : Word) : LRegFile := f.set r (f[r].set l w)

/-- The body of the innermost loop of R101: read both, then the two guarded assignments in order. -/
def swapEnabled (enabled : Lane → Bool) (second : Bool) (column : Fin 8) (p : Fin 4 × Fin 4) (f : LRegFile) : LRegFile :=
  let ij := f[groupReg second p.1][laneAt p.2 column]
  let ji := f[groupReg second p.2][laneAt p.1 column]
  let f1 := if enabled (laneAt p.2 column) then LRegFile.put f (groupReg second p.1) (laneAt p.2 column) ji else f
  if enabled (laneAt p.1 column) then LRegFile.put f1 (groupReg second p.2) (laneAt p.1 column) ij else f1

/-- `Transpose4(base)` of R101. -/
def transpose4Loop (enabled : Lane → Bool) (second : Bool) (f : LRegFile) : LRegFile :=
  columns.foldl (fun f column => lowerPairs.foldl (fun f p => swapEnabled enabled second column p f) f) f

/-- The source's functional model of SFPTRANSP on the registers, its guard true (R101): `Transpose4(0)`, then
`Transpose4(4)`. -/
def transposeLoops (enabled : Lane → Bool) (f : LRegFile) : LRegFile :=
  transpose4Loop enabled true (transpose4Loop enabled false f)

/-- The body of the emulator's innermost loop (R106): swap, with no guard. -/
def swapAlways (second : Bool) (column : Fin 8) (p : Fin 4 × Fin 4) (f : LRegFile) : LRegFile :=
  let ij := f[groupReg second p.1][laneAt p.2 column]
  let ji := f[groupReg second p.2][laneAt p.1 column]
  LRegFile.put (LRegFile.put f (groupReg second p.1) (laneAt p.2 column) ji) (groupReg second p.2) (laneAt p.1 column) ij

/-- `emulate_sfptransp(lregs)` of R106: for each group, column and pair, an unconditional swap. -/
def emulateSfptransp (f : LRegFile) : LRegFile :=
  [false, true].foldl
    (fun f second =>
      columns.foldl (fun f column => lowerPairs.foldl (fun f p => swapAlways second column p f) f) f) f

end Sys2Proof.Machine
end

