-- ==== Sys2Proof/Machine/Actions.lean ====
section
/-! DEFINITION. Sys2Proof/Machine/Actions.lean: what can execute in a cycle, with its footprint (R90) and its effect
(R6, R61, R85, R101). The effect of an instruction the spec does not define is a parameter of its footprint: the values
it writes are a function of the values it reads, and it may leave a location as it is. -/

namespace Sys2Proof.Machine

/-- One execution in a cycle. -/
inductive Action where
  /-- SFPTRANSP with this VD, in all lanes. -/
  | transp (vd : LRegNum)
  /-- `SFPLOAD_sem` with these operands: the load part of SFPLOADMACRO, or a regular SFPLOAD. -/
  | load (ops : LoadOps) (macroLoad : Bool)
  /-- Any other SFPU instruction on a set of lanes (`ExecSFPU` of R6), regular or scheduled, lane by lane or cross-lane
  (R70). -/
  | run (insn : Insn) (lanes : LaneMask) (scheduled crossLane : Bool)
  deriving DecidableEq, Repr

/-- `LReg[0..7]` in all lanes. -/
def generalRegLocs : List Loc :=
  (List.finRange 8).flatMap fun r => allLanes.map fun l => Loc.lreg ⟨r.val, by omega⟩ l

/-- `LoadMacroConfig`, whole (R90: what the load part of SFPLOADMACRO reads of the configuration). -/
def configLocs : List Loc :=
  allLanes.flatMap fun l =>
    ((List.finRange 4).map fun m => Loc.sequenceEntry l m) ++
    ((List.finRange 4).map fun t => Loc.instructionTemplate l t) ++
    [.storeMod0 l, .usesLoadMod0ForStore l, .unitDelayKind l]

end Sys2Proof.Machine

namespace Sys2Proof

/-- Whether a location belongs to `LoadMacroConfig`. -/
def Loc.isMacroConfig : Loc → Bool
  | .sequenceEntry _ _ | .instructionTemplate _ _ | .storeMod0 _ | .usesLoadMod0ForStore _ | .unitDelayKind _ => true
  | .lreg _ _ | .dst _ | .addrCounter _ | .disableBackdoorLoad | .laneEnabled _ => false

/-- Whether a location is a lane of `LReg[16]`. -/
def Loc.isLreg16 : Loc → Bool
  | .lreg r _ => r == Machine.lreg16
  | _ => false

/-- Whether a location is a lane of `LReg[8..16]`. -/
def Loc.isHighLreg : Loc → Bool
  | .lreg r _ => decide (8 ≤ r.val)
  | _ => false

/-- Whether a location is a bit of LaneEnabled. -/
def Loc.isLaneEnabled : Loc → Bool
  | .laneEnabled _ => true
  | _ => false

/-- The lane a location belongs to; none where it belongs to the whole unit. -/
def Loc.lane? : Loc → Option Lane
  | .lreg _ l | .sequenceEntry l _ | .instructionTemplate l _ | .storeMod0 l | .usesLoadMod0ForStore l
  | .unitDelayKind l | .laneEnabled l => some l
  | .dst _ | .addrCounter _ | .disableBackdoorLoad => none

/-- Whether an execution on lane `l` that is not cross-lane may touch a location: it acts on lane `l` only (R70). -/
def Loc.onLane (l : Lane) (loc : Loc) : Bool := loc.lane?.all fun l' => l' == l

/-- Whether a location is an element of Dst. -/
def Loc.isDst : Loc → Bool
  | .dst _ => true
  | _ => false

/-- What an instruction may read: `LReg[16]` is readable only by an SFPSTORE scheduled with VD = 16 (R12). -/
def Insn.mayRead (i : Insn) (scheduled : Bool) (loc : Loc) : Bool :=
  !loc.isLreg16 || (scheduled && i.op == .sfpstore && i.vd == Machine.lreg16)

/-- What an instruction may write: `LReg[16]` is writable only by a scheduled instruction with VD = 16, which for an
SFPSTORE is not its destination but the register it stores (R12, R66); `LoadMacroConfig` is reached only by SFPCONFIG
(R14). -/
def Insn.mayWrite (i : Insn) (scheduled : Bool) (loc : Loc) : Bool :=
  (!loc.isLreg16 || (scheduled && i.op != .sfpstore && i.vd == Machine.lreg16)) && (!loc.isMacroConfig || i.op == .sfpconfig)

/-- Whether an SFPLOADMACRO can hand these operands to `SFPLOAD_sem` (R61): a destination in `LReg[0..7]` and mode 0.
`SFPLOAD_sem` is a function of its arguments (R6), so what no SFPLOADMACRO does it does not do with such operands (log
entry 10). -/
def LoadOps.ofMacro (ops : LoadOps) : Bool := decide (ops.vd.val < 8) && ops.mod0 == Machine.loadMod0

/-- What `SFPLOAD_sem` may read: not `LReg[16]` (R12), and in an SFPLOADMACRO not `LReg[8..15]` (R10). -/
def LoadOps.mayRead (ops : LoadOps) (loc : Loc) : Bool := !loc.isLreg16 && !(ops.ofMacro && loc.isHighLreg)

/-- What `SFPLOAD_sem` may write: neither `LReg[16]` (R12) nor `LoadMacroConfig` (R14), and in an SFPLOADMACRO neither
`LReg[8..15]` (R10) nor LaneEnabled (R21, R60, R71). -/
def LoadOps.mayWrite (ops : LoadOps) (loc : Loc) : Bool :=
  !loc.isLreg16 && !loc.isMacroConfig && !(ops.ofMacro && (loc.isHighLreg || loc.isLaneEnabled))

/-- `Reads(insn, l)` of R90, cut down to what R12 and R70 allow. -/
def Insn.laneReads (i : Insn) (scheduled crossLane : Bool) (l : Lane) : List Loc :=
  (Config.reads i l).filter fun loc => i.mayRead scheduled loc && (crossLane || loc.onLane l)

/-- `Writes(insn, l)` of R90, cut down to what R12, R14 and R70 allow. -/
def Insn.laneWrites (i : Insn) (scheduled crossLane : Bool) (l : Lane) : List Loc :=
  (Config.writes i l).filter fun loc => i.mayWrite scheduled loc && (crossLane || loc.onLane l)

end Sys2Proof

namespace Sys2Proof.Machine

/-- The locations that `SFPLOAD_sem` reads. -/
def loadReads (ops : LoadOps) : List Loc := (Config.loadReads ops).filter ops.mayRead

/-- The locations that `SFPLOAD_sem` may write: `LReg[VD]` in all lanes (R33, R90), and whatever else it writes (R60). -/
def loadWrites (ops : LoadOps) : List Loc :=
  ((allLanes.map fun l => Loc.lreg ops.vd l) ++ Config.loadWrites ops).filter ops.mayWrite

/-- `Reads` of R90. -/
def Action.reads : Action → List Loc
  | .transp _ => generalRegLocs ++ (allLanes.map fun l => Loc.laneEnabled l) ++ [.disableBackdoorLoad]
  | .load ops macroLoad => loadReads ops ++ if macroLoad then configLocs else []
  | .run insn lanes scheduled crossLane => (lanesOf lanes).flatMap (insn.laneReads scheduled crossLane)

/-- `Writes` of R90. -/
def Action.writes : Action → List Loc
  | .transp _ => generalRegLocs
  | .load ops _ => loadWrites ops
  | .run insn lanes scheduled crossLane => (lanesOf lanes).flatMap (insn.laneWrites scheduled crossLane)

/-- What `SFPLOAD_sem(vd, mod0, addr_mod, imm10, State)` does to a location it may write (R6). -/
def loadValue (ops : LoadOps) (x : Sfpu) (loc : Loc) : Option Word :=
  Config.sfpload ops ((loadReads ops).map x.get) loc

/-- `SFPLOAD_sem(vd, mod0, addr_mod, imm10, State)` (R6). `LoadMacroConfig` is no part of it (R14). -/
def loadSem (ops : LoadOps) (x : Sfpu) : Sfpu :=
  { x.assign (loadWrites ops) (loadValue ops x) with loadMacroConfig := x.loadMacroConfig }

/-- `ExecSFPU(insn, lanes, State)` (R6). -/
def execOther (insn : Insn) (lanes : LaneMask) (scheduled crossLane : Bool) (x : Sfpu) : Sfpu :=
  let vals := (Action.run insn lanes scheduled crossLane).reads.map x.get
  x.assign (Action.run insn lanes scheduled crossLane).writes (Config.execSfpu insn lanes vals)

/-- The effect of an action on the registers and the configuration. -/
def Action.perform : Action → Sfpu → Out Sfpu
  | .transp vd, x => transpose vd x
  | .load ops _, x => .next (loadSem ops x)
  | .run insn lanes scheduled crossLane, x => .next (execOther insn lanes scheduled crossLane x)

/-- The cycles after which an action's result is available: one for SFPTRANSP and for the load of SFPLOADMACRO (R91,
R125, R130), free for any other. -/
def Action.latency : Action → Nat
  | .transp _ => 1
  | .load ops macroLoad => if macroLoad then 1 else Config.loadLatency ops
  | .run insn _ _ _ => Config.latency insn

/-- Whether an action touches Dst; a load does (R30). -/
def Action.touchesDst : Action → Bool
  | .transp _ => false
  | .load _ _ => true
  | .run insn lanes scheduled crossLane =>
    (Action.run insn lanes scheduled crossLane).reads.any Loc.isDst ||
      (Action.run insn lanes scheduled crossLane).writes.any Loc.isDst

/-- Whether one of two actions writes a location that the other reads or writes (R90). -/
def Action.conflicts (a b : Action) : Bool :=
  (a.writes.any fun loc => decide (loc ∈ b.reads) || decide (loc ∈ b.writes)) ||
  (b.writes.any fun loc => decide (loc ∈ a.reads))

/-- Whether two actions write one location. -/
def Action.writesMeet (a b : Action) : Bool := a.writes.any fun loc => decide (loc ∈ b.writes)

end Sys2Proof.Machine
end

