-- ==== Sys2Proof/Machine/LoadMacro.lean ====
section
/-! DEFINITION. Sys2Proof/Machine/LoadMacro.lean: SFPLOADMACRO in the cycle it executes: the load, then the scheduling
of up to four instructions in every lane (R60 to R76), and the Wormhole format (R44). -/

namespace Sys2Proof.Machine

/-- Whether the load reads a Dst region that the FPU wrote fewer than 3 Tensix instructions of the issuing thread ago
(R126; that another thread's instructions do not count is the conservative reading D25 asks for, log entry 12). -/
def dstHazard (s : State) (addrMod : BitVec 3) (imm10 : BitVec 10) : Bool :=
  s.fpuDistance.any fun d => decide (d.2[s.issuer] < 3) && Config.loadReadsRegion addrMod imm10 s.sfpu.addrCounters d.1

/-- The operands of the load part: destination `VD`, mode 0, the address mode, and `(Imm9 << 1) | VDHi` (R61). -/
def macroLoadOps (vd : BitVec 3) (addrMod : BitVec 3) (imm9 : BitVec 9) : LoadOps :=
  ⟨lregOf3 vd, loadMod0, addrMod, imm10 imm9 vd⟩

/-- Step 1, the load (R61). -/
def loadPart (ops : LoadOps) (s : State) : State := s.withSfpu (loadSem ops s.sfpu)

/-- One pass of the loop of R62: lane `l` and sub-unit `u`. -/
def scheduleOne (m : BitVec 2) (vd : BitVec 3) (mod0 : BitVec 4) (lu : Lane × SubUnit) (s : State) : Out State :=
  andThen (buildEntry s.params s.sfpu.loadMacroConfig[lu.1] m vd mod0 lu.1 lu.2) fun e =>
    match e with
    | none => .next s
    | some e => .next (s.setQueue lu.1 lu.2 (forgetAndSchedule (s.queue lu.1 lu.2) e))

/-- Step 2, the scheduling loop: every lane, and within a lane every sub-unit in order (R62). -/
def scheduleAll (m : BitVec 2) (vd : BitVec 3) (mod0 : BitVec 4) (s : State) : Out State :=
  foldOut (scheduleOne m vd mod0) lanesAndUnits s

/-- SFPLOADMACRO, Blackhole (R60): the hazard check of R126, the load, unless it raises (R71), the scheduling loop; the
stops in the order of R113. -/
def execSfploadmacroBh (macroIndex : BitVec 2) (vd : BitVec 3) (mod0 : BitVec 4) (addrMod : BitVec 3) (imm9 : BitVec 9)
    (s : State) : Host.Outcome State Fault Refusal :=
  if dstHazard s addrMod (imm10 imm9 vd) then .fault .dstHazard
  else if s.loadRaises then .fault .unwrittenRead
  else scheduleAll macroIndex vd mod0 (loadPart (macroLoadOps vd addrMod imm9) s)

/-- SFPLOADMACRO, Wormhole (R44): the fields are extracted, and how MacroIndex, VD and the row address are packed into
them is not in the source, so the instruction is refused. -/
def execSfploadmacroWh (_lregInd : BitVec 4) (_instrMod0 : BitVec 4) (_sfpuAddrMod : BitVec 2) (_destRegAddr : BitVec 14)
    (_s : State) : Host.Outcome State Fault Refusal :=
  .refused .wormholePacking

end Sys2Proof.Machine
end

