-- ==== Sys2Proof/Machine/Dispatch.lean ====
section
/-! DEFINITION. Sys2Proof/Machine/Dispatch.lean: one arm per instruction. -/

namespace Sys2Proof.Machine

def exec (i : Instr) (s : State) : Host.Outcome State Fault Refusal :=
  match i with
  | .sfploadmacroBh macroIndex vd mod0 addrMod imm9 => Sys2Proof.Machine.execSfploadmacroBh macroIndex vd mod0 addrMod imm9 s
  | .sfploadmacroWh lregInd instrMod0 sfpuAddrMod destRegAddr => Sys2Proof.Machine.execSfploadmacroWh lregInd instrMod0 sfpuAddrMod destRegAddr s
  | .sfptransp imm12Math lregC vd instrMod1 => Sys2Proof.Machine.execSfptransp imm12Math lregC vd instrMod1 s

end Sys2Proof.Machine
end

