-- ==== Sys2Proof/Machine/Scheduler.lean ====
section
/-! DEFINITION. Sys2Proof/Machine/Scheduler.lean: what a cycle does with the scheduled entries: which are due, the
count-down, the priority over a regular instruction, and their execution together with it (R80 to R93). -/

namespace Sys2Proof.Machine

/-! ## Step 1: due entries (R81) -/

/-- The entries of a queue that are due. -/
def dueEntries (q : List Entry) : List Entry := q.filter fun e => e.counter = 0

/-- The entries of a queue that stay. -/
def pendingEntries (q : List Entry) : List Entry := q.filter fun e => e.counter ≠ 0

/-- `Due[l][u]`: at most one entry (R87). -/
abbrev Due := Vector (Vector (Option Entry) 4) 32

/-- The due entries of a state. -/
def dueTable (s : State) : Due := tab 32 fun l => tab 4 fun n => (dueEntries s.sched[l][n]).head?

/-- `Due[l][u]`. -/
def Due.at (d : Due) (l : Lane) (u : SubUnit) : Option Entry := d[l][u.number]

/-- The first lane and sub-unit with two entries due together, if any (R87). -/
def collision (s : State) : Option (Lane × SubUnit) :=
  lanesAndUnits.find? fun lu => decide (1 < (dueEntries (s.queue lu.1 lu.2)).length)

/-- The lanes with an entry due on a sub-unit. -/
def dueMask (d : Due) (u : SubUnit) : LaneMask := maskWhere fun l => (d.at l u).isSome

/-- Whether any entry is due. -/
def anyDue (d : Due) : Bool := lanesAndUnits.any fun lu => (d.at lu.1 lu.2).isSome

/-! ## Step 2: count-down (R82) -/

/-- The due entries leave `Sched` and the others count down. -/
def advanceSched (issued : Bool) (s : State) : State :=
  { s with
    sched := tab 32 fun l => tab 4 fun n => (pendingEntries s.sched[l][n]).map (Entry.countDown issued) }

/-! ## Step 3: priority (R88) -/

/-- Whether an instruction crosses lanes: SFPTRANSP does, and what `ExecSFPU` declares (R70). That the flag belongs to the
mnemonic, and so to every form of the instruction, is the model's choice (log entry 21): the spec does not say whether it
belongs to a mnemonic or to one record. -/
def isCrossLane (p : Params) (op : Mnemonic) : Bool := op == .sfptransp || decide (op ∈ p.crossLane)

/-- What becomes of a regular instruction in a cycle. -/
inductive Fate where
  | execute (lanes : LaneMask)
  | discarded
  | refused (r : Refusal)
  deriving DecidableEq, Repr

/-- The priority rule (R88). SFPLOAD and SFPLOADMACRO are never discarded. An instruction of one row loses the lanes in
which an entry is due on that sub-unit, a cross-lane one all lanes or none. `writesNothing` says that the instruction
is the identity. -/
def fate (p : Params) (d : Due) (op : Mnemonic) (writesNothing : Bool) : Fate :=
  if op = .sfpload ∨ op = .sfploadmacro then .execute fullMask
  else
    match subUnitOf op with
    | [] => if anyDue d then .refused .unknownSubUnit else .execute fullMask
    | [u] =>
      if dueMask d u = 0#32 then .execute fullMask
      else if dueMask d u = fullMask then .discarded
      else if isCrossLane p op then .refused .nonUniformCrossLane
      else .execute (~~~(dueMask d u))
    | us =>
      if writesNothing then .execute fullMask
      else if us.any fun u => decide (dueMask d u ≠ 0#32) then .refused .unknownSubUnit
      else .execute fullMask

/-! ## Step 4: execution of the due entries (R85, R70, R90, R91) -/

/-- The action of a cross-lane instruction that all lanes execute together. -/
def crossAction (i : Insn) : Action := if i.op = .sfptransp then .transp i.vd else .run i fullMask true true

/-- The actions of the entries due on one sub-unit: lane by lane, or, if one of them is cross-lane, one action for all
lanes, which must hold equal entries (R70). -/
def rowActions (p : Params) (d : Due) (u : SubUnit) : Out (List Action) :=
  if allLanes.any fun l => (d.at l u).any fun e => isCrossLane p e.insn.op then
    match d.at 0 u with
    | none => .refused .nonUniformCrossLane
    | some e =>
      if allLanes.all fun l => decide (d.at l u = some e) then .next [crossAction e.insn]
      else .refused .nonUniformCrossLane
  else .next (allLanes.filterMap fun l => (d.at l u).map fun e => .run e.insn (laneBit l) true false)

/-- The actions of all due entries, in the order of the sub-units. -/
def dueActions (p : Params) (d : Due) : Out (List Action) :=
  foldOut (fun u acts => andThen (rowActions p d u) fun more => .next (acts ++ more)) SubUnit.all []

/-- Whether a scheduled instruction reads a result that is not yet available (R91). Only results left by earlier cycles
are looked at. That a result of the same cycle is R90's alone, whatever its latency, so that under `unitOrder` a due
action sees it and no fault arises, is the model's choice (log entry 14). -/
def readsNotReady (inFlight : List (Loc × Nat)) (acts : List Action) : Bool :=
  acts.any fun a => a.reads.any fun loc => inFlight.any fun f => decide (f.1 = loc)

/-- The actions one after the other, each seeing the writes of those before it. -/
def performAll (acts : List Action) (x : Sfpu) : Out Sfpu := foldOut Action.perform acts x

/-- The actions of which every one reads `pre`, laid over `x`. -/
def performOld (pre : Sfpu) (acts : List Action) (x : Sfpu) : Out Sfpu :=
  foldOut (fun a x => andThen (a.perform pre) fun post => .next (x.overlay a.writes post)) acts x

/-- Execution of the due actions beside the cycle's regular one (R90). `pre` is the unit before step 3, `x` the unit
after it. That the conflicts of R90 are looked for before any due action executes, so that `sameCycleConflict` is
answered before a scheduled SFPTRANSP's `backdoorLoadOpen`, is the model's choice (log entry 18): R113 gives no order
among them. -/
def coexecute (policy : CyclePolicy) (pre : Sfpu) (regular : Option Action) (due : List Action) (x : Sfpu) : Out Sfpu :=
  match policy with
  | .refuse =>
    if (regular.toList ++ due).Pairwise fun a b => a.conflicts b = false then performAll due x
    else .refused .sameCycleConflict
  | .old =>
    if (regular.toList ++ due).Pairwise fun a b => a.writesMeet b = false then performOld pre due x
    else .refused .sameCycleConflict
  | .unitOrder => performAll due x

/-! ## Results in flight (R91) and the FPU distance (R126) at the end of a cycle -/

/-- What an action leaves in flight. -/
def Action.inFlight (a : Action) : List (Loc × Nat) :=
  if a.latency ≤ 1 then [] else a.writes.map fun loc => (loc, a.latency - 1)

/-- The locations in flight after a cycle in which the actions executed (R91). That a location stays in flight for the
cycles left when a later instruction, of whatever latency, overwrites it is the model's choice (log entry 14): the spec
is silent. -/
def ageInFlight (now : List (Loc × Nat)) (acts : List Action) : List (Loc × Nat) :=
  ((now.map fun f => (f.1, f.2 - 1)).filter fun f => decide (0 < f.2)) ++ acts.flatMap Action.inFlight

/-- A region's distance set to 0 by an FPU write. -/
def noteFpuWrite (ds : List (Nat × Vector Nat Config.nThreads)) (region : Nat) :
    List (Nat × Vector Nat Config.nThreads) :=
  (region, tab Config.nThreads fun _ => 0) :: ds.filter fun d => d.1 ≠ region

/-- How many Tensix instructions of a thread a cycle counts (R126, read conservatively as D25 asks; log entry 12): the
environment's others, and the regular SFPU instruction if that thread issued it, it executed and it does not touch
Dst. -/
def tensixExecuted (c : CycleInput) (issuer : Fin Config.nThreads) (regular : Option Action)
    (th : Fin Config.nThreads) : Nat :=
  c.otherTensix[th] + (match regular with
    | some a => if issuer = th ∧ a.touchesDst = false then 1 else 0
    | none => 0)

/-- The distances after a cycle; a region written in the cycle stays at 0. -/
def ageDistances (c : CycleInput) (issuer : Fin Config.nThreads) (regular : Option Action)
    (ds : List (Nat × Vector Nat Config.nThreads)) : List (Nat × Vector Nat Config.nThreads) :=
  ds.map fun d =>
    if c.fpuWrites.any fun w => decide (w.region = d.1) then d
    else (d.1, tab Config.nThreads fun th => d.2[th] + tensixExecuted c issuer regular th)

end Sys2Proof.Machine
end

