-- ==== Sys2Proof/Machine/Cycle.lean ====
section
/-! DEFINITION. Sys2Proof/Machine/Cycle.lean: one cycle of the machine (R80, R81). -/

namespace Sys2Proof.Machine

/-- What the environment does at the start of a cycle: it supplies LaneEnabled (R24), the Matrix Unit writes Dst (R22,
R126), and it says whether a load of the cycle raises (R71, R113). -/
def applyInput (c : CycleInput) (s : State) : State :=
  { s with
    sfpu := { s.sfpu with
      laneEnabled := c.laneEnabled.getD s.sfpu.laneEnabled
      dst := c.fpuWrites.foldl (fun m w => m.writeList w.cells) s.sfpu.dst }
    fpuDistance := c.fpuWrites.foldl (fun ds w => noteFpuWrite ds w.region) s.fpuDistance
    loadRaises := c.loadRaises }

/-- `issue` (R80): the thread the schedule picks and the word at its position; none if the schedule picks no thread or
the thread's list is exhausted. -/
def issueOf (c : CycleInput) (s : State) : Option (Fin Config.nThreads × Word) :=
  match c.issue with
  | none => none
  | some t =>
    match s.threads[t].words[s.threads[t].position]? with
    | none => none
    | some w => some (t, w)

/-- The issuing thread moves its position on by one (R20), and is the last that issued. -/
def advanceThread (issue : Option (Fin Config.nThreads × Word)) (s : State) : State :=
  match issue with
  | none => s
  | some (t, _) =>
    { s with threads := s.threads.set t { s.threads[t] with position := s.threads[t].position + 1 }, issuer := t }

/-- The footprint under which an instruction of this spec executes beside others (R90). -/
def instrAction : Instr → Option Action
  | .sfploadmacroBh _ vd _ addrMod imm9 => some (.load (macroLoadOps vd addrMod imm9) true)
  | .sfploadmacroWh _ _ _ _ => none
  | .sfptransp _ _ vd _ => some (.transp (lregOf4 vd))

/-- A regular instruction of this spec: executed, discarded or refused by the priority rule (R88). That the priority rule
is asked before the instruction's own stops, so that an SFPTRANSP with Simple due in some lanes only is refused with
`nonUniformCrossLane` also where `backdoorLoadOpen` applies, is the model's choice (log entry 18): R105 and R113 give no
order between the two. -/
def issueInstr (d : Due) (i : Instr) (s : State) : Out (State × Option Action) :=
  match fate s.params d (instrOp i) false with
  | .execute _ => andThen (exec i s) fun t => .next (t, instrAction i)
  | .discarded => .next (s, none)
  | .refused r => .refused r

/-- The operands a regular SFPLOAD hands to `SFPLOAD_sem` (R6): VD and Mod0 of its record where it has one, and what
else the record gives (log entry 11). -/
def loadOpsOf (i : Insn) : LoadOps :=
  ⟨i.vd, i.mod0.getD (Config.loadOperands i).1, (Config.loadOperands i).2.1, (Config.loadOperands i).2.2⟩

/-- The action of a regular instruction that is neither of the two this spec defines: `SFPLOAD_sem` for SFPLOAD,
`ExecSFPU` for any other (R6). -/
def regularAction (p : Params) (i : Insn) (lanes : LaneMask) : Action :=
  if i.op = .sfpload then .load (loadOpsOf i) false else .run i lanes false (isCrossLane p i.op)

/-- The execution of such an instruction; an SFPLOAD stops where `SFPLOAD_sem` raises (log entry 11). That the distance
of R126 is not asked of a regular SFPLOAD is the model's choice (log entry 12): R126 calls it outside the source. -/
def executeOther (i : Insn) (lanes : LaneMask) (s : State) : Out (State × Option Action) :=
  if i.op = .sfpload ∧ s.loadRaises then .fault .unwrittenRead
  else
    andThen ((regularAction s.params i lanes).perform s.sfpu) fun x =>
      .next (s.withSfpu x, some (regularAction s.params i lanes))

/-- A regular instruction the spec does not define, handed to `ExecSFPU` or `SFPLOAD_sem` (R6, R50, R88). -/
def issueOther (d : Due) (i : Insn) (s : State) : Out (State × Option Action) :=
  match fate s.params d i.op (regularAction s.params i fullMask).writes.isEmpty with
  | .execute lanes => executeOther i lanes s
  | .discarded => .next (s, none)
  | .refused r => .refused r

/-- Step 3 for an issued word: decode, then execute, discard or refuse (R81, R50). -/
def issueWord (d : Due) (w : Word) (s : State) : Out (State × Option Action) :=
  match decode s.params.arch w with
  | .ok i => issueInstr d i s
  | .error .reservedBitsSet => .refused .reservedBitsSet
  | .error .notInScope =>
    match parse w with
    | none => .refused .notInScope
    | some i => issueOther d i s

/-- Step 3. -/
def regularPart (d : Due) (issue : Option (Fin Config.nThreads × Word)) (s : State) : Out (State × Option Action) :=
  match issue with
  | none => .next (s, none)
  | some (_, w) => issueWord d w s

/-- Step 4 and the end of the cycle: the due entries execute beside the regular instruction; `pre` is the unit before
step 3. The order of the stops in it is the model's choice (log entry 18): R113 only says that step 4 and R90 come
last. First the sub-units in order with `nonUniformCrossLane` (R70), then `scheduledReadNotReady` (R91), for a result of
an earlier cycle only (log entry 14), then those of `coexecute`. -/
def scheduledPart (c : CycleInput) (pre : Sfpu) (d : Due) (s : State) (regular : Option Action) : Out State :=
  andThen (dueActions s.params d) fun acts =>
    if readsNotReady s.inFlight acts then .fault .scheduledReadNotReady
    else
      andThen (coexecute s.params.sameCyclePolicy pre regular acts s.sfpu) fun x =>
        .next { s with
          sfpu := x
          inFlight := ageInFlight s.inFlight (regular.toList ++ acts)
          fpuDistance := ageDistances c s.issuer regular s.fpuDistance }

/-- The state that step 3 of a cycle acts on: the due entries gone, the others counted down, the issuing thread moved
on. -/
def beforeRegular (c : CycleInput) (s : State) : State :=
  advanceThread (issueOf c s) (advanceSched (issueOf c s).isSome s)

/-- A cycle on a state whose environment has already acted (R81). -/
def cycleBody (c : CycleInput) (s : State) : Out State :=
  match collision s with
  | some (l, u) => .fault (.scheduleCollision l u)
  | none =>
    andThen (regularPart (dueTable s) (issueOf c s) (beforeRegular c s)) fun r =>
      scheduledPart c (beforeRegular c s).sfpu (dueTable s) r.1 r.2

/-- The environment's input for the coming cycle. -/
def State.nextInput (s : State) : CycleInput := s.inputs.headD CycleInput.idle

/-- The state after the environment has acted in the coming cycle. -/
def State.atCycleStart (s : State) : State := applyInput s.nextInput { s with inputs := s.inputs.tail }

/-- One cycle. A marked state stays as it is and answers with its mark (R23). -/
def cycle (s : State) : Out State :=
  match s.faultMark, s.refusalMark with
  | some f, _ => .fault f
  | none, some r => .refused r
  | none, none => cycleBody s.nextInput s.atCycleStart

/-! ## What the coming cycle does -/

/-- The regular instruction that the coming cycle issues: thread and word. -/
def comingIssue (s : State) : Option (Fin Config.nThreads × Word) := issueOf s.nextInput s.atCycleStart

/-- The state on which the coming cycle's regular instruction acts. -/
def comingState (s : State) : State := beforeRegular s.nextInput s.atCycleStart

/-- Step 3 of the coming cycle. -/
def comingRegular (s : State) : Out (State × Option Action) :=
  regularPart (dueTable s.atCycleStart) (comingIssue s) (comingState s)

/-- The due actions of the coming cycle. -/
def comingDue (s : State) : Out (List Action) := dueActions s.params (dueTable s.atCycleStart)

/-- Whether the coming cycle issues an SFPLOADMACRO. -/
def issuesLoadmacro (s : State) : Bool :=
  match comingIssue s with
  | none => false
  | some (_, w) =>
    match decode s.params.arch w with
    | .ok i => instrOp i == .sfploadmacro
    | .error _ => false

/-- The values of LaneEnabled under which the SFPTRANSPs of a list execute, each action seeing the writes of those before
it. -/
def masksOf : List Action → Sfpu → List LaneMask
  | [], _ => []
  | a :: as, x =>
    (match a with
      | .transp _ => [x.laneEnabled]
      | .load _ _ | .run _ _ _ _ => []) ++
    match a.perform x with
    | .next y => masksOf as y
    | .fault _ | .refused _ => []

/-- The values of LaneEnabled under which SFPTRANSPs, regular or scheduled, execute in the coming cycle. -/
def transpMasks (s : State) : List LaneMask :=
  match comingRegular s, comingDue s with
  | .next (t, regular), .next acts =>
    masksOf regular.toList s.atCycleStart.sfpu ++
      match s.params.sameCyclePolicy with
      | .refuse | .unitOrder => masksOf acts t.sfpu
      | .old => acts.flatMap fun a => masksOf [a] s.atCycleStart.sfpu
  | _, _ => []

/-- A thread whose word at the position is `w`. -/
def Thread.withWord (t : Thread) (w : Word) : Thread :=
  { t with
    words := t.words.take t.position ++ List.replicate (t.position - t.words.length) 0#32 ++
      w :: t.words.drop (t.position + 1) }

/-- `s` with the next cycle's schedule picking thread 0, whose next word is `w`. -/
def State.withNextWord (s : State) (w : Word) : State :=
  { s with
    threads := s.threads.set 0 (s.threads[0].withWord w) (by decide)
    inputs := { s.nextInput with issue := some ⟨0, by decide⟩ } :: s.inputs.tail }

end Sys2Proof.Machine
end

