-- ==== Sys2Proof/Machine/Step.lean ====
section
/-! DEFINITION. Sys2Proof/Machine/Step.lean: the step of the machine, one cycle, and the placing of one word where the
next cycle takes its instruction. -/

namespace Sys2Proof.Machine

/-- One step is one cycle (R80). -/
def step (s : State) : Host.Outcome State Fault Refusal := cycle s

/-- `s` with the word `w` at thread 0's position and the next cycle's schedule picking thread 0 (log entry 7). -/
def State.withFetchWord (s : State) (nbits w : Nat) : State := s.withNextWord (BitVec.ofNat 32 (w % 2 ^ nbits))

end Sys2Proof.Machine
end

