-- ==== Sys2Proof/Safety.lean ====
section
/-! DEFINITION. Sys2Proof/Safety.lean: runs with marks (R23), the end of a run (R92), and the launch premises a claim
may name (R121). -/

namespace Sys2Proof.Machine

/-- Neither mark is set (R121, `NoFaultRecorded`). -/
def State.noFaultRecorded (s : State) : Bool := s.faultMark.isNone && s.refusalMark.isNone

/-- Every `Sched[l][u]` is empty (R121, `NoPendingMacro`). -/
def State.noPendingMacro (s : State) : Bool := lanesAndUnits.all fun lu => (s.queue lu.1 lu.2).isEmpty

/-- All 32 lanes hold the same `LoadMacroConfig` (R121, `ConfigUniform`). -/
def State.configUniform (s : State) : Bool :=
  allLanes.all fun l => decide (s.sfpu.loadMacroConfig[l] = s.sfpu.loadMacroConfig[(0 : Lane)])

/-- The fields that software writes before it uses the two instructions (R14, R18, R122). -/
inductive ConfigField where
  | storeMod0
  | usesLoadMod0ForStore
  | unitDelayKind
  | sequenceEntry (m : Fin 4)
  | instructionTemplate (t : Fin 4)
  | disableBackdoorLoad
  deriving DecidableEq, Repr

/-- A field of lane `l`'s record, or of the unit, as a location. -/
def ConfigField.loc (l : Lane) : ConfigField → Loc
  | .storeMod0 => .storeMod0 l
  | .usesLoadMod0ForStore => .usesLoadMod0ForStore l
  | .unitDelayKind => .unitDelayKind l
  | .sequenceEntry m => .sequenceEntry l m
  | .instructionTemplate t => .instructionTemplate l t
  | .disableBackdoorLoad => .disableBackdoorLoad

/-- The listed fields hold the values stated, in every lane (R121, `ConfigWritten(fields)`). -/
def State.configWritten (s : State) (fields : List (ConfigField × Word)) : Bool :=
  fields.all fun f => allLanes.all fun l => decide (s.sfpu.get (f.1.loc l) = f.2)

/-- In every run, no FPU write to Dst is closer than the distance of R126 when the first SFPLOADMACRO executes, whatever
the FPU writes after it (R121, `DstQuiet`). -/
def State.dstQuiet (s : State) : Prop :=
  ∀ (n : Nat) (t : State), Host.Core.run Sys2Proof.core n s = .next t →
    (∀ k < n, ∀ u, Host.Core.run Sys2Proof.core k s = .next u → issuesLoadmacro u = false) →
    issuesLoadmacro t = true → ∀ d ∈ (comingState t).fpuDistance, 3 ≤ d.2[(comingState t).issuer]

/-- In every run, LaneEnabled equals the mask whenever an SFPTRANSP executes, regular or scheduled, whatever sets it (R121,
`LanesEnabled(mask)`). -/
def State.lanesEnabled (s : State) (mask : LaneMask) : Prop :=
  ∀ (n : Nat) (t : State), Host.Core.run Sys2Proof.core n s = .next t → ∀ m ∈ transpMasks t, m = mask

/-- Every thread's list is exhausted. -/
def State.threadsExhausted (s : State) : Bool :=
  (List.finRange Config.nThreads).all fun t => decide (s.threads[t].words.length ≤ s.threads[t].position)

/-- A run is over: threads exhausted, nothing scheduled, no mark (R92 and the decision D28; a marked state is never
final, R23). -/
def State.isFinal (s : State) : Bool := s.threadsExhausted && s.noPendingMacro && s.noFaultRecorded

/-- What holds of an entry of sub-unit `u`: the sub-unit can take its instruction (R69), `LReg[16]` stands in neither
VB nor VC (R12), and outside Store its destination is `LReg[16]` or a general-purpose register (R65). -/
def Entry.wf (u : SubUnit) (e : Entry) : Prop :=
  u ∈ subUnitOf e.insn.op ∧ e.insn.vb ≠ some lreg16 ∧ e.insn.vc ≠ some lreg16 ∧
    (u ≠ .store → e.insn.vd = lreg16 ∨ e.insn.vd.val < 8)

/-- What holds of `Sched[l][u]`: entries of one kind have different counters (R86), and each entry is well formed. -/
def queueWf (u : SubUnit) (q : List Entry) : Prop :=
  q.Pairwise (fun e e' => e.kind = e'.kind → e.counter ≠ e'.counter) ∧ ∀ e ∈ q, e.wf u

/-- The invariant of the machine: canonical sparse storage, well-formed scheduled entries, no thread past the end of its
list, no result in flight for no more cycles, one distance for each Dst region. -/
def State.Inv (s : State) : Prop :=
  s.sfpu.wf ∧ (∀ l u, queueWf u (s.queue l u)) ∧
    (∀ t : Fin Config.nThreads, s.threads[t].position ≤ s.threads[t].words.length) ∧
    (∀ f ∈ s.inFlight, 0 < f.2) ∧ (s.fpuDistance.map Prod.fst).Nodup

/-- A cycle that records a stop in its mark instead of answering it (R23). -/
def markedStep (s : State) : State :=
  match step s with
  | .next t => t
  | .fault f => { s with faultMark := some f }
  | .refused r => { s with refusalMark := some r }

/-- `n` such cycles. -/
def markedRun : Nat → State → State
  | 0, s => s
  | n + 1, s => markedRun n (markedStep s)

end Sys2Proof.Machine
end

