-- ==== Sys2Proof/Certificates/Slice0/Obligations.lean ====
section
/-! DEFINITION. Sys2Proof/Certificates/Slice0/Obligations.lean: the statements for the provers. Words and addresses are
those of spec/; each docstring names the rule. -/

namespace Sys2Proof.Machine

/-- The instruction a selector chooses, as the table of R63 has it: 2 SFPNOP, 3 SFPSTORE(vd=0) once its fields are
supplied, 4 to 7 the parsed template. -/
def SelectorChooses (p : Params) (c : MacroConfig) (sel : BitVec 3) (i : Insn) : Prop :=
  (sel = 2#3 ∧ i = nopInsn) ∨ (sel = 3#3 ∧ ∃ f, p.sel3StoreFields = some f ∧ i = storeInsn f) ∨
    ∃ t : Fin 4, sel.toNat = t.val + 4 ∧ parse c.instructionTemplate[t] = some i

/-- The mnemonic a selector names; none where the template is no instruction. -/
def SelectorNames (c : MacroConfig) (sel : BitVec 3) (op : Option Mnemonic) : Prop :=
  (sel = 2#3 ∧ op = some .sfpnop) ∨ (sel = 3#3 ∧ op = some .sfpstore) ∨
    ∃ t : Fin 4, sel.toNat = t.val + 4 ∧ op = (parse c.instructionTemplate[t]).map (·.op)

/-- The entries of every queue but those of lane `l` and sub-unit `u` have counters above 0. -/
def NothingElseDue (s : State) (at_ : Lane → SubUnit → Prop) : Prop :=
  ∀ l u, ¬ at_ l u → ∀ e ∈ s.queue l u, e.counter ≠ 0

/-- No entry of any queue has counter 0. -/
def NothingDue (s : State) : Prop := ∀ l u, ∀ e ∈ s.queue l u, e.counter ≠ 0

/-- In no queue are two entries due together. -/
def NoTwoDue (s : State) : Prop := ∀ l u, (dueEntries (s.queue l u)).length ≤ 1

/-- No due entry is a cross-lane instruction. -/
def NoCrossLaneDue (s : State) : Prop :=
  ∀ l u, ∀ e ∈ s.queue l u, e.counter = 0 → isCrossLane s.params e.insn.op = false

/-- `a` is the run, on lane `l` alone, of an entry due on lane `l` and sub-unit `u` (R85). -/
def DueRun (s : State) (l : Lane) (u : SubUnit) (a : Action) : Prop :=
  ∃ e ∈ s.queue l u, e.counter = 0 ∧ a = .run e.insn (laneBit l) true false

/-- Neither mark is set. -/
def Unmarked (s : State) : Prop := s.faultMark = none ∧ s.refusalMark = none

/-- The schedule holds no issue. -/
def NoIssueAhead (s : State) : Prop := ∀ c ∈ s.inputs, c.issue = none

/-- Whether a cycle's regular SFPU instruction is one more unrelated Tensix instruction of a thread (log entry 12): the
thread issued it, it executed, and it does not touch Dst. -/
def CountsForThread (issue : Option (Fin Config.nThreads × Word)) (regular : Option Action)
    (th : Fin Config.nThreads) : Prop :=
  issue.map Prod.fst = some th ∧ ∃ a, regular = some a ∧ a.touchesDst = false

end Sys2Proof.Machine

open Sys2Proof Sys2Proof.Machine

/-! ## Encoding -/

/-- Words written out in the spec's vectors V1, V2 and V2a decode to the instructions they stand for; the last is a
Wormhole word by the field table of R44. -/
def Obligations.SpecWordsDecode : Prop :=
  decode .bh 0x8C000000#32 = .ok (.sfptransp 0#12 0#4 0#4 0#4) ∧
  decode .bh 0x8C0123B4#32 = .ok (.sfptransp 0x012#12 3#4 11#4 4#4) ∧
  decode .wh 0x8CFFFFFF#32 = .ok (.sfptransp 0xFFF#12 15#4 15#4 15#4) ∧
  decode .bh 0x9310C000#32 = .ok (.sfploadmacroBh 0#2 1#3 0#4 6#3 0#9) ∧
  decode .bh 0x93454040#32 = .ok (.sfploadmacroBh 1#2 0#3 5#4 2#3 32#9) ∧
  decode .bh 0x9393E3FF#32 = .ok (.sfploadmacroBh 2#2 5#3 3#4 7#3 511#9) ∧
  decode .bh 0x93EA2155#32 = .ok (.sfploadmacroBh 3#2 6#3 10#4 1#3 170#9) ∧
  decode .bh 0x93000400#32 = .error .reservedBitsSet ∧
  decode .bh 0x93001C00#32 = .error .reservedBitsSet ∧
  decode .bh 0x8D000000#32 = .error .notInScope ∧
  decode .bh 0x92FFFFFF#32 = .error .notInScope ∧
  decode .wh 0x93FFE3FF#32 = .ok (.sfploadmacroWh 15#4 15#4 3#2 0x23FF#14)

/-- Decoding the word of an instruction that the generation has gives the instruction back, with every operand. -/
def Obligations.DecodeOfEncodeIsIdentity : Prop :=
  ∀ (a : Arch) (i : Instr), i.wf a = true → decode a (encode i) = .ok i

/-- Every word the decoder accepts is the word of the instruction it answers, which the generation has: no bit of an
accepted word is dropped. -/
def Obligations.EncodeOfDecodeIsIdentity : Prop :=
  ∀ (a : Arch) (w : Word) (i : Instr), decode a w = .ok i → encode i = w ∧ i.wf a = true

/-- R50: the opcode byte alone selects the instruction; the decoder answers for every word. -/
def Obligations.OpcodeByteSelectsInstruction : Prop :=
  ∀ (a : Arch) (w : Word),
    (w &&& 0xFF000000#32 = 0x8C000000#32 ↔ ∃ i, decode a w = .ok i ∧ instrOp i = .sfptransp) ∧
    (w &&& 0xFF000000#32 = 0x93000000#32 ↔
      (∃ i, decode a w = .ok i ∧ instrOp i = .sfploadmacro) ∨ decode a w = .error .reservedBitsSet) ∧
    (w &&& 0xFF000000#32 ≠ 0x8C000000#32 ∧ w &&& 0xFF000000#32 ≠ 0x93000000#32 ↔ decode a w = .error .notInScope)

/-- R42: the operands of a Blackhole SFPLOADMACRO word, as numbers of its bits. -/
def Obligations.LoadmacroOperandsOfWord : Prop :=
  ∀ w : Word, w.toNat / 2 ^ 24 = 0x93 → w.toNat / 2 ^ 10 % 8 = 0 →
    ∃ macroIndex vd mod0 addrMod imm9, decode .bh w = .ok (.sfploadmacroBh macroIndex vd mod0 addrMod imm9) ∧
      macroIndex.toNat = w.toNat / 2 ^ 22 % 4 ∧
      vd.toNat = (w.toNat % 2) * 4 + w.toNat / 2 ^ 20 % 4 ∧
      mod0.toNat = w.toNat / 2 ^ 16 % 16 ∧
      addrMod.toNat = w.toNat / 2 ^ 13 % 8 ∧
      imm9.toNat = w.toNat / 2 % 512 ∧
      (imm10 imm9 vd).toNat = w.toNat % 1024

/-- R43: a Blackhole word of opcode 0x93 whose bits 12:10 are not zero is refused, whatever is due; one whose bits are
zero is decoded. -/
def Obligations.ReservedBitsRefused : Prop :=
  ∀ w : Word, w.toNat / 2 ^ 24 = 0x93 →
    (w.toNat / 2 ^ 10 % 8 ≠ 0 → ∀ (d : Due) (s : State), s.params.arch = .bh →
      issueWord d w s = .refused .reservedBitsSet) ∧
    (w.toNat / 2 ^ 10 % 8 = 0 → ∃ i, decode .bh w = .ok i)

/-- R44: on Wormhole the four fields are extracted and the instruction is refused, in every state. -/
def Obligations.WormholeFieldsExtractedThenRefused : Prop :=
  ∀ w : Word, w.toNat / 2 ^ 24 = 0x93 →
    ∃ lregInd instrMod0 sfpuAddrMod destRegAddr,
      decode .wh w = .ok (.sfploadmacroWh lregInd instrMod0 sfpuAddrMod destRegAddr) ∧
      lregInd.toNat = w.toNat / 2 ^ 20 % 16 ∧ instrMod0.toNat = w.toNat / 2 ^ 16 % 16 ∧
      sfpuAddrMod.toNat = w.toNat / 2 ^ 14 % 4 ∧ destRegAddr.toNat = w.toNat % 2 ^ 14 ∧
      ∀ s, exec (.sfploadmacroWh lregInd instrMod0 sfpuAddrMod destRegAddr) s = .refused .wormholePacking

/-- R46: the fields of an SFPTRANSP word, and the record it parses to as a template: no Mod0, VB not placed. -/
def Obligations.TranspFieldsAndRecordOfWord : Prop :=
  ∀ w : Word, w.toNat / 2 ^ 24 = 0x8C →
    ∃ (imm12 : BitVec 12) (lregC vd mod1 : BitVec 4),
      (∀ a, decode a w = .ok (.sfptransp imm12 lregC vd mod1)) ∧
      imm12.toNat = w.toNat / 2 ^ 12 % 4096 ∧ lregC.toNat = w.toNat / 2 ^ 8 % 16 ∧
      vd.toNat = w.toNat / 2 ^ 4 % 16 ∧ mod1.toNat = w.toNat % 16 ∧
      ∃ i, parse w = some i ∧ i.op = .sfptransp ∧ i.vb = none ∧ i.vc.map (·.val) = some lregC.toNat ∧
        i.vd.val = vd.toNat ∧ i.mod0 = none ∧ i.rest = .transp mod1 imm12

/-- R45, R48 with R40, R41, R46: the word of a macro call whose arguments fit their fields decodes to those arguments,
and the packing of R42's Syntax gives VD and Imm9 back. -/
def Obligations.MacroCallsAssemble : Prop :=
  (∀ a b c d : Nat, (AsmCall.sfptransp a b c d).wf = true → ∀ arch,
    decode arch (AsmCall.sfptransp a b c d).word =
      .ok (.sfptransp (BitVec.ofNat 12 a) (BitVec.ofNat 4 b) (BitVec.ofNat 4 c) (BitVec.ofNat 4 d))) ∧
  (∀ m vd mod0 am imm9 : Nat, m < 4 → vd < 8 → mod0 < 16 → am < 8 → imm9 < 512 →
    (packLoadmacro m vd mod0 am imm9).wf = true ∧
    decode .bh (packLoadmacro m vd mod0 am imm9).word =
      .ok (.sfploadmacroBh (BitVec.ofNat 2 m) (BitVec.ofNat 3 vd) (BitVec.ofNat 4 mod0) (BitVec.ofNat 3 am)
        (BitVec.ofNat 9 imm9)))

/-! ## SFPTRANSP -/

/-- R101: under the guard SFPTRANSP completes; each lane of `LReg[0..7]` that is enabled takes the lane across the
transpose, every other lane keeps its contents, and nothing else of the state changes (`LReg[8..16]`, LaneEnabled, the
configuration, every Dst element, `Sched`). -/
def Obligations.TransposeAssignsSimultaneously : Prop :=
  ∀ (imm12 : BitVec 12) (lregC vd mod1 : BitVec 4) (s : State),
    vd.toNat < 12 ∨ s.sfpu.disableBackdoorLoad = true →
    ∃ t, exec (.sfptransp imm12 lregC vd mod1) s = .next t ∧
      (∀ (second : Bool) (i j : Fin 4) (c : Fin 8),
        t.sfpu.lreg[groupReg second i][laneAt j c] =
          if s.sfpu.laneEnabled.getLsbD (laneAt j c).val then s.sfpu.lreg[groupReg second j][laneAt i c]
          else s.sfpu.lreg[groupReg second i][laneAt j c]) ∧
      (∀ r : LRegNum, 8 ≤ r.val → t.sfpu.lreg[r] = s.sfpu.lreg[r]) ∧
      t = { s with sfpu := { s.sfpu with lreg := t.sfpu.lreg } }

/-- R101: the source's loop nest, `Transpose4(0)` then `Transpose4(4)` with its guarded assignments one after the other,
computes the simultaneous assignment. -/
def Obligations.LoopNestIsSimultaneousAssignment : Prop :=
  ∀ (enabled : Lane → Bool) (f : LRegFile), transposeLoops enabled f = transposeRegs enabled f

/-- R106: the emulator's shortcut is the case in which every lane is enabled, and is not the rule. -/
def Obligations.EmulatorIsTheUnmaskedCase : Prop :=
  (∀ f : LRegFile, emulateSfptransp f = transposeRegs (fun _ => true) f) ∧
  ∃ (enabled : Lane → Bool) (f : LRegFile), emulateSfptransp f ≠ transposeRegs enabled f

/-- R102: the guard, for a regular SFPTRANSP (VD up to 15) and for one with VD = 16 by override: the transposes happen,
or the instruction is refused. -/
def Obligations.TranspGuardDecides : Prop :=
  (∀ (imm12 : BitVec 12) (lregC vd mod1 : BitVec 4) (s : State),
    (vd.toNat < 12 ∨ s.sfpu.disableBackdoorLoad = true →
      exec (.sfptransp imm12 lregC vd mod1) s =
        .next (s.withSfpu { s.sfpu with lreg := transposeRegs s.sfpu.laneIsEnabled s.sfpu.lreg })) ∧
    (12 ≤ vd.toNat → s.sfpu.disableBackdoorLoad = false →
      exec (.sfptransp imm12 lregC vd mod1) s = .refused .backdoorLoadOpen)) ∧
  (∀ (vd : LRegNum) (x : Sfpu),
    (vd.val < 12 ∨ x.disableBackdoorLoad = true →
      (Action.transp vd).perform x = .next { x with lreg := transposeRegs x.laneIsEnabled x.lreg }) ∧
    (12 ≤ vd.val → x.disableBackdoorLoad = false → (Action.transp vd).perform x = .refused .backdoorLoadOpen))

/-- R47: imm12_math, lreg_c and instr_mod1 are ignored. -/
def Obligations.TranspIgnoresOtherFields : Prop :=
  ∀ (a a' : BitVec 12) (c c' vd m m' : BitVec 4) (s : State),
    exec (.sfptransp a c vd m) s = exec (.sfptransp a' c' vd m') s

/-- R105: with all 32 lanes enabled and the guard true, two SFPTRANSPs restore the state. -/
def Obligations.TwoTransposesRestore : Prop :=
  ∀ (a a' : BitVec 12) (c c' vd vd' m m' : BitVec 4) (s : State),
    (vd.toNat < 12 ∧ vd'.toNat < 12) ∨ s.sfpu.disableBackdoorLoad = true →
    (∀ l : Lane, s.sfpu.laneEnabled.getLsbD l.val = true) →
    ∃ t, exec (.sfptransp a c vd m) s = .next t ∧ exec (.sfptransp a' c' vd' m') t = .next s

/-- R103, R105: the two groups never exchange values and no value changes column: a lane's new contents depend on the
same group and the same column only. -/
def Obligations.TransposeKeepsGroupsAndColumnsApart : Prop :=
  ∀ (enabled : Lane → Bool) (f g : LRegFile) (second : Bool) (c : Fin 8),
    (∀ i j : Fin 4, f[groupReg second i][laneAt j c] = g[groupReg second i][laneAt j c]) →
    ∀ i j : Fin 4, (transposeRegs enabled f)[groupReg second i][laneAt j c] =
      (transposeRegs enabled g)[groupReg second i][laneAt j c]

/-- R70, R104: an SFPTRANSP due on Simple in all 32 lanes with equal entries, alone in its cycle, transposes as a
regular one does, at the LaneEnabled of that cycle; any other instruction that `ExecSFPU` declares cross-lane executes
once, on all lanes together. With entries that are not equal, or due in some lanes only, the row is refused, and so is
the cycle, where nothing before step 4 stops it. That the flag belongs to the mnemonic is log entry 21; that no other stop
of step 4 comes before this refusal is log entry 18. -/
def Obligations.ScheduledTranspNeedsUniformLanes : Prop :=
  (∀ (s : State) (e : Entry), Unmarked s → comingIssue s = none → e.insn.op = .sfptransp →
    (∀ l, dueEntries (s.queue l .simple) = [e]) → NothingElseDue s (fun _ u => u = .simple) →
    s.inFlight = [] → s.sfpu.wf → e.insn.vd.val < 12 ∨ s.sfpu.disableBackdoorLoad = true →
    ∃ t, step s = .next t ∧
      t.sfpu = { s.atCycleStart.sfpu with
        lreg := transposeRegs s.atCycleStart.sfpu.laneIsEnabled s.sfpu.lreg } ∧
      ∀ l, ∀ e' ∈ t.queue l .simple, ∃ e0 ∈ s.queue l .simple, e0.counter ≠ 0 ∧ e0.insn = e'.insn) ∧
  (∀ (s : State) (e : Entry) (u : SubUnit), Unmarked s → comingIssue s = none → e.insn.op ≠ .sfptransp →
    isCrossLane s.params e.insn.op = true → (∀ l, dueEntries (s.queue l u) = [e]) →
    NothingElseDue s (fun _ u' => u' = u) → s.inFlight = [] → s.sfpu.wf →
    ∃ t, step s = .next t ∧ t.sfpu = execOther e.insn fullMask true true s.atCycleStart.sfpu ∧
      ∀ l u', t.queue l u' = (pendingEntries (s.queue l u')).map (Entry.countDown false)) ∧
  (∀ (p : Params) (d : Due) (u : SubUnit) (l : Lane) (e : Entry), d.at l u = some e →
    isCrossLane p e.insn.op = true → (∃ l', d.at l' u ≠ some e) →
    rowActions p d u = .refused .nonUniformCrossLane) ∧
  (∀ (s s3 : State) (reg : Option Action) (u : SubUnit) (l l' : Lane) (e : Entry), Unmarked s → NoTwoDue s →
    comingRegular s = .next (s3, reg) → dueEntries (s.queue l u) = [e] → isCrossLane s.params e.insn.op = true →
    dueEntries (s.queue l' u) ≠ [e] → step s = .refused .nonUniformCrossLane)

/-! ## SFPLOADMACRO -/

/-- R60 to R68: where no hazard holds, the load does not raise, and every field that schedules something names an
instruction its sub-unit can take, a Blackhole SFPLOADMACRO completes. The unit is SFPLOAD_sem of the unit before:
`LReg[VD]` takes the load's values (a lane the load leaves keeps its own), `LReg[8..16]`, LaneEnabled, `LoadMacroConfig`
and whatever else is not in the load's write footprint stay. A field with selector 0 leaves its queue as it is; any other field's
queue forgets and then holds the chosen instruction with its overrides, the field's delay and the sub-unit's kind.
Nothing else changes. That SFPLOAD_sem acts on the unit only, through a list of locations, is log entry 11 (DEDUCED);
that `LReg[8..16]`, LaneEnabled and `LoadMacroConfig` are not among them is log entry 10 (DEDUCED). -/
def Obligations.LoadmacroCompletes : Prop :=
  ∀ (m : BitVec 2) (vd : BitVec 3) (mod0 : BitVec 4) (am : BitVec 3) (imm9 : BitVec 9) (s : State),
    (∀ d ∈ s.fpuDistance, Config.loadReadsRegion am (imm10 imm9 vd) s.sfpu.addrCounters d.1 = true →
      3 ≤ d.2[s.issuer]) →
    s.loadRaises = false →
    (∀ (l : Lane) (u : SubUnit), seqSelector (s.sfpu.loadMacroConfig[l].field m u) = 0#3 ∨
      ∃ i, SelectorChooses s.params s.sfpu.loadMacroConfig[l] (seqSelector (s.sfpu.loadMacroConfig[l].field m u)) i ∧
        u ∈ subUnitOf i.op) →
    ∃ t, exec (.sfploadmacroBh m vd mod0 am imm9) s = .next t ∧
      t.sfpu = loadSem (macroLoadOps vd am imm9) s.sfpu ∧
      (∀ l : Lane, t.sfpu.lreg[lregOf3 vd][l] =
        (loadValue (macroLoadOps vd am imm9) s.sfpu (.lreg (lregOf3 vd) l)).getD s.sfpu.lreg[lregOf3 vd][l]) ∧
      (∀ loc ∉ loadWrites (macroLoadOps vd am imm9), t.sfpu.get loc = s.sfpu.get loc) ∧
      (∀ r : LRegNum, 8 ≤ r.val → t.sfpu.lreg[r] = s.sfpu.lreg[r]) ∧
      t.sfpu.laneEnabled = s.sfpu.laneEnabled ∧
      t.sfpu.loadMacroConfig = s.sfpu.loadMacroConfig ∧
      (∀ (l : Lane) (u : SubUnit),
        (seqSelector (s.sfpu.loadMacroConfig[l].field m u) = 0#3 → t.queue l u = s.queue l u) ∧
        (∀ i, SelectorChooses s.params s.sfpu.loadMacroConfig[l] (seqSelector (s.sfpu.loadMacroConfig[l].field m u)) i →
          t.queue l u = forgetAndSchedule (s.queue l u)
            ⟨overrides s.sfpu.loadMacroConfig[l] u (s.sfpu.loadMacroConfig[l].field m u) m vd mod0 i,
              seqDelay (s.sfpu.loadMacroConfig[l].field m u), s.sfpu.loadMacroConfig[l].delayKind u⟩)) ∧
      t = { s with sfpu := t.sfpu, sched := t.sched }

/-- R61: what the word's SFPLOADMACRO does to the unit is SFPLOAD_sem with destination VD, Mod0 = 0, the word's AddrMod
and the address in bits 9:0 of the word: each lane of `LReg[VD]` takes the load's value, computed from what the load
reads before the instruction, or keeps its own; what the load does not write stays, `LReg[8..16]` and LaneEnabled among
it. R71: where SFPLOAD_sem raises and no Dst hazard comes first, the instruction faults. That the load acts through lists
of locations, and that it raises UnwrittenRead where the environment says so, is log entry 11; that it neither reads nor
writes `LReg[8..16]` and does not write LaneEnabled is log entry 10. -/
def Obligations.LoadPartOperandsAndDestination : Prop :=
  ∀ (w : Word) (m : BitVec 2) (vd : BitVec 3) (mod0 : BitVec 4) (am : BitVec 3) (imm9 : BitVec 9) (s : State)
    (ops : LoadOps), decode .bh w = .ok (.sfploadmacroBh m vd mod0 am imm9) →
    ops.vd.val = vd.toNat → ops.mod0 = 0#4 → ops.addrMod = am → ops.imm10 = w.extractLsb' 0 10 →
    (∀ t, exec (.sfploadmacroBh m vd mod0 am imm9) s = .next t →
      t.sfpu = loadSem ops s.sfpu ∧
      ∃ vals : List Word, vals = ((Config.loadReads ops).filter fun loc => !loc.isHighLreg).map s.sfpu.get ∧
        (∀ (r : LRegNum) (l : Lane), r.val = vd.toNat →
          t.sfpu.lreg[r][l] = (Config.sfpload ops vals (.lreg r l)).getD s.sfpu.lreg[r][l]) ∧
        (∀ loc : Loc, (∀ l, loc ≠ .lreg ops.vd l) →
          loc ∉ Config.loadWrites ops ∨ loc.isHighLreg = true ∨ loc.isLaneEnabled = true →
          t.sfpu.get loc = s.sfpu.get loc)) ∧
    (s.loadRaises = true → dstHazard s am (imm10 imm9 vd) = false →
      exec (.sfploadmacroBh m vd mod0 am imm9) s = .fault .unwrittenRead)

/-- R72, R63: with all selectors 0 in every lane the instruction is exactly the load, where the load does not raise. -/
def Obligations.SelectorZeroEverywhereIsJustTheLoad : Prop :=
  ∀ (m : BitVec 2) (vd : BitVec 3) (mod0 : BitVec 4) (am : BitVec 3) (imm9 : BitVec 9) (s : State),
    (∀ d ∈ s.fpuDistance, 3 ≤ d.2[s.issuer]) → s.loadRaises = false →
    (∀ (l : Lane) (u : SubUnit), seqSelector (s.sfpu.loadMacroConfig[l].field m u) = 0#3) →
    exec (.sfploadmacroBh m vd mod0 am imm9) s = .next (s.withSfpu (loadSem (macroLoadOps vd am imm9) s.sfpu))

/-- R64: selector 1 in any of the four fields of `Sequence[MacroIndex]`, in any lane, is undefined: the instruction
never completes, and where no field before it (lane by lane, sub-units in order) stops, the fault names its lane and
sub-unit. -/
def Obligations.SelectorOneFaults : Prop :=
  ∀ (m : BitVec 2) (vd : BitVec 3) (mod0 : BitVec 4) (am : BitVec 3) (imm9 : BitVec 9) (s : State) (l : Lane)
    (u : SubUnit), seqSelector (s.sfpu.loadMacroConfig[l].field m u) = 1#3 →
    (∀ t, exec (.sfploadmacroBh m vd mod0 am imm9) s ≠ .next t) ∧
    (dstHazard s am (imm10 imm9 vd) = false → s.loadRaises = false → ∀ before after, lanesAndUnits = before ++ (l, u) :: after →
      (∀ p ∈ before, ∃ o, buildEntry s.params s.sfpu.loadMacroConfig[p.1] m vd mod0 p.1 p.2 = .next o) →
      exec (.sfploadmacroBh m vd mod0 am imm9) s = .fault (.undefinedSelector l u))

/-- R69: a field that selects an instruction not in its sub-unit's row faults, naming lane, sub-unit and mnemonic. That a
template that is no instruction faults so too, with no mnemonic, is log entry 13 (DEDUCED); that selector 3 outside Store
faults so even while SEL3_STORE_FIELDS is not supplied is log entry 18 (DESIGN CHOICE). -/
def Obligations.IneligibleFaults : Prop :=
  ∀ (m : BitVec 2) (vd : BitVec 3) (mod0 : BitVec 4) (am : BitVec 3) (imm9 : BitVec 9) (s : State) (l : Lane)
    (u : SubUnit) (op : Option Mnemonic),
    SelectorNames s.sfpu.loadMacroConfig[l] (seqSelector (s.sfpu.loadMacroConfig[l].field m u)) op →
    (∀ o, op = some o → u ∉ subUnitOf o) →
    (∀ t, exec (.sfploadmacroBh m vd mod0 am imm9) s ≠ .next t) ∧
    (dstHazard s am (imm10 imm9 vd) = false → s.loadRaises = false → ∀ before after, lanesAndUnits = before ++ (l, u) :: after →
      (∀ p ∈ before, ∃ o, buildEntry s.params s.sfpu.loadMacroConfig[p.1] m vd mod0 p.1 p.2 = .next o) →
      exec (.sfploadmacroBh m vd mod0 am imm9) s = .fault (.ineligibleForSubUnit l u op))

/-- R65: on Simple, MAD and Round exactly one of VB and VC takes the macro's VD, and the destination is `LReg[16]` or
`LReg[VD]`; every other field of the chosen instruction stays. That Mod0 is among them is the spec's decision D15. -/
def Obligations.ComputeOverridesReplaceOneSource : Prop :=
  ∀ (m : BitVec 2) (vd : BitVec 3) (mod0 : BitVec 4) (am : BitVec 3) (imm9 : BitVec 9) (s t : State) (l : Lane)
    (u : SubUnit) (i : Insn) (b : BitVec 8), exec (.sfploadmacroBh m vd mod0 am imm9) s = .next t → u ≠ .store →
    b = s.sfpu.loadMacroConfig[l].field m u →
    SelectorChooses s.params s.sfpu.loadMacroConfig[l] (seqSelector b) i →
    ∃ e ∈ t.queue l u, ∃ r : LRegNum, r.val = vd.toNat ∧
      e.insn.vb = (if b.getLsbD 7 then some r else i.vb) ∧
      e.insn.vc = (if b.getLsbD 7 then i.vc else some r) ∧
      e.insn.vd = (if b.getLsbD 6 then 16 else r) ∧
      e.insn.op = i.op ∧ e.insn.mod0 = i.mod0 ∧ e.insn.rest = i.rest ∧ e.counter = seqDelay b

/-- R66: the register of a scheduled store: bit 6 wins over bit 7; VB and VC stay. -/
def Obligations.StoreRegisterOverride : Prop :=
  ∀ (m : BitVec 2) (vd : BitVec 3) (mod0 : BitVec 4) (am : BitVec 3) (imm9 : BitVec 9) (s t : State) (l : Lane)
    (i : Insn) (b : BitVec 8), exec (.sfploadmacroBh m vd mod0 am imm9) s = .next t →
    b = s.sfpu.loadMacroConfig[l].field m .store →
    SelectorChooses s.params s.sfpu.loadMacroConfig[l] (seqSelector b) i →
    ∃ e ∈ t.queue l .store, ∃ r : LRegNum, r.val = vd.toNat ∧
      (b.getLsbD 6 = true → e.insn.vd = 16) ∧
      (b.getLsbD 6 = false → b.getLsbD 7 = false → e.insn.vd = r) ∧
      (b.getLsbD 6 = false → b.getLsbD 7 = true → e.insn.vd = i.vd) ∧
      e.insn.vb = i.vb ∧ e.insn.vc = i.vc ∧ e.insn.op = i.op ∧ e.insn.rest = i.rest ∧ e.counter = seqDelay b

/-- R67: a scheduled store's Mod0 is the instruction's or `Misc.StoreMod0`, by the macro's bit of
`UsesLoadMod0ForStore`, never its own; the other sub-units' instructions keep theirs. -/
def Obligations.StoreMod0Override : Prop :=
  ∀ (m : BitVec 2) (vd : BitVec 3) (mod0 : BitVec 4) (am : BitVec 3) (imm9 : BitVec 9) (s t : State) (l : Lane)
    (u : SubUnit) (i : Insn), exec (.sfploadmacroBh m vd mod0 am imm9) s = .next t →
    SelectorChooses s.params s.sfpu.loadMacroConfig[l] (seqSelector (s.sfpu.loadMacroConfig[l].field m u)) i →
    ∃ e ∈ t.queue l u, e.insn.op = i.op ∧ e.counter = seqDelay (s.sfpu.loadMacroConfig[l].field m u) ∧
      (u = .store →
        e.insn.mod0 = some (if s.sfpu.loadMacroConfig[l].misc.usesLoadMod0ForStore.getLsbD m.toNat then mod0
          else s.sfpu.loadMacroConfig[l].misc.storeMod0)) ∧
      (u ≠ .store → e.insn.mod0 = i.mod0)

/-- R68: for a field whose selector is not 0, the older entries at the delay's slot are forgotten unless the delay is
7, every other older entry stays, and one new entry is added with the chosen instruction and its overrides, the field's
delay and the kind of the sub-unit's bit of `UnitDelayKind`. -/
def Obligations.ForgetThenSchedule : Prop :=
  ∀ (m : BitVec 2) (vd : BitVec 3) (mod0 : BitVec 4) (am : BitVec 3) (imm9 : BitVec 9) (s t : State) (l : Lane)
    (u : SubUnit) (b : BitVec 8), exec (.sfploadmacroBh m vd mod0 am imm9) s = .next t →
    b = s.sfpu.loadMacroConfig[l].field m u → seqSelector b ≠ 0#3 →
    ∃ e : Entry, e.counter = seqDelay b ∧
      (e.kind = .instructions ↔ s.sfpu.loadMacroConfig[l].misc.unitDelayKind.getLsbD u.number.val = true) ∧
      (∃ i, SelectorChooses s.params s.sfpu.loadMacroConfig[l] (seqSelector b) i ∧
        e.insn = overrides s.sfpu.loadMacroConfig[l] u b m vd mod0 i) ∧
      ∀ e' : Entry, e' ∈ t.queue l u ↔
        e' = e ∨ (e' ∈ s.queue l u ∧ (seqDelay b = 7 ∨ e'.counter ≠ seqDelay b))

/-- R63 and the decision D14: selector 3 on Store is refused while SEL3_STORE_FIELDS is not supplied, and schedules
SFPSTORE(vd=0) with the supplied fields once it is. -/
def Obligations.SelectorThreeNeedsItsFields : Prop :=
  ∀ (p : Params) (c : MacroConfig) (l : Lane),
    (p.sel3StoreFields = none → selectInsn p c l .store 3#3 = .refused .sel3FieldsOpen) ∧
    (∀ f, p.sel3StoreFields = some f → selectInsn p c l .store 3#3 = .next (some (storeInsn f)))

/-- R126: an SFPLOADMACRO faults with DstHazard exactly where its load reads a region that the FPU wrote fewer than 3
Tensix instructions ago. That only the instructions of the thread that issues it count, that a write in its own cycle is
among them, because it lands at the start of the cycle, and that the region read is a free value, is the model's choice
(log entry 12; D25 leaves it to the model). Under the premise DstQuiet (R121) the first SFPLOADMACRO of a run never
faults so. -/
def Obligations.DstHazardFaults : Prop :=
  (∀ (m : BitVec 2) (vd : BitVec 3) (mod0 : BitVec 4) (am : BitVec 3) (imm9 : BitVec 9) (s : State),
    exec (.sfploadmacroBh m vd mod0 am imm9) s = .fault .dstHazard ↔
      ∃ d ∈ s.fpuDistance, d.2[s.issuer] < 3 ∧
        Config.loadReadsRegion am (imm10 imm9 vd) s.sfpu.addrCounters d.1 = true) ∧
  (∀ (m : BitVec 2) (vd : BitVec 3) (mod0 : BitVec 4) (am : BitVec 3) (imm9 : BitVec 9) (s : State)
    (th : Fin Config.nThreads) (w : Word), Unmarked s → (∀ l u, (dueEntries (s.queue l u)).length ≤ 1) →
    comingIssue s = some (th, w) → decode s.params.arch w = .ok (.sfploadmacroBh m vd mod0 am imm9) →
    (step s = .fault .dstHazard ↔
      (∃ wr ∈ s.nextInput.fpuWrites,
        Config.loadReadsRegion am (imm10 imm9 vd) s.sfpu.addrCounters wr.region = true) ∨
      ∃ d ∈ s.fpuDistance, d.2[th] < 3 ∧
        Config.loadReadsRegion am (imm10 imm9 vd) s.sfpu.addrCounters d.1 = true)) ∧
  (∀ (s t : State) (n : Nat), s.dstQuiet → Host.Core.run Sys2Proof.core n s = .next t → Unmarked t →
    (∀ k < n, ∀ u, Host.Core.run Sys2Proof.core k s = .next u → issuesLoadmacro u = false) →
    issuesLoadmacro t = true → step t ≠ .fault .dstHazard)

/-- R21, R62: building and scheduling reads no LaneEnabled bit, no LReg and no Dst element. That the instruction completes
with others of them says besides that its load neither raises nor meets a Dst hazard there, which R21 leaves to the load
itself: that raising is the environment's word is log entry 11, that the region a load reads depends on its operands and
the address counters only is log entry 12. -/
def Obligations.SchedulingIgnoresLanesAndData : Prop :=
  ∀ (m : BitVec 2) (vd : BitVec 3) (mod0 : BitVec 4) (am : BitVec 3) (imm9 : BitVec 9) (s t : State) (mask : LaneMask)
    (regs : LRegFile) (dst : Memory), exec (.sfploadmacroBh m vd mod0 am imm9) s = .next t →
    ∃ t', exec (.sfploadmacroBh m vd mod0 am imm9)
        (s.withSfpu { s.sfpu with laneEnabled := mask, lreg := regs, dst := dst }) = .next t' ∧
      ∀ l u, t'.queue l u = t.queue l u

/-! ## The cycle -/

/-- R80, R81: a cycle runs the decoded instruction. With nothing due it is `exec` on the state whose entries have
counted down and whose thread has moved on, followed by the bookkeeping of results in flight and FPU distances; with
entries due, `exec` (or, if the priority rule discards the instruction, nothing) is followed by their execution. -/
def Obligations.StepRunsDecodedInstruction : Prop :=
  ∀ (s : State) (th : Fin Config.nThreads) (w : Word) (i : Instr), Unmarked s → comingIssue s = some (th, w) →
    decode s.params.arch w = .ok i →
    (NothingDue s →
      step s = andThen (exec i (comingState s)) fun t =>
        .next { t with
          inFlight := ageInFlight t.inFlight (instrAction i).toList
          fpuDistance := ageDistances s.nextInput th (instrAction i) t.fpuDistance }) ∧
    (collision s.atCycleStart = none →
      (∀ lanes, fate s.params (dueTable s.atCycleStart) (instrOp i) false = .execute lanes →
        step s = andThen (exec i (comingState s)) fun t =>
          scheduledPart s.nextInput s.atCycleStart.sfpu (dueTable s.atCycleStart) t (instrAction i)) ∧
      (fate s.params (dueTable s.atCycleStart) (instrOp i) false = .discarded →
        step s = scheduledPart s.nextInput s.atCycleStart.sfpu (dueTable s.atCycleStart) (comingState s) none))

/-- R80, R92: a cycle without an issue in which nothing is due completes; the LRegs and the configuration stay. -/
def Obligations.IdleCycleCompletes : Prop :=
  ∀ s : State, Unmarked s → comingIssue s = none → NothingDue s →
    ∃ t, step s = .next t ∧ t.sfpu = s.atCycleStart.sfpu ∧ t.threads = s.threads ∧
      ∀ l u, t.queue l u = (s.queue l u).map (Entry.countDown false)

/-- R82: what a cycle leaves in `Sched`: the entries that were not due, counted down, kind Cycles always and kind
Instructions when an instruction issues; an entry that an SFPLOADMACRO of the same cycle adds has its whole delay. -/
def Obligations.SchedAfterStep : Prop :=
  (∀ (s t : State), step s = .next t → ∀ (l : Lane) (u : SubUnit), ∃ o : Option Entry,
    t.queue l u =
      queueAfter ((pendingEntries (s.queue l u)).map (Entry.countDown (comingIssue s).isSome)) o ∧
    (∀ e, o = some e → ∃ th w m vd mod0 am imm9, comingIssue s = some (th, w) ∧
      decode s.params.arch w = .ok (.sfploadmacroBh m vd mod0 am imm9) ∧
      buildEntry s.params s.sfpu.loadMacroConfig[l] m vd mod0 l u = .next (some e) ∧
      e.counter = seqDelay (s.sfpu.loadMacroConfig[l].field m u))) ∧
  (∀ (issued : Bool) (e : Entry), e.counter ≠ 0 →
    (e.countDown issued).insn = e.insn ∧ (e.countDown issued).kind = e.kind ∧
    (e.kind = .cycles ∨ issued = true → (e.countDown issued).counter.val + 1 = e.counter.val) ∧
    (e.kind = .instructions → issued = false → (e.countDown issued).counter = e.counter))

/-- R87: two entries of one lane and sub-unit due together fault; the fault names a lane and sub-unit where that is so.
In a state that meets the invariant they are of different kinds. -/
def Obligations.CollisionFaults : Prop :=
  ∀ (s : State) (l : Lane) (u : SubUnit) (e e' : Entry), Unmarked s → e ∈ s.queue l u → e' ∈ s.queue l u → e ≠ e' →
    e.counter = 0 → e'.counter = 0 →
    (∃ l' u', step s = .fault (.scheduleCollision l' u') ∧ 1 < (dueEntries (s.queue l' u')).length) ∧
    (s.Inv → e.kind ≠ e'.kind)

/-- R88, R105: a regular SFPTRANSP is discarded if an entry is due on Simple in every lane, executes if none is, and is
refused if some lanes have one and others not. That this refusal comes before BackdoorLoadOpen, where both apply, is the
model's choice (log entry 18). -/
def Obligations.TranspPriority : Prop :=
  ∀ (d : Due) (w : Word) (s : State), opcodeByte w = 0x8C#8 →
    ((∀ l, (d.at l .simple).isSome = true) → issueWord d w s = .next (s, none)) ∧
    ((∀ l, d.at l .simple = none) → issueWord d w s =
      andThen (exec (decodeTransp w) s) fun t => .next (t, some (.transp (lregOf4 (w.extractLsb' 4 4))))) ∧
    ((∃ l, (d.at l .simple).isSome = true) → (∃ l, d.at l .simple = none) →
      issueWord d w s = .refused .nonUniformCrossLane)

/-- R71, R88: an SFPLOADMACRO is never discarded, whatever is due. -/
def Obligations.LoadmacroNeverDiscarded : Prop :=
  ∀ (d : Due) (w : Word) (s : State) (i : Instr), decode s.params.arch w = .ok i → instrOp i = .sfploadmacro →
    issueWord d w s = andThen (exec i s) fun t => .next (t, instrAction i)

/-- R88: a regular instruction of one row of the table executes on exactly the lanes in which no entry is due on its
sub-unit, and is discarded, with no effect, if one is due in every lane; what belongs to a lane in which one is due
(log entry 21) is not changed by it. A cross-lane one that would lose some lanes and keep others is refused. -/
def Obligations.SingleRowInstructionLosesDueLanes : Prop :=
  ∀ (d : Due) (s : State) (i : Insn) (u : SubUnit) (cr : Bool), subUnitOf i.op = [u] → cr = isCrossLane s.params i.op →
    ((∀ l, (d.at l u).isSome = true) → issueOther d i s = .next (s, none)) ∧
    ((∃ l, d.at l u = none) → cr = false ∨ (∀ l, d.at l u = none) →
      ∃ (lanes : LaneMask) (x : Sfpu), (∀ l : Lane, lanes.getLsbD l.val = (d.at l u).isNone) ∧
        x = execOther i lanes false cr s.sfpu ∧
        issueOther d i s = .next (s.withSfpu x, some (.run i lanes false cr)) ∧
        ∀ (l : Lane) (loc : Loc), (d.at l u).isSome = true → loc.lane? = some l → x.get loc = s.sfpu.get loc) ∧
    ((∃ l, (d.at l u).isSome = true) → (∃ l, d.at l u = none) → cr = true →
      issueOther d i s = .refused .nonUniformCrossLane)

/-- R88: what becomes of the regular instructions of no single row while an entry is due: SFPLOAD executes; an instruction
in no row is refused; SFPNOP executes if no entry is due on one of its rows, or if it is the identity, and is refused
otherwise. That a regular SFPLOAD faults with UnwrittenRead where the environment says that SFPLOAD_sem raises is log
entry 11 (DEDUCED; R71 speaks of SFPLOADMACRO only); that the identity is an empty write footprint is log entry 16 (DESIGN
CHOICE). -/
def Obligations.UnplacedInstructionsWhileDue : Prop :=
  ∀ (d : Due) (s : State) (i : Insn) (l : Lane) (u : SubUnit) (a : Action) (ran : Out (State × Option Action)),
    (d.at l u).isSome = true → a = .run i fullMask false (isCrossLane s.params i.op) →
    ran = .next (s.withSfpu (execOther i fullMask false (isCrossLane s.params i.op) s.sfpu), some a) →
    (i.op = .sfpload →
      (s.loadRaises = false →
        issueOther d i s = .next (s.withSfpu (loadSem (loadOpsOf i) s.sfpu), some (.load (loadOpsOf i) false))) ∧
      (s.loadRaises = true → issueOther d i s = .fault .unwrittenRead)) ∧
    (subUnitOf i.op = [] → i.op ≠ .sfpload → i.op ≠ .sfploadmacro → issueOther d i s = .refused .unknownSubUnit) ∧
    (i.op = .sfpnop → (∀ l' u', u' ≠ .store → d.at l' u' = none) → issueOther d i s = ran) ∧
    (i.op = .sfpnop → u ≠ .store →
      issueOther d i s = if a.writes = [] then ran else .refused .unknownSubUnit)

/-- R50, R6: a word that is neither instruction goes to `parse`, and is refused where `parse` does not know it; with
nothing due it executes on all lanes, by SFPLOAD_sem where it is SFPLOAD and by `ExecSFPU` otherwise. That a regular
SFPLOAD faults with UnwrittenRead where the environment says that SFPLOAD_sem raises is log entry 11 (DEDUCED). -/
def Obligations.OtherWordsGoToParse : Prop :=
  ∀ (d : Due) (w : Word) (s : State), decode s.params.arch w = .error .notInScope → (∀ l u, d.at l u = none) →
    issueWord d w s =
      match parse w with
      | none => .refused .notInScope
      | some i =>
        if i.op = .sfpload then
          if s.loadRaises then .fault .unwrittenRead
          else .next (s.withSfpu (loadSem (loadOpsOf i) s.sfpu), some (.load (loadOpsOf i) false))
        else
          .next (s.withSfpu (execOther i fullMask false (isCrossLane s.params i.op) s.sfpu),
            some (.run i fullMask false (isCrossLane s.params i.op)))

/-- R85, R70: an entry that is due alone executes on its own lane, with the state of its cycle, and is gone; nothing
outside its write footprint changes in the registers and the configuration, and nothing that belongs to another lane
(what belongs to a lane: log entry 21). Of the entries due on one sub-unit, none of them cross-lane, each acts exactly
once, on its own lane; a cycle's due actions are those of Simple, MAD, Round and Store, one row after the other; and where
no two of a cycle's actions conflict (R90), whatever issues and whatever the policy, each due entry does on its lane what
it does alone, and nothing else changes in step 4. -/
def Obligations.DueEntryExecutesOnItsLane : Prop :=
  (∀ (s : State) (l : Lane) (u : SubUnit) (e : Entry), Unmarked s → comingIssue s = none →
    dueEntries (s.queue l u) = [e] → NothingElseDue s (fun l' u' => l' = l ∧ u' = u) →
    isCrossLane s.params e.insn.op = false → s.inFlight = [] → s.atCycleStart.sfpu.wf →
    ∃ t, step s = .next t ∧ t.sfpu = execOther e.insn (laneBit l) true false s.atCycleStart.sfpu ∧
      (∀ loc ∉ (Action.run e.insn (laneBit l) true false).writes, t.sfpu.get loc = s.atCycleStart.sfpu.get loc) ∧
      (∀ (l' : Lane) (loc : Loc), l' ≠ l → loc.lane? = some l' → t.sfpu.get loc = s.atCycleStart.sfpu.get loc) ∧
      ∀ l' u', t.queue l' u' = (pendingEntries (s.queue l' u')).map (Entry.countDown false)) ∧
  (∀ (p : Params) (d : Due) (u : SubUnit), (∀ l e, d.at l u = some e → isCrossLane p e.insn.op = false) →
    ∃ acts, rowActions p d u = .next acts ∧ acts.Nodup ∧
      ∀ a, a ∈ acts ↔ ∃ l e, d.at l u = some e ∧ a = .run e.insn (laneBit l) true false) ∧
  (∀ s : State, NoTwoDue s → NoCrossLaneDue s →
    ∃ row : SubUnit → List Action, comingDue s = .next (row .simple ++ row .mad ++ row .round ++ row .store) ∧
      ∀ u, (row u).Nodup ∧ ∀ a, a ∈ row u ↔ ∃ l, DueRun s l u a) ∧
  (∀ (s s3 : State) (reg : Option Action), Unmarked s → NoTwoDue s → NoCrossLaneDue s →
    comingRegular s = .next (s3, reg) → s.inFlight = [] → s.sfpu.wf →
    (∀ l u a l' u' a', DueRun s l u a → DueRun s l' u' a' → (l, u) ≠ (l', u') → a.conflicts a' = false) →
    (∀ a l u b, reg = some a → DueRun s l u b → a.conflicts b = false) →
    ∃ t, step s = .next t ∧
      (∀ l u, ∀ e ∈ s.queue l u, e.counter = 0 → ∀ loc ∈ (Action.run e.insn (laneBit l) true false).writes,
        t.sfpu.get loc = (execOther e.insn (laneBit l) true false s3.sfpu).get loc) ∧
      (∀ loc, (∀ l u a, DueRun s l u a → loc ∉ a.writes) → t.sfpu.get loc = s3.sfpu.get loc) ∧
      ∀ l u, t.queue l u = s3.queue l u)

/-- R84: an entry of kind Cycles with counter `n`, nothing issuing, has counter `n - k` after `k` cycles, so that it is
due in the cycle after the `n`-th. -/
def Obligations.CyclesEntryDueOnTime : Prop :=
  ∀ (s t : State) (l : Lane) (u : SubUnit) (e : Entry) (k : Nat), NoIssueAhead s → e ∈ s.queue l u →
    e.kind = .cycles → k ≤ e.counter.val → Host.Core.run Sys2Proof.core k s = .next t →
    ∃ e' ∈ t.queue l u, e'.insn = e.insn ∧ e'.kind = .cycles ∧ e'.counter.val + k = e.counter.val

/-- R92: with nothing issuing, no entry of kind Cycles is left after 8 cycles, whatever `Sched` held. -/
def Obligations.CyclesEntriesDrainInEight : Prop :=
  ∀ s t : State, NoIssueAhead s → Host.Core.run Sys2Proof.core 8 s = .next t →
    ∀ l u, ∀ e ∈ t.queue l u, e.kind = .instructions ∧ e.counter ≠ 0

/-- R92: an entry of kind Instructions with counter above 0 never drains while nothing issues, and the run is never
over. -/
def Obligations.InstructionsEntryStaysWithoutIssue : Prop :=
  ∀ (s t : State) (l : Lane) (u : SubUnit) (e : Entry) (n : Nat), NoIssueAhead s → e ∈ s.queue l u →
    e.kind = .instructions → e.counter ≠ 0 → Host.Core.run Sys2Proof.core n s = .next t →
    e ∈ t.queue l u ∧ t.isFinal = false

/-- R86: in a cycle in which an instruction issues, every older entry has counter at most 6 when it executes: slot 7 is
empty. -/
def Obligations.SlotSevenIsEmptyAtIssue : Prop :=
  ∀ (s : State) (l : Lane) (u : SubUnit), (comingIssue s).isSome = true →
    ∀ e ∈ (comingState s).queue l u, e.counter.val ≤ 6

/-- R25: a change of `LoadMacroConfig` alters no entry already in `Sched`. -/
def Obligations.PendingEntriesKeepTheirRecords : Prop :=
  ∀ (s t t' : State) (cfg : Vector MacroConfig 32), comingIssue s = none → step s = .next t →
    step (s.withSfpu { s.sfpu with loadMacroConfig := cfg }) = .next t' →
    ∀ l u, t'.queue l u = t.queue l u

/-- R90: two actions of which neither writes a location that the other reads or writes commute. -/
def Obligations.DisjointFootprintsCommute : Prop :=
  ∀ (a b : Action) (x : Sfpu), x.wf → a.conflicts b = false →
    andThen (a.perform x) b.perform = andThen (b.perform x) a.perform

/-- R90: where no two co-executing actions conflict, SAME_CYCLE_POLICY makes no difference: all three give what the
actions give one after the other. -/
def Obligations.PoliciesAgreeWithoutConflict : Prop :=
  ∀ (policy : CyclePolicy) (pre x : Sfpu) (regular : Option Action) (due : List Action), pre.wf →
    (regular = none ∧ x = pre) ∨ (∃ a, regular = some a ∧ a.perform pre = .next x) →
    (regular.toList ++ due).Pairwise (fun a b => a.conflicts b = false) →
    coexecute policy pre regular due x = performAll due x

/-- R90: under the default policy two co-executing actions of which one writes what the other reads or writes are
refused. -/
def Obligations.ConflictRefusedByDefault : Prop :=
  ∀ (pre x : Sfpu) (regular : Option Action) (due : List Action),
    ¬ (regular.toList ++ due).Pairwise (fun a b => a.conflicts b = false) →
    coexecute .refuse pre regular due x = .refused .sameCycleConflict

/-- R90, policy `old`: two due or regular actions that write one location are refused; otherwise every due action reads
the unit as it was before the cycle, what it writes is what it makes of that unit, what none of them writes is as the
regular action left it, and the actions complete together if each of them completes on that unit. -/
def Obligations.OldPolicyUnderConflict : Prop :=
  ∀ (pre x : Sfpu) (regular : Option Action) (due : List Action), pre.wf →
    (regular = none ∧ x = pre) ∨ (∃ a, regular = some a ∧ a.perform pre = .next x) →
    (¬ (regular.toList ++ due).Pairwise (fun a b => a.writesMeet b = false) →
      coexecute .old pre regular due x = .refused .sameCycleConflict) ∧
    ((regular.toList ++ due).Pairwise (fun a b => a.writesMeet b = false) →
      ((∀ a ∈ due, ∃ post, a.perform pre = .next post) → ∃ y, coexecute .old pre regular due x = .next y) ∧
      ∀ y, coexecute .old pre regular due x = .next y →
        (∀ a ∈ due, ∃ post, a.perform pre = .next post ∧ ∀ loc ∈ a.writes, y.get loc = post.get loc) ∧
        ∀ loc, (∀ a ∈ due, loc ∉ a.writes) → y.get loc = x.get loc)

/-- R90, policy `unit_order`: step 3 first, then the due actions of Simple, MAD, Round and Store, each on the unit as
those before it left it, whatever they write and read; nothing is refused for a conflict. The order of the lanes within
a sub-unit is the model's (log entry 17), and so is that a due action sees a result of the same cycle whatever its latency
(log entry 14). -/
def Obligations.UnitOrderPolicyUnderConflict : Prop :=
  ∀ (s s3 : State) (reg : Option Action) (row : SubUnit → List Action) (x1 x2 x3 x4 : Sfpu), Unmarked s →
    s.params.sameCyclePolicy = .unitOrder → collision s.atCycleStart = none → comingRegular s = .next (s3, reg) →
    (∀ u, rowActions s.params (dueTable s.atCycleStart) u = .next (row u)) → s.inFlight = [] →
    performAll (row .simple) s3.sfpu = .next x1 → performAll (row .mad) x1 = .next x2 →
    performAll (row .round) x2 = .next x3 → performAll (row .store) x3 = .next x4 →
    (∀ a as x y, performAll (a :: as) x = .next y ↔ ∃ z, a.perform x = .next z ∧ performAll as z = .next y) ∧
    ∃ t, step s = .next t ∧ t.sfpu = x4 ∧
      ∀ l u, t.queue l u = s3.queue l u

/-- R91: a scheduled instruction that reads a result still in flight faults. What is in flight after a cycle: a location
that was with more than one cycle left, and a location in the write footprint of an executed action of latency above 1.
Log entry 14: the latencies are free values, and it is the model's choice (DESIGN CHOICE; R91 is silent) that a location
stays in flight though a later instruction overwrites it. That this fault comes before SameCycleConflict is the model's
choice too (log entry 18). -/
def Obligations.ReadInFlightFaults : Prop :=
  (∀ (s s3 : State) (reg : Option Action) (acts : List Action) (a : Action) (loc : Loc) (n : Nat), Unmarked s →
    collision s.atCycleStart = none → comingRegular s = .next (s3, reg) → comingDue s = .next acts → a ∈ acts →
    loc ∈ a.reads → (loc, n) ∈ s.inFlight → step s = .fault .scheduledReadNotReady) ∧
  (∀ (s t : State), step s = .next t → ∃ (s3 : State) (reg : Option Action) (acts : List Action),
    comingRegular s = .next (s3, reg) ∧ comingDue s = .next acts ∧
    ∀ (loc : Loc) (n : Nat), (loc, n) ∈ t.inFlight ↔
      0 < n ∧ ((loc, n + 1) ∈ s.inFlight ∨ ∃ a ∈ reg.toList ++ acts, loc ∈ a.writes ∧ a.latency = n + 1))

/-! ## Whole-machine rules -/

/-- R12: `LReg[16]` changes in a cycle only if a scheduled instruction with VD = 16 is due, SFPSTORE and SFPTRANSP apart:
no regular instruction writes it. That an SFPSTORE with VD = 16 does not is the model's deduction from R66 (log entry 10);
that an SFPTRANSP does not is R104. -/
def Obligations.Lreg16WrittenOnlyByScheduled : Prop :=
  ∀ s t : State, step s = .next t →
    (∀ l u, ∀ e ∈ s.queue l u, e.counter = 0 → e.insn.vd = 16 → e.insn.op = .sfpstore ∨ e.insn.op = .sfptransp) →
    t.sfpu.lreg[(16 : LRegNum)] = s.sfpu.lreg[(16 : LRegNum)]

/-- R12: nothing learns the contents of `LReg[16]` in a cycle in which no SFPSTORE with VD = 16 is due: a machine that
differs only there steps to one that differs only there. That no other instruction reads it is log entry 10. -/
def Obligations.Lreg16ReadOnlyByScheduledStore : Prop :=
  ∀ (s t : State) (v : Vector Word 32), s.sfpu.wf → step s = .next t →
    (∀ l u, ∀ e ∈ s.queue l u, e.counter = 0 → e.insn.op = .sfpstore → e.insn.vd ≠ 16) →
    ∃ t', step (s.withSfpu { s.sfpu with lreg := s.sfpu.lreg.set 16 v }) = .next t' ∧
      t' = { t with sfpu := t'.sfpu } ∧
      ∀ loc : Loc, loc.isLreg16 = false → t'.sfpu.get loc = t.sfpu.get loc

/-- R14: `LoadMacroConfig` changes in a cycle only if an SFPCONFIG is due or issues. That no other instruction writes it
is log entry 10 (DEDUCED). -/
def Obligations.MacroConfigWrittenOnlyBySfpconfig : Prop :=
  ∀ s t : State, step s = .next t →
    (∀ l u, ∀ e ∈ s.queue l u, e.counter = 0 → e.insn.op ≠ .sfpconfig) →
    (∀ th w i, comingIssue s = some (th, w) → parse w = some i → i.op ≠ .sfpconfig) →
    t.sfpu.loadMacroConfig = s.sfpu.loadMacroConfig

/-- R20: a cycle moves the issuing thread's position on by one and changes no other position and no thread's list. -/
def Obligations.IssuingThreadMovesOnByOne : Prop :=
  ∀ (s t : State), step s = .next t → ∀ th : Fin Config.nThreads,
    t.threads[th].words = s.threads[th].words ∧
    t.threads[th].position =
      s.threads[th].position + (if (comingIssue s).map Prod.fst = some th then 1 else 0)

/-- R126: after a cycle a region the FPU wrote in it has distance 0 for every thread; any other region's distance for a
thread has grown by the environment's other Tensix instructions of that thread, and by one more if that thread's regular
SFPU instruction executed and does not touch Dst. What counts as unrelated, that a thread counts its own instructions
only, and that a discarded instruction does not count, is the model's choice (log entry 12). -/
def Obligations.FpuDistanceAfterStep : Prop :=
  ∀ (s t : State) (r : Nat), step s = .next t → ∃ (s3 : State) (reg : Option Action),
    comingRegular s = .next (s3, reg) ∧
    ((∃ w ∈ s.nextInput.fpuWrites, w.region = r) →
      ∀ n, (r, n) ∈ t.fpuDistance ↔ ∀ th : Fin Config.nThreads, n[th] = 0) ∧
    ((∀ w ∈ s.nextInput.fpuWrites, w.region ≠ r) → ∀ n', (r, n') ∈ t.fpuDistance ↔
      ∃ n, (r, n) ∈ s.fpuDistance ∧ ∀ th : Fin Config.nThreads,
        (CountsForThread (comingIssue s) reg th → n'[th] = n[th] + s.nextInput.otherTensix[th] + 1) ∧
        (¬ CountsForThread (comingIssue s) reg th → n'[th] = n[th] + s.nextInput.otherTensix[th]))

/-- The parameters of R5 are fixed for the machine (the model's choice to hold them in the state, log entry 3). -/
def Obligations.ParametersNeverChange : Prop :=
  ∀ s t : State, step s = .next t → t.params = s.params

/-- R23: a fault sets the fault mark and a refusal the refusal mark; a marked state answers every step with its mark, is
not changed by it, and is never final. That a marked state answers its mark and stays is the model's choice (log entry
19). -/
def Obligations.MarksAreSticky : Prop :=
  (∀ (s : State) (f : Fault), step s = .fault f → (markedStep s).faultMark = some f) ∧
  (∀ (s : State) (r : Refusal), step s = .refused r → (markedStep s).refusalMark = some r) ∧
  (∀ (s : State) (f : Fault), s.faultMark = some f →
    step s = .fault f ∧ (∀ n, markedRun n s = s) ∧ s.isFinal = false) ∧
  (∀ (s : State) (r : Refusal), s.faultMark = none → s.refusalMark = some r →
    step s = .refused r ∧ (∀ n, markedRun n s = s) ∧ s.isFinal = false)

/-- The invariant is kept by every step: sparse storage stays canonical; in every lane and sub-unit the entries are
eligible there (R69), of one kind with different counters (R86), and name `LReg[16]` as no source (R12); no thread runs
past its list (R20). -/
def Obligations.StepKeepsInvariant : Prop :=
  ∀ s t : State, s.Inv → step s = .next t → t.Inv

/-- The invariant holds at reset. -/
def Obligations.ResetMeetsInvariant : Prop := State.reset.Inv

/-- R24, R121: at reset nothing is scheduled, no mark is set, no FPU write is near, no SFPTRANSP executes whatever the
mask, the configuration is uniform, and the run is over. That every configuration field holds zero, and so that the
configuration is uniform, is the model's choice (log entry 5); that nothing ever issues from reset, so that DstQuiet and
LanesEnabled hold, is log entry 7. -/
def Obligations.ResetMeetsLaunchPremises : Prop :=
  State.reset.noPendingMacro = true ∧ State.reset.noFaultRecorded = true ∧ State.reset.dstQuiet ∧
    (∀ mask, State.reset.lanesEnabled mask) ∧ (∀ field, State.reset.configWritten [(field, 0#32)] = true) ∧
    State.reset.configUniform = true ∧ State.reset.isFinal = true
end

