-- ==== Sys2Proof/Laws/Memory.lean ====
section
/-! SUPPORT. Sys2Proof/Laws/Memory.lean: sparse storage: read after write, and the canonical form. -/

namespace Sys2Proof.Machine

@[simp] theorem Memory.read_nil (a : Nat) : Memory.read [] a = Memory.blank := rfl

theorem Memory.read_cons (b : Nat) (w : Word) (m : Memory) (a : Nat) :
    Memory.read ((b, w) :: m) a = if a = b then w else Memory.read m a := rfl

/-- A location below every listed one is not listed. -/
theorem Memory.read_below {m : Memory} {a : Nat} (h : ∀ x ∈ m, a < x.1) : m.read a = Memory.blank := by
  induction m with
  | nil => rfl
  | cons x m ih =>
    have hx := h x List.mem_cons_self
    rw [Memory.read_cons, if_neg (by omega)]
    exact ih fun y hy => h y (List.mem_cons_of_mem _ hy)

theorem Memory.wf_nil : Memory.wf [] := ⟨List.Pairwise.nil, by simp⟩

theorem Memory.wf_cons {x : Nat × Word} {m : Memory} :
    Memory.wf (x :: m) ↔ (∀ y ∈ m, x.1 < y.1) ∧ x.2 ≠ Memory.blank ∧ Memory.wf m := by
  simp only [Memory.wf, List.pairwise_cons, List.forall_mem_cons]
  tauto

/-- A number listed after a write was listed before or is the number written. -/
theorem Memory.mem_write {m : Memory} {a : Nat} {v : Word} {x : Nat × Word} (h : x ∈ m.write a v) :
    x ∈ m ∨ x = (a, v) := by
  induction m with
  | nil =>
    simp only [Memory.write] at h
    split at h <;> simp_all
  | cons y m ih =>
    obtain ⟨b, w⟩ := y
    simp only [Memory.write] at h
    split_ifs at h
    · exact .inl h
    · rcases List.mem_cons.1 h with h | h
      · exact .inr h
      · exact .inl h
    · exact .inl (List.mem_cons_of_mem _ h)
    · rcases List.mem_cons.1 h with h | h
      · exact .inr h
      · exact .inl (List.mem_cons_of_mem _ h)
    · rcases List.mem_cons.1 h with h | h
      · exact .inl (h ▸ List.mem_cons_self)
      · exact (ih h).imp_left (List.mem_cons_of_mem _)

/-- A write keeps the canonical form. -/
theorem Memory.write_wf {m : Memory} (hm : m.wf) (a : Nat) (v : Word) : (m.write a v).wf := by
  induction m with
  | nil =>
    simp only [Memory.write]
    split_ifs with h
    · exact Memory.wf_nil
    · exact Memory.wf_cons.2 ⟨by simp, h, Memory.wf_nil⟩
  | cons y m ih =>
    obtain ⟨b, w⟩ := y
    obtain ⟨hlt, hw, hwf⟩ := Memory.wf_cons.1 hm
    simp only [Memory.write]
    split_ifs with h1 h2 h3 h4
    · exact hm
    · refine Memory.wf_cons.2 ⟨?_, h2, hm⟩
      intro y hy
      rcases List.mem_cons.1 hy with rfl | hy
      · exact h1
      · exact lt_trans h1 (hlt y hy)
    · exact hwf
    · exact Memory.wf_cons.2 ⟨fun y hy => h3 ▸ hlt y hy, h4, hwf⟩
    · refine Memory.wf_cons.2 ⟨?_, hw, ih hwf⟩
      intro y hy
      rcases Memory.mem_write hy with hy | rfl
      · exact hlt y hy
      · change b < a
        omega

theorem Memory.writeList_wf {m : Memory} (hm : m.wf) (cells : List (Nat × Word)) : (m.writeList cells).wf := by
  induction cells generalizing m with
  | nil => exact hm
  | cons c cells ih => exact ih (Memory.write_wf hm c.1 c.2)

/-- Reading the location written gives the value written. -/
theorem Memory.read_write_same {m : Memory} (hm : m.wf) (a : Nat) (v : Word) : (m.write a v).read a = v := by
  induction m with
  | nil =>
    simp only [Memory.write]
    split <;> simp_all [Memory.read]
  | cons y m ih =>
    obtain ⟨b, w⟩ := y
    obtain ⟨hlt, -, hwf⟩ := Memory.wf_cons.1 hm
    simp only [Memory.write]
    split_ifs with h1 h2 h3 h4
    · rw [h2]
      refine Memory.read_below fun x hx => ?_
      rcases List.mem_cons.1 hx with rfl | hx
      · exact h1
      · exact lt_trans h1 (hlt x hx)
    · rw [Memory.read_cons, if_pos rfl]
    · rw [h4]
      exact Memory.read_below fun x hx => h3 ▸ hlt x hx
    · rw [Memory.read_cons, if_pos rfl]
    · rw [Memory.read_cons, if_neg h3]
      exact ih hwf

/-- A write leaves every other location alone. -/
theorem Memory.read_write_other (m : Memory) {a a' : Nat} (h : a' ≠ a) (v : Word) :
    (m.write a v).read a' = m.read a' := by
  induction m with
  | nil =>
    simp only [Memory.write]
    split <;> simp [Memory.read, h]
  | cons y m ih =>
    obtain ⟨b, w⟩ := y
    simp only [Memory.write]
    split_ifs with h1 h2 h3 h4
    · rfl
    · rw [Memory.read_cons, if_neg h]
    · rw [Memory.read_cons, if_neg (h3 ▸ h)]
    · rw [Memory.read_cons, if_neg h, Memory.read_cons, if_neg (h3 ▸ h)]
    · simp only [Memory.read_cons, ih]

theorem Memory.writeList_read_other (m : Memory) (cells : List (Nat × Word)) {a : Nat} (h : ∀ c ∈ cells, a ≠ c.1) :
    (m.writeList cells).read a = m.read a := by
  induction cells generalizing m with
  | nil => rfl
  | cons c cells ih =>
    rw [Memory.writeList, List.foldl_cons]
    exact (ih _ fun c' hc' => h c' (List.mem_cons_of_mem _ hc')).trans
      (Memory.read_write_other m (h c List.mem_cons_self) c.2)

/-- Canonical storages that read alike are equal. -/
theorem Memory.ext_read {m m' : Memory} (hm : m.wf) (hm' : m'.wf) (h : ∀ a, m.read a = m'.read a) : m = m' := by
  induction m generalizing m' with
  | nil =>
    cases m' with
    | nil => rfl
    | cons y m' =>
      obtain ⟨b, w⟩ := y
      have := h b
      rw [Memory.read_cons, if_pos rfl] at this
      exact absurd this.symm (Memory.wf_cons.1 hm').2.1
  | cons x m ih =>
    obtain ⟨a, v⟩ := x
    obtain ⟨hlt, hv, hwf⟩ := Memory.wf_cons.1 hm
    cases m' with
    | nil =>
      have := h a
      rw [Memory.read_cons, if_pos rfl] at this
      exact absurd this hv
    | cons y m' =>
      obtain ⟨b, w⟩ := y
      obtain ⟨hlt', hw, hwf'⟩ := Memory.wf_cons.1 hm'
      have hab : a = b := by
        rcases lt_trichotomy a b with hab | hab | hab
        · have := h a
          rw [Memory.read_cons, if_pos rfl, Memory.read_below] at this
          · exact absurd this hv
          · intro z hz
            rcases List.mem_cons.1 hz with rfl | hz
            · exact hab
            · exact lt_trans hab (hlt' z hz)
        · exact hab
        · have := h b
          rw [Memory.read_cons (b := b), if_pos rfl, Memory.read_below] at this
          · exact absurd this.symm hw
          · intro z hz
            rcases List.mem_cons.1 hz with rfl | hz
            · exact hab
            · exact lt_trans hab (hlt z hz)
      subst hab
      have hvw : v = w := by
        have := h a
        rwa [Memory.read_cons, if_pos rfl, Memory.read_cons, if_pos rfl] at this
      subst hvw
      congr 1
      refine ih hwf hwf' fun c => ?_
      by_cases hc : c = a
      · subst hc
        rw [Memory.read_below hlt, Memory.read_below hlt']
      · have := h c
        rwa [Memory.read_cons, if_neg hc, Memory.read_cons, if_neg hc] at this

end Sys2Proof.Machine
end

