-- ==== Sys2Proof/Laws/Locations.lean ====
section
/-! SUPPORT. Sys2Proof/Laws/Locations.lean: reading a location after a write, and what a list of writes leaves alone. -/

namespace Sys2Proof.Machine

theorem getLsbD_laneBit (l l' : Lane) : (laneBit l).getLsbD l'.val = decide (l' = l) := by
  revert l l'; decide

@[simp] theorem getElem_laneBit (l l' : Lane) : (laneBit l)[l'.val] = decide (l' = l) := getLsbD_laneBit l l'

theorem vector_set_getElem {α : Type} {n : Nat} (v : Vector α n) (i j : Fin n) (a : α) :
    (v.set i a)[j] = if i = j then a else v[j] := by
  simp [Vector.getElem_set, Fin.ext_iff]

theorem Sfpu.updateConfig_loadMacroConfig (x : Sfpu) (l l' : Lane) (f : MacroConfig → MacroConfig) :
    (x.updateConfig l f).loadMacroConfig[l'] = if l = l' then f x.loadMacroConfig[l] else x.loadMacroConfig[l'] :=
  vector_set_getElem _ _ _ _

/-- A write leaves every other location alone. -/
theorem Sfpu.get_set_other (x : Sfpu) {loc loc' : Loc} (h : loc' ≠ loc) (w : Word) :
    (x.set loc w).get loc' = x.get loc' := by
  cases loc <;> cases loc' <;> first
    | rfl
    | (simp only [Sfpu.set, Sfpu.get, Sfpu.updateConfig_loadMacroConfig, MacroConfig.updateMisc]
       split <;> first
         | rfl
         | (rename_i hl; subst hl; first
             | rfl
             | exact absurd rfl h
             | (simp only [vector_set_getElem]
                rw [if_neg]
                rintro rfl
                exact h rfl)))
    | skip
  case lreg.lreg r l r' l' =>
    simp only [Sfpu.set, Sfpu.get, vector_set_getElem]
    by_cases hr : r = r'
    · subst hr
      have hl : l ≠ l' := fun hl => h (by rw [hl])
      simp only [if_true, vector_set_getElem, if_neg hl]
    · simp only [if_neg hr]
  case dst.dst e e' => exact Memory.read_write_other _ (fun he => h (by rw [he])) w
  case addrCounter.addrCounter e e' => exact Memory.read_write_other _ (fun he => h (by rw [he])) w
  case laneEnabled.laneEnabled l l' =>
    have hl : l' ≠ l := fun hl => h (by rw [hl])
    simp only [Sfpu.set, Sfpu.get]
    split <;> simp [hl]
  case disableBackdoorLoad.disableBackdoorLoad => exact absurd rfl h

theorem Sfpu.set_wf {x : Sfpu} (hx : x.wf) (loc : Loc) (w : Word) : (x.set loc w).wf := by
  cases loc <;> first
    | exact hx
    | exact ⟨Memory.write_wf hx.1 _ _, hx.2⟩
    | exact ⟨hx.1, Memory.write_wf hx.2 _ _⟩

theorem Sfpu.writeList_wf {x : Sfpu} (hx : x.wf) (ws : List (Loc × Word)) : (x.writeList ws).wf := by
  induction ws generalizing x with
  | nil => exact hx
  | cons p ws ih => exact ih (Sfpu.set_wf hx p.1 p.2)

theorem Sfpu.overlay_wf {x : Sfpu} (hx : x.wf) (locs : List Loc) (src : Sfpu) : (x.overlay locs src).wf := by
  induction locs generalizing x with
  | nil => exact hx
  | cons loc locs ih => exact ih (Sfpu.set_wf hx loc _)

/-- A list of writes leaves alone every location it does not name. -/
theorem Sfpu.get_writeList_other (x : Sfpu) (ws : List (Loc × Word)) {loc : Loc} (h : ∀ p ∈ ws, loc ≠ p.1) :
    (x.writeList ws).get loc = x.get loc := by
  induction ws generalizing x with
  | nil => rfl
  | cons p ws ih =>
    exact (ih (x.set p.1 p.2) fun q hq => h q (List.mem_cons_of_mem _ hq)).trans
      (Sfpu.get_set_other x (h p List.mem_cons_self) p.2)

theorem Sfpu.get_overlay_other (x : Sfpu) (locs : List Loc) (src : Sfpu) {loc : Loc} (h : loc ∉ locs) :
    (x.overlay locs src).get loc = x.get loc := by
  induction locs generalizing x with
  | nil => rfl
  | cons l locs ih =>
    rw [List.mem_cons, not_or] at h
    exact (ih (x.set l (src.get l)) h.2).trans (Sfpu.get_set_other x h.1 _)

/-- What a location holds after `w` is written to it: all of `w`, or its low bits. -/
def Loc.narrow : Loc → Word → Word
  | .storeMod0 _, w | .usesLoadMod0ForStore _, w | .unitDelayKind _, w => (w.setWidth 4).setWidth 32
  | .disableBackdoorLoad, w | .laneEnabled _, w => wordOfBool (w.getLsbD 0)
  | .lreg _ _, w | .dst _, w | .addrCounter _, w | .sequenceEntry _ _, w | .instructionTemplate _ _, w => w

/-- The storage that holds a location is in canonical form; nothing is asked where it is no sparse storage. -/
def Sfpu.wfAt (x : Sfpu) : Loc → Prop
  | .dst _ => x.dst.wf
  | .addrCounter _ => x.addrCounters.wf
  | .lreg _ _ | .sequenceEntry _ _ | .instructionTemplate _ _ | .storeMod0 _ | .usesLoadMod0ForStore _
  | .unitDelayKind _ | .disableBackdoorLoad | .laneEnabled _ => True

theorem Sfpu.wfAt_of_wf {x : Sfpu} (hx : x.wf) (loc : Loc) : x.wfAt loc := by
  cases loc <;> first
    | trivial
    | exact hx.1
    | exact hx.2

@[simp] theorem Sfpu.wfAt_lreg (x : Sfpu) (r : LRegNum) (l : Lane) : x.wfAt (.lreg r l) := trivial

theorem Sfpu.set_wfAt {x : Sfpu} {loc : Loc} (hx : x.wfAt loc) (loc' : Loc) (w : Word) : (x.set loc' w).wfAt loc := by
  cases loc <;> first
    | trivial
    | (cases loc' <;> first
        | exact hx
        | exact Memory.write_wf hx _ _)

/-- Reading the location written gives the value written, as far as the location holds it. -/
theorem Sfpu.get_set_same {x : Sfpu} {loc : Loc} (hx : x.wfAt loc) (w : Word) :
    (x.set loc w).get loc = Loc.narrow loc w := by
  cases loc with
  | lreg r l => simp only [Sfpu.set, Sfpu.get, vector_set_getElem, if_true, Loc.narrow]
  | dst e => exact Memory.read_write_same hx e w
  | addrCounter n => exact Memory.read_write_same hx n w
  | sequenceEntry l m =>
    simp only [Sfpu.set, Sfpu.get, Sfpu.updateConfig_loadMacroConfig, vector_set_getElem, if_true, Loc.narrow]
  | instructionTemplate l t =>
    simp only [Sfpu.set, Sfpu.get, Sfpu.updateConfig_loadMacroConfig, vector_set_getElem, if_true, Loc.narrow]
  | storeMod0 l =>
    simp only [Sfpu.set, Sfpu.get, Sfpu.updateConfig_loadMacroConfig, MacroConfig.updateMisc, if_true, Loc.narrow]
  | usesLoadMod0ForStore l =>
    simp only [Sfpu.set, Sfpu.get, Sfpu.updateConfig_loadMacroConfig, MacroConfig.updateMisc, if_true, Loc.narrow]
  | unitDelayKind l =>
    simp only [Sfpu.set, Sfpu.get, Sfpu.updateConfig_loadMacroConfig, MacroConfig.updateMisc, if_true, Loc.narrow]
  | disableBackdoorLoad => rfl
  | laneEnabled l =>
    simp only [Sfpu.set, Sfpu.get, Loc.narrow]
    cases w.getLsbD 0 <;> simp

/-- What a location holds is already as narrow as the location. -/
theorem Loc.narrow_get (x : Sfpu) (loc : Loc) : Loc.narrow loc (x.get loc) = x.get loc := by
  have hw : ∀ v : BitVec 4, ((v.setWidth 32).setWidth 4).setWidth 32 = v.setWidth 32 := by decide
  have hb : ∀ b : Bool, wordOfBool ((wordOfBool b).getLsbD 0) = wordOfBool b := by decide
  cases loc <;> first
    | rfl
    | exact hw _
    | exact hb _

/-- An overlay takes the locations it names from its source. -/
theorem Sfpu.get_overlay_mem {x : Sfpu} (hx : x.wf) (locs : List Loc) (src : Sfpu) {loc : Loc} (h : loc ∈ locs) :
    (x.overlay locs src).get loc = src.get loc := by
  induction locs generalizing x with
  | nil => cases h
  | cons l locs ih =>
    by_cases hin : loc ∈ locs
    · exact ih (Sfpu.set_wf hx l _) hin
    · have hl : loc = l := (List.mem_cons.1 h).resolve_right hin
      subst hl
      exact (Sfpu.get_overlay_other _ locs src hin).trans
        ((Sfpu.get_set_same (Sfpu.wfAt_of_wf hx loc) _).trans (Loc.narrow_get src loc))

/-! ## assign -/

theorem Sfpu.set_loadMacroConfig (x : Sfpu) {loc : Loc} (h : loc.isMacroConfig = false) (w : Word) :
    (x.set loc w).loadMacroConfig = x.loadMacroConfig := by
  cases loc <;> first
    | rfl
    | cases h

theorem Sfpu.writeList_loadMacroConfig (x : Sfpu) (ws : List (Loc × Word)) (h : ∀ p ∈ ws, p.1.isMacroConfig = false) :
    (x.writeList ws).loadMacroConfig = x.loadMacroConfig := by
  induction ws generalizing x with
  | nil => rfl
  | cons p ws ih =>
    exact (ih (x.set p.1 p.2) fun q hq => h q (List.mem_cons_of_mem _ hq)).trans
      (Sfpu.set_loadMacroConfig x (h p List.mem_cons_self) p.2)

theorem Sfpu.assign_wf {x : Sfpu} (hx : x.wf) (locs : List Loc) (f : Loc → Option Word) : (x.assign locs f).wf :=
  Sfpu.writeList_wf hx _

theorem Sfpu.assign_cons (x : Sfpu) (l : Loc) (locs : List Loc) (f : Loc → Option Word) :
    x.assign (l :: locs) f = Sfpu.assign (match f l with | some w => x.set l w | none => x) locs f := by
  unfold Sfpu.assign
  cases h : f l <;> simp [h, Sfpu.writeList]

/-- A location that is not listed stays as it is. -/
theorem Sfpu.get_assign_other (x : Sfpu) (locs : List Loc) (f : Loc → Option Word) {loc : Loc} (h : loc ∉ locs) :
    (x.assign locs f).get loc = x.get loc := by
  refine Sfpu.get_writeList_other _ _ fun p hp => ?_
  obtain ⟨loc', hl, hm⟩ := List.mem_filterMap.1 hp
  obtain ⟨w, -, rfl⟩ := Option.map_eq_some_iff.1 hm
  rintro rfl
  exact h hl

/-- A listed location holds what `f` gives it, as far as it can, or stays as it is. -/
theorem Sfpu.get_assign_mem {x : Sfpu} {loc : Loc} (hx : x.wfAt loc) (locs : List Loc) (f : Loc → Option Word)
    (h : loc ∈ locs) : (x.assign locs f).get loc = ((f loc).map (Loc.narrow loc)).getD (x.get loc) := by
  induction locs generalizing x with
  | nil => cases h
  | cons l locs ih =>
    rw [Sfpu.assign_cons]
    by_cases hl : loc = l
    · subst hl
      cases hf : f loc with
      | none =>
        dsimp only
        by_cases hin : loc ∈ locs
        · rw [ih hx hin, hf]
        · rw [Sfpu.get_assign_other _ _ _ hin]
          rfl
      | some w =>
        dsimp only
        by_cases hin : loc ∈ locs
        · rw [ih (Sfpu.set_wfAt hx loc w) hin, hf]
          rfl
        · rw [Sfpu.get_assign_other _ _ _ hin, Sfpu.get_set_same hx]
          rfl
    · have hin := (List.mem_cons.1 h).resolve_left hl
      cases hf : f l with
      | none => exact ih hx hin
      | some w =>
        rw [ih (Sfpu.set_wfAt hx l w) hin, Sfpu.get_set_other x hl]

/-- Units with canonical sparse parts that hold the same in every location are equal. -/
theorem Sfpu.ext_get {x y : Sfpu} (hx : x.wf) (hy : y.wf) (h : ∀ loc, x.get loc = y.get loc) : x = y := by
  obtain ⟨xl, xc, xd, xe, xm, xa⟩ := x
  obtain ⟨yl, yc, yd, ye, ym, ya⟩ := y
  congr 1
  · ext r hr l hl : 2
    exact congrArg BitVec.toNat (h (.lreg ⟨r, hr⟩ ⟨l, hl⟩)) |> BitVec.eq_of_toNat_eq
  · ext l hl : 1
    have hw : ∀ a b : BitVec 4, a.setWidth 32 = b.setWidth 32 → a = b := by decide
    have h1 := hw _ _ (h (.storeMod0 ⟨l, hl⟩))
    have h2 := hw _ _ (h (.usesLoadMod0ForStore ⟨l, hl⟩))
    have h3 := hw _ _ (h (.unitDelayKind ⟨l, hl⟩))
    have h4 : xc[l].sequenceEntry = yc[l].sequenceEntry := by
      ext m hm : 1
      exact h (.sequenceEntry ⟨l, hl⟩ ⟨m, hm⟩)
    have h5 : xc[l].instructionTemplate = yc[l].instructionTemplate := by
      ext m hm : 1
      exact h (.instructionTemplate ⟨l, hl⟩ ⟨m, hm⟩)
    have hm : ∀ a b : Misc, a.storeMod0 = b.storeMod0 → a.usesLoadMod0ForStore = b.usesLoadMod0ForStore →
        a.unitDelayKind = b.unitDelayKind → a = b := by rintro ⟨⟩ ⟨⟩ rfl rfl rfl; rfl
    have hc : ∀ a b : MacroConfig, a.misc = b.misc → a.sequenceEntry = b.sequenceEntry →
        a.instructionTemplate = b.instructionTemplate → a = b := by rintro ⟨⟩ ⟨⟩ rfl rfl rfl; rfl
    exact hc _ _ (hm _ _ h1 h2 h3) h4 h5
  · have hb : ∀ a b : Bool, wordOfBool a = wordOfBool b → a = b := by decide
    exact hb _ _ (h .disableBackdoorLoad)
  · ext i hi
    have := h (.laneEnabled ⟨i, hi⟩)
    simp only [Sfpu.get] at this
    have hb : ∀ a b : Bool, wordOfBool a = wordOfBool b → a = b := by decide
    exact hb _ _ this
  · exact Memory.ext_read hx.1 hy.1 fun e => h (.dst e)
  · exact Memory.ext_read hx.2 hy.2 fun e => h (.addrCounter e)

end Sys2Proof.Machine
end

