-- ==== Sys2Proof/Laws/Masks.lean ====
section
/-! SUPPORT. Sys2Proof/Laws/Masks.lean: lane masks, due entries and the footprints of the two instructions. -/

namespace Sys2Proof.Machine

theorem getLsbD_foldl_laneBit (p : Lane → Bool) (ls : List Lane) (m : LaneMask) (l : Lane) :
    (ls.foldl (fun m l => if p l then m ||| laneBit l else m) m).getLsbD l.val =
      (m.getLsbD l.val || (decide (l ∈ ls) && p l)) := by
  induction ls generalizing m with
  | nil => simp
  | cons a ls ih =>
    rw [List.foldl_cons, ih]
    by_cases ha : l = a
    · subst ha
      cases p l <;> simp
    · cases hp : p a <;> simp [ha]

/-- The bit of a lane in the mask of a predicate. -/
@[simp] theorem getLsbD_maskWhere (p : Lane → Bool) (l : Lane) : (maskWhere p).getLsbD l.val = p l := by
  rw [maskWhere, getLsbD_foldl_laneBit]
  simp

@[simp] theorem getElem_maskWhere (p : Lane → Bool) (l : Lane) : (maskWhere p)[l.val] = p l := getLsbD_maskWhere p l

theorem LaneMask.ext {m m' : LaneMask} (h : ∀ l : Lane, m.getLsbD l.val = m'.getLsbD l.val) : m = m' := by
  ext i hi
  exact h ⟨i, hi⟩

@[simp] theorem getLsbD_fullMask (l : Lane) : fullMask.getLsbD l.val = true := by
  revert l; decide

theorem maskWhere_eq_zero {p : Lane → Bool} : maskWhere p = 0#32 ↔ ∀ l, p l = false := by
  constructor
  · intro h l
    rw [← getLsbD_maskWhere p l, h]
    simp
  · intro h
    exact LaneMask.ext fun l => by rw [getLsbD_maskWhere, h l]; simp

theorem maskWhere_eq_full {p : Lane → Bool} : maskWhere p = fullMask ↔ ∀ l, p l = true := by
  constructor
  · intro h l
    rw [← getLsbD_maskWhere p l, h, getLsbD_fullMask]
  · intro h
    exact LaneMask.ext fun l => by rw [getLsbD_maskWhere, h l, getLsbD_fullMask]

@[simp] theorem mem_lanesOf {m : LaneMask} {l : Lane} : l ∈ lanesOf m ↔ m.getLsbD l.val = true := by
  simp [lanesOf]

theorem mem_lanesAndUnits (l : Lane) (u : SubUnit) : (l, u) ∈ lanesAndUnits := by
  simp only [lanesAndUnits, List.mem_flatMap, List.mem_map]
  exact ⟨l, mem_allLanes l, u, by cases u <;> simp [SubUnit.all], rfl⟩

@[simp] theorem dueTable_at (s : State) (l : Lane) (u : SubUnit) :
    (dueTable s).at l u = (dueEntries (s.queue l u)).head? := by
  simp [Due.at, dueTable, State.queue]

@[simp] theorem mem_dueEntries {q : List Entry} {e : Entry} : e ∈ dueEntries q ↔ e ∈ q ∧ e.counter = 0 := by
  simp [dueEntries]

@[simp] theorem mem_pendingEntries {q : List Entry} {e : Entry} :
    e ∈ pendingEntries q ↔ e ∈ q ∧ e.counter ≠ 0 := by
  simp [pendingEntries]

theorem dueMask_eq_zero {d : Due} {u : SubUnit} : dueMask d u = 0#32 ↔ ∀ l, d.at l u = none := by
  simp [dueMask, maskWhere_eq_zero]

theorem dueMask_eq_full {d : Due} {u : SubUnit} : dueMask d u = fullMask ↔ ∀ l, (d.at l u).isSome = true := by
  simp [dueMask, maskWhere_eq_full]

/-- Nothing is due in the table of a state none of whose entries has counter 0. -/
theorem dueTable_at_none {s : State} (h : ∀ l u, ∀ e ∈ s.queue l u, e.counter ≠ 0) (l : Lane) (u : SubUnit) :
    (dueTable s).at l u = none := by
  rw [dueTable_at, List.head?_eq_none_iff, List.eq_nil_iff_forall_not_mem]
  intro e he
  exact h l u e (mem_dueEntries.1 he).1 (mem_dueEntries.1 he).2

@[simp] theorem mem_generalRegLocs {loc : Loc} :
    loc ∈ generalRegLocs ↔ ∃ (r : LRegNum) (l : Lane), r.val < 8 ∧ loc = .lreg r l := by
  simp only [generalRegLocs, List.mem_flatMap, List.mem_map, List.mem_finRange, true_and]
  constructor
  · rintro ⟨r, l, -, rfl⟩
    exact ⟨⟨r.val, by omega⟩, l, r.isLt, rfl⟩
  · rintro ⟨r, l, hr, rfl⟩
    exact ⟨⟨r.val, hr⟩, l, mem_allLanes l, rfl⟩

@[simp] theorem mem_configLocs {loc : Loc} : loc ∈ configLocs ↔ loc.isMacroConfig = true := by
  simp only [configLocs, List.mem_flatMap, List.mem_append, List.mem_map, List.mem_finRange, true_and, mem_allLanes]
  constructor
  · rintro ⟨l, (⟨m, rfl⟩ | ⟨t, rfl⟩) | h⟩
    · rfl
    · rfl
    · simp only [List.mem_cons, List.not_mem_nil, or_false] at h
      rcases h with rfl | rfl | rfl <;> rfl
  · cases loc with
    | sequenceEntry l m => exact fun _ => ⟨l, .inl (.inl ⟨m, rfl⟩)⟩
    | instructionTemplate l t => exact fun _ => ⟨l, .inl (.inr ⟨t, rfl⟩)⟩
    | storeMod0 l => exact fun _ => ⟨l, .inr (by simp)⟩
    | usesLoadMod0ForStore l => exact fun _ => ⟨l, .inr (by simp)⟩
    | unitDelayKind l => exact fun _ => ⟨l, .inr (by simp)⟩
    | lreg r l => simp [Loc.isMacroConfig]
    | dst e => simp [Loc.isMacroConfig]
    | addrCounter n => simp [Loc.isMacroConfig]
    | disableBackdoorLoad => simp [Loc.isMacroConfig]
    | laneEnabled l => simp [Loc.isMacroConfig]

end Sys2Proof.Machine
end

