-- ==== Sys2Proof/Laws/Outcome.lean ====
section
/-! SUPPORT. Sys2Proof/Laws/Outcome.lean: how a sequence of parts can end. -/

namespace Sys2Proof.Machine

@[simp] theorem andThen_next {α β : Type} (a : α) (f : α → Out β) : andThen (.next a) f = f a := rfl

@[simp] theorem andThen_fault {α β : Type} (r : Fault) (f : α → Out β) : andThen (.fault r) f = .fault r := rfl

@[simp] theorem andThen_refused {α β : Type} (r : Refusal) (f : α → Out β) :
    andThen (.refused r) f = .refused r := rfl

theorem andThen_eq_next {α β : Type} {o : Out α} {f : α → Out β} {b : β} :
    andThen o f = .next b ↔ ∃ a, o = .next a ∧ f a = .next b := by
  cases o <;> simp [andThen]

theorem andThen_assoc {α β γ : Type} (o : Out α) (f : α → Out β) (g : β → Out γ) :
    andThen (andThen o f) g = andThen o fun a => andThen (f a) g := by
  cases o <;> rfl

@[simp] theorem foldOut_nil {α β : Type} (f : α → β → Out β) (b : β) : foldOut f [] b = .next b := rfl

@[simp] theorem foldOut_cons {α β : Type} (f : α → β → Out β) (a : α) (as : List α) (b : β) :
    foldOut f (a :: as) b = andThen (f a b) (foldOut f as) := rfl

theorem foldOut_append {α β : Type} (f : α → β → Out β) (as as' : List α) (b : β) :
    foldOut f (as ++ as') b = andThen (foldOut f as b) (foldOut f as') := by
  induction as generalizing b with
  | nil => rfl
  | cons a as ih =>
    simp only [List.cons_append, foldOut_cons, andThen_assoc]
    congr 1
    funext b'
    exact ih b'

/-- A relation to the start that every pass keeps holds of the end. -/
theorem foldOut_preserves {α β : Type} {f : α → β → Out β} {as : List α} {P : β → Prop}
    (hstep : ∀ a ∈ as, ∀ b b', P b → f a b = .next b' → P b') :
    ∀ {b b'}, P b → foldOut f as b = .next b' → P b' := by
  induction as with
  | nil =>
    intro b b' hb h
    cases h
    exact hb
  | cons a as ih =>
    intro b b' hb h
    obtain ⟨c, hc, hrest⟩ := andThen_eq_next.1 h
    exact ih (fun a' ha' => hstep a' (List.mem_cons_of_mem _ ha')) (hstep a List.mem_cons_self b c hb hc) hrest

/-- If every pass completes whatever it starts from, the loop completes. -/
theorem foldOut_completes {α β : Type} {f : α → β → Out β} {as : List α} {P : β → Prop}
    (hstep : ∀ a ∈ as, ∀ b, P b → ∃ b', f a b = .next b' ∧ P b') :
    ∀ {b}, P b → ∃ b', foldOut f as b = .next b' ∧ P b' := by
  induction as with
  | nil => exact fun hb => ⟨_, rfl, hb⟩
  | cons a as ih =>
    intro b hb
    obtain ⟨c, hc, hPc⟩ := hstep a List.mem_cons_self b hb
    obtain ⟨b', hb', hP⟩ := ih (fun a' ha' => hstep a' (List.mem_cons_of_mem _ ha')) hPc
    exact ⟨b', by rw [foldOut_cons, hc]; exact hb', hP⟩

end Sys2Proof.Machine
end

