-- ==== Sys2Proof/Laws/Actions.lean ====
section
/-! SUPPORT. Sys2Proof/Laws/Actions.lean: what an action can do: its footprint is sound (R90). -/

namespace Sys2Proof.Machine

theorem transpose_eq_next {vd : LRegNum} {x y : Sfpu} :
    transpose vd x = .next y ↔
      transpGuard vd x = true ∧ y = { x with lreg := transposeRegs x.laneIsEnabled x.lreg } := by
  unfold transpose
  cases transpGuard vd x with
  | false => exact ⟨fun h => (nomatch h), fun h => absurd h.1 (by decide)⟩
  | true => exact ⟨fun h => ⟨rfl, (Host.Outcome.next.inj h).symm⟩, fun h => congrArg _ h.2.symm⟩

/-- The guard of R102. -/
theorem transpGuard_iff {vd : LRegNum} {x : Sfpu} :
    transpGuard vd x = true ↔ vd.val < 12 ∨ x.disableBackdoorLoad = true := by
  rw [transpGuard, Bool.or_eq_true, decide_eq_true_eq]

@[simp] theorem transposeRegs_getElem (enabled : Lane → Bool) (old : LRegFile) (r : LRegNum) (l : Lane) :
    (transposeRegs enabled old)[r][l] =
      if r.val < 8 ∧ enabled l = true then
        old[groupReg (decide (4 ≤ r.val)) (laneRow l)][laneAt ⟨r.val % 4, by omega⟩ (laneCol l)]
      else old[r][l] := by
  simp [transposeRegs]

/-- Registers from 8 on, `LReg[16]` among them, keep their contents. -/
theorem transposeRegs_high (enabled : Lane → Bool) (old : LRegFile) {r : LRegNum} (hr : 8 ≤ r.val) :
    (transposeRegs enabled old)[r] = old[r] := by
  ext l hl : 1
  have := transposeRegs_getElem enabled old r ⟨l, hl⟩
  rw [if_neg (by omega)] at this
  exact this

theorem lregOf3_lt (vd : BitVec 3) : (lregOf3 vd).val < 8 := by
  simp only [lregOf3]; omega

/-- What `SFPLOAD_sem` may write. -/
theorem LoadOps.mayWrite_iff {ops : LoadOps} {loc : Loc} :
    ops.mayWrite loc = true ↔ loc.isLreg16 = false ∧ loc.isMacroConfig = false ∧
      (ops.ofMacro = true → loc.isHighLreg = false ∧ loc.isLaneEnabled = false) := by
  rw [LoadOps.mayWrite]
  cases loc.isLreg16 <;> cases loc.isMacroConfig <;> cases ops.ofMacro <;> cases loc.isHighLreg <;>
    cases loc.isLaneEnabled <;> decide

theorem LoadOps.mayRead_iff {ops : LoadOps} {loc : Loc} :
    ops.mayRead loc = true ↔ loc.isLreg16 = false ∧ (ops.ofMacro = true → loc.isHighLreg = false) := by
  rw [LoadOps.mayRead]
  cases loc.isLreg16 <;> cases ops.ofMacro <;> cases loc.isHighLreg <;> decide

theorem LoadOps.ofMacro_iff {ops : LoadOps} : ops.ofMacro = true ↔ ops.vd.val < 8 ∧ ops.mod0 = loadMod0 := by
  rw [LoadOps.ofMacro, Bool.and_eq_true, decide_eq_true_eq, beq_iff_eq]

theorem mem_loadWrites {ops : LoadOps} {loc : Loc} :
    loc ∈ loadWrites ops ↔ ((∃ l, .lreg ops.vd l = loc) ∨ loc ∈ Config.loadWrites ops) ∧ ops.mayWrite loc = true := by
  simp only [loadWrites, List.mem_filter, List.mem_append, List.mem_map, mem_allLanes, true_and]

theorem loadWrites_not_macroConfig {ops : LoadOps} {loc : Loc} (h : loc ∈ loadWrites ops) : loc.isMacroConfig = false :=
  (LoadOps.mayWrite_iff.1 (mem_loadWrites.1 h).2).2.1

theorem loadWrites_lreg {ops : LoadOps} (h : ops.vd ≠ lreg16) (l : Lane) : Loc.lreg ops.vd l ∈ loadWrites ops := by
  refine mem_loadWrites.2 ⟨.inl ⟨l, rfl⟩, LoadOps.mayWrite_iff.2 ⟨beq_eq_false_iff_ne.2 h, rfl, fun hm => ⟨?_, rfl⟩⟩⟩
  have := (LoadOps.ofMacro_iff.1 hm).1
  exact decide_eq_false (by omega)

/-- The load writes its list of locations and nothing else: its footprint leaves `LoadMacroConfig` out. -/
theorem loadSem_eq_assign (ops : LoadOps) (x : Sfpu) : loadSem ops x = x.assign (loadWrites ops) (loadValue ops x) := by
  have h : (x.assign (loadWrites ops) (loadValue ops x)).loadMacroConfig = x.loadMacroConfig := by
    refine Sfpu.writeList_loadMacroConfig x _ fun p hp => ?_
    obtain ⟨loc, hl, hm⟩ := List.mem_filterMap.1 hp
    obtain ⟨w, -, rfl⟩ := Option.map_eq_some_iff.1 hm
    exact loadWrites_not_macroConfig hl
  unfold loadSem
  rw [← h]

theorem loadSem_wf {x : Sfpu} (hx : x.wf) (ops : LoadOps) : (loadSem ops x).wf := by
  rw [loadSem_eq_assign]
  exact Sfpu.assign_wf hx _ _

theorem loadSem_get_other (ops : LoadOps) (x : Sfpu) {loc : Loc} (h : loc ∉ loadWrites ops) :
    (loadSem ops x).get loc = x.get loc := by
  rw [loadSem_eq_assign]
  exact Sfpu.get_assign_other x _ _ h

theorem loadSem_get_mem {x : Sfpu} (ops : LoadOps) {loc : Loc} (hx : x.wfAt loc) (h : loc ∈ loadWrites ops) :
    (loadSem ops x).get loc = ((loadValue ops x loc).map (Loc.narrow loc)).getD (x.get loc) := by
  rw [loadSem_eq_assign]
  exact Sfpu.get_assign_mem hx _ _ h

/-- With the operands of an SFPLOADMACRO the load leaves `LReg[8..16]` and LaneEnabled alone. -/
theorem loadSem_ofMacro {ops : LoadOps} (h : ops.ofMacro = true) (x : Sfpu) {loc : Loc}
    (hloc : loc.isHighLreg = true ∨ loc.isLaneEnabled = true) : (loadSem ops x).get loc = x.get loc := by
  refine loadSem_get_other ops x fun hw => ?_
  have := (LoadOps.mayWrite_iff.1 (mem_loadWrites.1 hw).2).2.2 h
  rcases hloc with hl | hl
  · rw [this.1] at hl
    cases hl
  · rw [this.2] at hl
    cases hl

/-- The destination register: each lane takes the load's value, or stays as it is. -/
theorem loadSem_lreg {ops : LoadOps} (h : ops.vd ≠ lreg16) (x : Sfpu) (l : Lane) :
    (loadSem ops x).lreg[ops.vd][l] = (loadValue ops x (.lreg ops.vd l)).getD x.lreg[ops.vd][l] := by
  refine (loadSem_get_mem ops (Sfpu.wfAt_lreg x ops.vd l) (loadWrites_lreg h l)).trans ?_
  cases loadValue ops x (.lreg ops.vd l) <;> rfl

@[simp] theorem loadSem_loadMacroConfig (ops : LoadOps) (x : Sfpu) :
    (loadSem ops x).loadMacroConfig = x.loadMacroConfig := rfl

/-- An action keeps the canonical form of the sparse parts. -/
theorem Action.perform_wf {a : Action} {x y : Sfpu} (hx : x.wf) (h : a.perform x = .next y) : y.wf := by
  cases a with
  | transp vd =>
    obtain ⟨-, rfl⟩ := transpose_eq_next.1 h
    exact hx
  | load ops m =>
    cases h
    exact loadSem_wf hx ops
  | run i lanes sch cr =>
    cases h
    exact Sfpu.assign_wf hx _ _

/-- An action leaves alone every location outside its write footprint. -/
theorem Action.perform_other {a : Action} {x y : Sfpu} (h : a.perform x = .next y) {loc : Loc} (hloc : loc ∉ a.writes) :
    y.get loc = x.get loc := by
  cases a with
  | transp vd =>
    obtain ⟨-, rfl⟩ := transpose_eq_next.1 h
    cases loc with
    | lreg r l =>
      have hr : 8 ≤ r.val := by
        by_contra hlt
        exact hloc (mem_generalRegLocs.2 ⟨r, l, by omega, rfl⟩)
      change (transposeRegs _ _)[r][l] = _
      rw [transposeRegs_high _ _ hr]
      rfl
    | _ => rfl
  | load ops m =>
    cases h
    exact loadSem_get_other ops x hloc
  | run i lanes sch cr =>
    cases h
    exact Sfpu.get_assign_other _ _ _ hloc

theorem transp_reads_lreg {vd : LRegNum} {r : LRegNum} (hr : r.val < 8) (l : Lane) :
    Loc.lreg r l ∈ (Action.transp vd).reads := by
  simp only [Action.reads, List.mem_append, mem_generalRegLocs]
  exact .inl (.inl ⟨r, l, hr, rfl⟩)

theorem groupReg_lt (b : Bool) (i : Fin 4) : (groupReg b i).val < 8 := by
  cases b <;> simp [groupReg] <;> omega

/-- An action acts on two units that agree on its read footprint in the same way: where it may write and they agree, they
agree after it. -/
theorem Action.perform_local {a : Action} {x x' y : Sfpu} (hx : x.wf) (hy : y.wf)
    (hagree : ∀ loc ∈ a.reads, x.get loc = y.get loc) (h : a.perform x = .next x') :
    ∃ y', a.perform y = .next y' ∧ ∀ loc ∈ a.writes, x.get loc = y.get loc → x'.get loc = y'.get loc := by
  cases a with
  | transp vd =>
    obtain ⟨hg, rfl⟩ := transpose_eq_next.1 h
    have hdis : x.disableBackdoorLoad = y.disableBackdoorLoad := by
      have := hagree .disableBackdoorLoad (by simp [Action.reads])
      have hb : ∀ a b : Bool, wordOfBool a = wordOfBool b → a = b := by decide
      exact hb _ _ this
    have hen : x.laneIsEnabled = y.laneIsEnabled := by
      funext l
      have := hagree (.laneEnabled l) (by simp [Action.reads])
      have hb : ∀ a b : Bool, wordOfBool a = wordOfBool b → a = b := by decide
      exact hb _ _ this
    refine ⟨_, transpose_eq_next.2 ⟨?_, rfl⟩, ?_⟩
    · rw [← hg]
      simp only [transpGuard, hdis]
    · intro loc hloc _
      obtain ⟨r, l, hr, rfl⟩ := mem_generalRegLocs.1 hloc
      change (transposeRegs _ _)[r][l] = (transposeRegs _ _)[r][l]
      rw [transposeRegs_getElem, transposeRegs_getElem, hen]
      split
      · exact hagree (.lreg _ _) (transp_reads_lreg (groupReg_lt _ _) _)
      · exact hagree (.lreg _ _) (transp_reads_lreg hr _)
  | load ops m =>
    cases h
    refine ⟨_, rfl, fun loc hloc hsame => ?_⟩
    rw [loadSem_get_mem ops (Sfpu.wfAt_of_wf hx loc) hloc, loadSem_get_mem ops (Sfpu.wfAt_of_wf hy loc) hloc, hsame,
      loadValue, loadValue,
      List.map_congr_left fun loc' hloc' => hagree loc' (List.mem_append.2 (.inl hloc'))]
  | run i lanes sch cr =>
    cases h
    refine ⟨_, rfl, fun loc hloc hsame => ?_⟩
    have hvals : (Action.run i lanes sch cr).reads.map x.get = (Action.run i lanes sch cr).reads.map y.get :=
      List.map_congr_left hagree
    simp only [execOther]
    rw [Sfpu.get_assign_mem (Sfpu.wfAt_of_wf hx loc) _ _ hloc, Sfpu.get_assign_mem (Sfpu.wfAt_of_wf hy loc) _ _ hloc,
      hvals, hsame]

/-- Only SFPTRANSP under a false guard stops. -/
theorem Action.perform_completes {a : Action} {x : Sfpu}
    (h : ∀ vd, a = .transp vd → transpGuard vd x = true) : ∃ y, a.perform x = .next y := by
  cases a with
  | transp vd => exact ⟨_, transpose_eq_next.2 ⟨h vd rfl, rfl⟩⟩
  | load ops m => exact ⟨_, rfl⟩
  | run i lanes sch cr => exact ⟨_, rfl⟩

/-- An action answers a next unit or the refusal of R102. -/
theorem Action.perform_cases (a : Action) (x : Sfpu) :
    (∃ y, a.perform x = .next y) ∨ a.perform x = .refused .backdoorLoadOpen := by
  cases a with
  | transp vd =>
    by_cases h : transpGuard vd x = true
    · exact .inl ⟨_, transpose_eq_next.2 ⟨h, rfl⟩⟩
    · exact .inr (by simp [Action.perform, transpose, h])
  | load ops m => exact .inl ⟨_, rfl⟩
  | run i lanes sch cr => exact .inl ⟨_, rfl⟩

/-- Units that agree on an action's read footprint make it stop alike. -/
theorem Action.perform_refused_local {a : Action} {x y : Sfpu} (hx : x.wf) (hy : y.wf)
    (hagree : ∀ loc ∈ a.reads, x.get loc = y.get loc) (h : a.perform x = .refused .backdoorLoadOpen) :
    a.perform y = .refused .backdoorLoadOpen := by
  refine (Action.perform_cases a y).resolve_left ?_
  rintro ⟨z, hz⟩
  obtain ⟨w, hw, -⟩ := Action.perform_local hy hx (fun loc hl => (hagree loc hl).symm) hz
  rw [h] at hw
  cases hw

/-- What the absence of a conflict says (R90). -/
theorem Action.conflicts_eq_false {a b : Action} :
    a.conflicts b = false ↔
      (∀ loc ∈ a.writes, loc ∉ b.reads ∧ loc ∉ b.writes) ∧ ∀ loc ∈ b.writes, loc ∉ a.reads := by
  simp only [Action.conflicts, Bool.or_eq_false_iff, List.any_eq_false, Bool.or_eq_true, decide_eq_true_eq, not_or]

/-- What is in the read footprint of an execution by `ExecSFPU`. -/
theorem mem_run_reads {i : Insn} {lanes : LaneMask} {sch cr : Bool} {loc : Loc} :
    loc ∈ (Action.run i lanes sch cr).reads ↔
      ∃ l, lanes.getLsbD l.val = true ∧ loc ∈ Config.reads i l ∧ i.mayRead sch loc = true ∧
        (cr = true ∨ loc.onLane l = true) := by
  simp [Action.reads, Insn.laneReads, lanesOf]

/-- What is in the write footprint of an execution by `ExecSFPU`. -/
theorem mem_run_writes {i : Insn} {lanes : LaneMask} {sch cr : Bool} {loc : Loc} :
    loc ∈ (Action.run i lanes sch cr).writes ↔
      ∃ l, lanes.getLsbD l.val = true ∧ loc ∈ Config.writes i l ∧ i.mayWrite sch loc = true ∧
        (cr = true ∨ loc.onLane l = true) := by
  simp [Action.writes, Insn.laneWrites, lanesOf]

/-- An execution that is not cross-lane touches no lane but its own (R70). -/
theorem Loc.lane_of_onLane {l l' : Lane} {loc : Loc} (h : loc.onLane l = true) (hl : loc.lane? = some l') : l' = l := by
  simpa [Loc.onLane, hl] using h

theorem Action.run_writes_lane {i : Insn} {lanes : LaneMask} {sch : Bool} {loc : Loc} {l : Lane}
    (h : loc ∈ (Action.run i lanes sch false).writes) (hl : loc.lane? = some l) : lanes.getLsbD l.val = true := by
  obtain ⟨l', hlane, -, -, hor⟩ := mem_run_writes.1 h
  rw [Loc.lane_of_onLane (hor.resolve_left Bool.false_ne_true) hl]
  exact hlane

theorem Action.run_reads_lane {i : Insn} {lanes : LaneMask} {sch : Bool} {loc : Loc} {l : Lane}
    (h : loc ∈ (Action.run i lanes sch false).reads) (hl : loc.lane? = some l) : lanes.getLsbD l.val = true := by
  obtain ⟨l', hlane, -, -, hor⟩ := mem_run_reads.1 h
  rw [Loc.lane_of_onLane (hor.resolve_left Bool.false_ne_true) hl]
  exact hlane

/-- `LReg[16]` is in an action's write footprint only for a scheduled instruction with VD = 16 (R12). -/
theorem Action.writes_lreg16 {a : Action} {l : Lane} (h : Loc.lreg lreg16 l ∈ a.writes) :
    ∃ i lanes cr, a = .run i lanes true cr ∧ i.op ≠ .sfpstore ∧ i.vd = lreg16 := by
  cases a with
  | transp vd =>
    obtain ⟨r, l', hr, he⟩ := mem_generalRegLocs.1 h
    cases he
    exact absurd hr (by decide)
  | load ops m =>
    have he := (LoadOps.mayWrite_iff.1 (mem_loadWrites.1 h).2).1
    simp [Loc.isLreg16] at he
  | run i lanes sch cr =>
    obtain ⟨-, -, -, this, -⟩ := mem_run_writes.1 h
    simp only [Insn.mayWrite, Loc.isLreg16, Bool.and_eq_true, Bool.or_eq_true, beq_self_eq_true, Bool.not_true,
      Bool.false_eq_true, false_or, bne_iff_ne, beq_iff_eq] at this
    obtain ⟨⟨⟨hs, hop⟩, hvd⟩, -⟩ := this
    exact ⟨i, lanes, cr, by rw [hs], hop, hvd⟩

/-- `LReg[16]` is in an action's read footprint only for a scheduled SFPSTORE with VD = 16 (R12). -/
theorem Action.reads_lreg16 {a : Action} {l : Lane} (h : Loc.lreg lreg16 l ∈ a.reads) :
    ∃ i lanes cr, a = .run i lanes true cr ∧ i.op = .sfpstore ∧ i.vd = lreg16 := by
  cases a with
  | transp vd =>
    simp only [Action.reads, List.mem_append, mem_generalRegLocs, List.mem_map, List.mem_singleton] at h
    rcases h with (⟨r, l', hr, he⟩ | ⟨l', -, he⟩) | he
    · cases he
      exact absurd hr (by decide)
    · cases he
    · cases he
  | load ops m =>
    simp only [Action.reads, List.mem_append, loadReads, List.mem_filter, LoadOps.mayRead_iff] at h
    rcases h with ⟨-, he⟩ | he
    · simp [Loc.isLreg16] at he
    · split at he
      · rw [mem_configLocs] at he
        cases he
      · cases he
  | run i lanes sch cr =>
    obtain ⟨-, -, -, this, -⟩ := mem_run_reads.1 h
    simp only [Insn.mayRead, Loc.isLreg16, Bool.and_eq_true, Bool.or_eq_true, beq_self_eq_true, Bool.not_true,
      Bool.false_eq_true, false_or, beq_iff_eq] at this
    obtain ⟨⟨hs, hop⟩, hvd⟩ := this
    exact ⟨i, lanes, cr, by rw [hs], hop, hvd⟩

/-- `LoadMacroConfig` is in an action's write footprint only for SFPCONFIG (R14). -/
theorem Action.writes_macroConfig {a : Action} {loc : Loc} (hc : loc.isMacroConfig = true) (h : loc ∈ a.writes) :
    ∃ i lanes sch cr, a = .run i lanes sch cr ∧ i.op = .sfpconfig := by
  cases a with
  | transp vd =>
    obtain ⟨r, l', hr, rfl⟩ := mem_generalRegLocs.1 h
    cases hc
  | load ops m =>
    rw [loadWrites_not_macroConfig h] at hc
    cases hc
  | run i lanes sch cr =>
    obtain ⟨-, -, -, this, -⟩ := mem_run_writes.1 h
    simp only [Insn.mayWrite, hc, Bool.and_eq_true, Bool.or_eq_true, Bool.not_true, Bool.false_eq_true, false_or,
      beq_iff_eq] at this
    exact ⟨i, lanes, sch, cr, rfl, this.2⟩

/-- A list of actions keeps every property that each of them keeps. -/
theorem performAll_preserves {acts : List Action} {P : Sfpu → Prop}
    (hstep : ∀ a ∈ acts, ∀ x y, P x → a.perform x = .next y → P y) {x y : Sfpu} (hx : P x)
    (h : performAll acts x = .next y) : P y :=
  foldOut_preserves hstep hx h

/-- What co-execution can do (R90), whatever the policy: a property that each due action keeps, performed on any unit
and laid over any unit, holds at the end. -/
theorem coexecute_preserves {p : CyclePolicy} {pre x y : Sfpu} {reg : Option Action} {due : List Action}
    {P : Sfpu → Prop}
    (hseq : ∀ a ∈ due, ∀ z z', P z → a.perform z = .next z' → P z')
    (hold : ∀ a ∈ due, ∀ z post, P z → a.perform pre = .next post → P (z.overlay a.writes post))
    (hx : P x) (h : coexecute p pre reg due x = .next y) : P y := by
  cases p with
  | refuse =>
    simp only [coexecute] at h
    split at h
    · exact performAll_preserves hseq hx h
    · cases h
  | old =>
    simp only [coexecute] at h
    split at h
    · refine foldOut_preserves (fun a ha z z' hz hz' => ?_) hx h
      obtain ⟨post, hpost, he⟩ := andThen_eq_next.1 hz'
      cases he
      exact hold a ha z post hz hpost
    · cases h
  | unitOrder => exact performAll_preserves hseq hx h

@[simp] theorem coexecute_nil (p : CyclePolicy) (pre x : Sfpu) (reg : Option Action) :
    coexecute p pre reg [] x = .next x := by
  cases p <;> cases reg <;> simp [coexecute, performAll, performOld]

/-- A location outside the write footprint of every due action keeps its contents. -/
theorem coexecute_other {p : CyclePolicy} {pre x y : Sfpu} {reg : Option Action} {due : List Action} {loc : Loc}
    (hloc : ∀ a ∈ due, loc ∉ a.writes) (h : coexecute p pre reg due x = .next y) : y.get loc = x.get loc :=
  coexecute_preserves (P := fun z => z.get loc = x.get loc)
    (fun a ha _ _ hz hz' => (Action.perform_other hz' (hloc a ha)).trans hz)
    (fun a ha _ _ hz _ => (Sfpu.get_overlay_other _ _ _ (hloc a ha)).trans hz) rfl h

theorem coexecute_wf {p : CyclePolicy} {pre x y : Sfpu} {reg : Option Action} {due : List Action} (hx : x.wf)
    (h : coexecute p pre reg due x = .next y) : y.wf :=
  coexecute_preserves (P := fun z => z.wf) (fun _ _ _ _ hz hz' => Action.perform_wf hz hz')
    (fun _ _ _ _ hz _ => Sfpu.overlay_wf hz _ _) hx h

end Sys2Proof.Machine
end

