-- ==== Sys2Proof/Laws/State.lean ====
section
/-! SUPPORT. Sys2Proof/Laws/State.lean: one lemma for each field and each update of the state. -/

namespace Sys2Proof.Machine

/-! ## withSfpu -/

@[simp] theorem State.withSfpu_sfpu (s : State) (x : Sfpu) : (s.withSfpu x).sfpu = x := rfl
@[simp] theorem State.withSfpu_sched (s : State) (x : Sfpu) : (s.withSfpu x).sched = s.sched := rfl
@[simp] theorem State.withSfpu_inFlight (s : State) (x : Sfpu) : (s.withSfpu x).inFlight = s.inFlight := rfl
@[simp] theorem State.withSfpu_fpuDistance (s : State) (x : Sfpu) : (s.withSfpu x).fpuDistance = s.fpuDistance := rfl
@[simp] theorem State.withSfpu_threads (s : State) (x : Sfpu) : (s.withSfpu x).threads = s.threads := rfl
@[simp] theorem State.withSfpu_loadRaises (s : State) (x : Sfpu) : (s.withSfpu x).loadRaises = s.loadRaises := rfl
@[simp] theorem State.withSfpu_issuer (s : State) (x : Sfpu) : (s.withSfpu x).issuer = s.issuer := rfl
@[simp] theorem State.withSfpu_inputs (s : State) (x : Sfpu) : (s.withSfpu x).inputs = s.inputs := rfl
@[simp] theorem State.withSfpu_params (s : State) (x : Sfpu) : (s.withSfpu x).params = s.params := rfl
@[simp] theorem State.withSfpu_faultMark (s : State) (x : Sfpu) : (s.withSfpu x).faultMark = s.faultMark := rfl
@[simp] theorem State.withSfpu_refusalMark (s : State) (x : Sfpu) : (s.withSfpu x).refusalMark = s.refusalMark := rfl
@[simp] theorem State.withSfpu_queue (s : State) (x : Sfpu) (l : Lane) (u : SubUnit) :
    (s.withSfpu x).queue l u = s.queue l u := rfl
@[simp] theorem State.withSfpu_self (s : State) : s.withSfpu s.sfpu = s := rfl

/-! ## setQueue -/

@[simp] theorem State.setQueue_sfpu (s : State) (l : Lane) (u : SubUnit) (q : List Entry) :
    (s.setQueue l u q).sfpu = s.sfpu := rfl
@[simp] theorem State.setQueue_inFlight (s : State) (l : Lane) (u : SubUnit) (q : List Entry) :
    (s.setQueue l u q).inFlight = s.inFlight := rfl
@[simp] theorem State.setQueue_fpuDistance (s : State) (l : Lane) (u : SubUnit) (q : List Entry) :
    (s.setQueue l u q).fpuDistance = s.fpuDistance := rfl
@[simp] theorem State.setQueue_threads (s : State) (l : Lane) (u : SubUnit) (q : List Entry) :
    (s.setQueue l u q).threads = s.threads := rfl
@[simp] theorem State.setQueue_loadRaises (s : State) (l : Lane) (u : SubUnit) (q : List Entry) :
    (s.setQueue l u q).loadRaises = s.loadRaises := rfl
@[simp] theorem State.setQueue_issuer (s : State) (l : Lane) (u : SubUnit) (q : List Entry) :
    (s.setQueue l u q).issuer = s.issuer := rfl
@[simp] theorem State.setQueue_inputs (s : State) (l : Lane) (u : SubUnit) (q : List Entry) :
    (s.setQueue l u q).inputs = s.inputs := rfl
@[simp] theorem State.setQueue_params (s : State) (l : Lane) (u : SubUnit) (q : List Entry) :
    (s.setQueue l u q).params = s.params := rfl
@[simp] theorem State.setQueue_faultMark (s : State) (l : Lane) (u : SubUnit) (q : List Entry) :
    (s.setQueue l u q).faultMark = s.faultMark := rfl
@[simp] theorem State.setQueue_refusalMark (s : State) (l : Lane) (u : SubUnit) (q : List Entry) :
    (s.setQueue l u q).refusalMark = s.refusalMark := rfl

theorem SubUnit.number_injective {u u' : SubUnit} (h : u.number = u'.number) : u = u' := by
  revert h; cases u <;> cases u' <;> decide

@[simp] theorem State.queue_setQueue_same (s : State) (l : Lane) (u : SubUnit) (q : List Entry) :
    (s.setQueue l u q).queue l u = q := by
  simp only [State.queue, State.setQueue, vector_set_getElem, if_true]

theorem State.queue_setQueue_other (s : State) {l l' : Lane} {u u' : SubUnit} (h : (l', u') ≠ (l, u))
    (q : List Entry) : (s.setQueue l u q).queue l' u' = s.queue l' u' := by
  simp only [State.queue, State.setQueue, vector_set_getElem]
  by_cases hl : l = l'
  · subst hl
    have hu : u.number ≠ u'.number := fun hu => h (by rw [SubUnit.number_injective hu])
    simp only [if_true, vector_set_getElem, if_neg hu]
  · simp only [if_neg hl]

/-! ## advanceSched -/

@[simp] theorem advanceSched_sfpu (b : Bool) (s : State) : (advanceSched b s).sfpu = s.sfpu := rfl
@[simp] theorem advanceSched_inFlight (b : Bool) (s : State) : (advanceSched b s).inFlight = s.inFlight := rfl
@[simp] theorem advanceSched_fpuDistance (b : Bool) (s : State) : (advanceSched b s).fpuDistance = s.fpuDistance := rfl
@[simp] theorem advanceSched_threads (b : Bool) (s : State) : (advanceSched b s).threads = s.threads := rfl
@[simp] theorem advanceSched_loadRaises (b : Bool) (s : State) : (advanceSched b s).loadRaises = s.loadRaises := rfl
@[simp] theorem advanceSched_issuer (b : Bool) (s : State) : (advanceSched b s).issuer = s.issuer := rfl
@[simp] theorem advanceSched_inputs (b : Bool) (s : State) : (advanceSched b s).inputs = s.inputs := rfl
@[simp] theorem advanceSched_params (b : Bool) (s : State) : (advanceSched b s).params = s.params := rfl
@[simp] theorem advanceSched_faultMark (b : Bool) (s : State) : (advanceSched b s).faultMark = s.faultMark := rfl
@[simp] theorem advanceSched_refusalMark (b : Bool) (s : State) : (advanceSched b s).refusalMark = s.refusalMark := rfl
@[simp] theorem advanceSched_queue (b : Bool) (s : State) (l : Lane) (u : SubUnit) :
    (advanceSched b s).queue l u = (pendingEntries (s.queue l u)).map (Entry.countDown b) := by
  simp [State.queue, advanceSched]

/-! ## advanceThread -/

@[simp] theorem advanceThread_sfpu (i : Option (Fin Config.nThreads × Word)) (s : State) :
    (advanceThread i s).sfpu = s.sfpu := by cases i <;> rfl
@[simp] theorem advanceThread_sched (i : Option (Fin Config.nThreads × Word)) (s : State) :
    (advanceThread i s).sched = s.sched := by cases i <;> rfl
@[simp] theorem advanceThread_inFlight (i : Option (Fin Config.nThreads × Word)) (s : State) :
    (advanceThread i s).inFlight = s.inFlight := by cases i <;> rfl
@[simp] theorem advanceThread_fpuDistance (i : Option (Fin Config.nThreads × Word)) (s : State) :
    (advanceThread i s).fpuDistance = s.fpuDistance := by cases i <;> rfl
@[simp] theorem advanceThread_loadRaises (i : Option (Fin Config.nThreads × Word)) (s : State) :
    (advanceThread i s).loadRaises = s.loadRaises := by cases i <;> rfl
@[simp] theorem advanceThread_issuer (i : Option (Fin Config.nThreads × Word)) (s : State) :
    (advanceThread i s).issuer = (i.map Prod.fst).getD s.issuer := by cases i <;> rfl
@[simp] theorem advanceThread_inputs (i : Option (Fin Config.nThreads × Word)) (s : State) :
    (advanceThread i s).inputs = s.inputs := by cases i <;> rfl
@[simp] theorem advanceThread_params (i : Option (Fin Config.nThreads × Word)) (s : State) :
    (advanceThread i s).params = s.params := by cases i <;> rfl
@[simp] theorem advanceThread_faultMark (i : Option (Fin Config.nThreads × Word)) (s : State) :
    (advanceThread i s).faultMark = s.faultMark := by cases i <;> rfl
@[simp] theorem advanceThread_refusalMark (i : Option (Fin Config.nThreads × Word)) (s : State) :
    (advanceThread i s).refusalMark = s.refusalMark := by cases i <;> rfl
@[simp] theorem advanceThread_queue (i : Option (Fin Config.nThreads × Word)) (s : State) (l : Lane) (u : SubUnit) :
    (advanceThread i s).queue l u = s.queue l u := by cases i <;> rfl
@[simp] theorem advanceThread_none (s : State) : advanceThread none s = s := rfl

/-! ## applyInput and the start of a cycle -/

@[simp] theorem applyInput_lreg (c : CycleInput) (s : State) : (applyInput c s).sfpu.lreg = s.sfpu.lreg := rfl
@[simp] theorem applyInput_loadMacroConfig (c : CycleInput) (s : State) :
    (applyInput c s).sfpu.loadMacroConfig = s.sfpu.loadMacroConfig := rfl
@[simp] theorem applyInput_disableBackdoorLoad (c : CycleInput) (s : State) :
    (applyInput c s).sfpu.disableBackdoorLoad = s.sfpu.disableBackdoorLoad := rfl
@[simp] theorem applyInput_laneEnabled (c : CycleInput) (s : State) :
    (applyInput c s).sfpu.laneEnabled = c.laneEnabled.getD s.sfpu.laneEnabled := rfl
@[simp] theorem applyInput_addrCounters (c : CycleInput) (s : State) :
    (applyInput c s).sfpu.addrCounters = s.sfpu.addrCounters := rfl
@[simp] theorem applyInput_sched (c : CycleInput) (s : State) : (applyInput c s).sched = s.sched := rfl
@[simp] theorem applyInput_inFlight (c : CycleInput) (s : State) : (applyInput c s).inFlight = s.inFlight := rfl
@[simp] theorem applyInput_threads (c : CycleInput) (s : State) : (applyInput c s).threads = s.threads := rfl
@[simp] theorem applyInput_loadRaises (c : CycleInput) (s : State) : (applyInput c s).loadRaises = c.loadRaises := rfl
@[simp] theorem applyInput_issuer (c : CycleInput) (s : State) : (applyInput c s).issuer = s.issuer := rfl
@[simp] theorem applyInput_inputs (c : CycleInput) (s : State) : (applyInput c s).inputs = s.inputs := rfl
@[simp] theorem applyInput_params (c : CycleInput) (s : State) : (applyInput c s).params = s.params := rfl
@[simp] theorem applyInput_faultMark (c : CycleInput) (s : State) : (applyInput c s).faultMark = s.faultMark := rfl
@[simp] theorem applyInput_refusalMark (c : CycleInput) (s : State) :
    (applyInput c s).refusalMark = s.refusalMark := rfl
@[simp] theorem applyInput_queue (c : CycleInput) (s : State) (l : Lane) (u : SubUnit) :
    (applyInput c s).queue l u = s.queue l u := rfl

/-- An idle environment changes nothing but its own word on the load. -/
@[simp] theorem applyInput_idle (s : State) : applyInput CycleInput.idle s = { s with loadRaises := false } := rfl

@[simp] theorem State.atCycleStart_queue (s : State) (l : Lane) (u : SubUnit) :
    s.atCycleStart.queue l u = s.queue l u := rfl
@[simp] theorem State.atCycleStart_threads (s : State) : s.atCycleStart.threads = s.threads := rfl
@[simp] theorem State.atCycleStart_inputs (s : State) : s.atCycleStart.inputs = s.inputs.tail := rfl
@[simp] theorem State.atCycleStart_params (s : State) : s.atCycleStart.params = s.params := rfl
@[simp] theorem State.atCycleStart_loadRaises (s : State) : s.atCycleStart.loadRaises = s.nextInput.loadRaises := rfl
@[simp] theorem State.atCycleStart_issuer (s : State) : s.atCycleStart.issuer = s.issuer := rfl
@[simp] theorem State.atCycleStart_inFlight (s : State) : s.atCycleStart.inFlight = s.inFlight := rfl
@[simp] theorem State.atCycleStart_faultMark (s : State) : s.atCycleStart.faultMark = s.faultMark := rfl
@[simp] theorem State.atCycleStart_refusalMark (s : State) : s.atCycleStart.refusalMark = s.refusalMark := rfl
@[simp] theorem State.atCycleStart_lreg (s : State) : s.atCycleStart.sfpu.lreg = s.sfpu.lreg := rfl
@[simp] theorem State.atCycleStart_loadMacroConfig (s : State) :
    s.atCycleStart.sfpu.loadMacroConfig = s.sfpu.loadMacroConfig := rfl

/-! ## beforeRegular -/

@[simp] theorem beforeRegular_sfpu (c : CycleInput) (s : State) : (beforeRegular c s).sfpu = s.sfpu := by
  simp [beforeRegular]
@[simp] theorem beforeRegular_inFlight (c : CycleInput) (s : State) :
    (beforeRegular c s).inFlight = s.inFlight := by simp [beforeRegular]
@[simp] theorem beforeRegular_fpuDistance (c : CycleInput) (s : State) :
    (beforeRegular c s).fpuDistance = s.fpuDistance := by simp [beforeRegular]
@[simp] theorem beforeRegular_loadRaises (c : CycleInput) (s : State) :
    (beforeRegular c s).loadRaises = s.loadRaises := by simp [beforeRegular]
@[simp] theorem beforeRegular_issuer (c : CycleInput) (s : State) :
    (beforeRegular c s).issuer = ((issueOf c s).map Prod.fst).getD s.issuer := by simp [beforeRegular]
@[simp] theorem beforeRegular_inputs (c : CycleInput) (s : State) :
    (beforeRegular c s).inputs = s.inputs := by simp [beforeRegular]
@[simp] theorem beforeRegular_params (c : CycleInput) (s : State) :
    (beforeRegular c s).params = s.params := by simp [beforeRegular]
@[simp] theorem beforeRegular_faultMark (c : CycleInput) (s : State) :
    (beforeRegular c s).faultMark = s.faultMark := by simp [beforeRegular]
@[simp] theorem beforeRegular_refusalMark (c : CycleInput) (s : State) :
    (beforeRegular c s).refusalMark = s.refusalMark := by simp [beforeRegular]
@[simp] theorem beforeRegular_queue (c : CycleInput) (s : State) (l : Lane) (u : SubUnit) :
    (beforeRegular c s).queue l u =
      (pendingEntries (s.queue l u)).map (Entry.countDown (issueOf c s).isSome) := by
  simp [beforeRegular]

end Sys2Proof.Machine
end

