-- ==== Sys2Proof/Laws/LoadMacro.lean ====
section
/-! SUPPORT. Sys2Proof/Laws/LoadMacro.lean: what the two instructions can do. -/

namespace Sys2Proof.Machine

theorem lanesAndUnits_nodup : lanesAndUnits.Nodup := by decide +kernel

theorem scheduleOne_eq_next {m : BitVec 2} {vd : BitVec 3} {mod0 : BitVec 4} {l : Lane} {u : SubUnit} {s t : State} :
    scheduleOne m vd mod0 (l, u) s = .next t ↔
      ∃ e, buildEntry s.params s.sfpu.loadMacroConfig[l] m vd mod0 l u = .next e ∧
        t = (match e with
          | none => s
          | some e => s.setQueue l u (forgetAndSchedule (s.queue l u) e)) := by
  rw [scheduleOne, andThen_eq_next]
  constructor
  · rintro ⟨e, he, h⟩
    refine ⟨e, he, ?_⟩
    cases e <;> cases h <;> rfl
  · rintro ⟨e, he, rfl⟩
    exact ⟨e, he, by cases e <;> rfl⟩

/-- The scheduling loop over a list of pairs without repeats, whole: which entries are built, what the queues of those
pairs hold, that the other queues keep their contents, and that nothing but `Sched` changes. -/
theorem scheduleList_spec {m : BitVec 2} {vd : BitVec 3} {mod0 : BitVec 4} {ps : List (Lane × SubUnit)}
    (hnd : ps.Nodup) {s t : State} (h : foldOut (scheduleOne m vd mod0) ps s = .next t) :
    (∀ l u, (l, u) ∈ ps → ∃ e, buildEntry s.params s.sfpu.loadMacroConfig[l] m vd mod0 l u = .next e ∧
        t.queue l u = queueAfter (s.queue l u) e) ∧
      (∀ l u, (l, u) ∉ ps → t.queue l u = s.queue l u) ∧ t = { s with sched := t.sched } := by
  induction ps generalizing s with
  | nil =>
    cases h
    exact ⟨fun _ _ h => (nomatch h), fun _ _ _ => rfl, rfl⟩
  | cons p ps ih =>
    obtain ⟨l, u⟩ := p
    obtain ⟨hp, hnd'⟩ := List.nodup_cons.1 hnd
    obtain ⟨s', hs', hrest⟩ := andThen_eq_next.1 h
    obtain ⟨e, he, hs'eq⟩ := scheduleOne_eq_next.1 hs'
    have hframe : s' = { s with sched := s'.sched } := by subst hs'eq; cases e <;> rfl
    have hself : s'.queue l u = queueAfter (s.queue l u) e := by
      subst hs'eq
      cases e with
      | none => rfl
      | some e => exact State.queue_setQueue_same s l u _
    have hother : ∀ l' u', (l', u') ≠ (l, u) → s'.queue l' u' = s.queue l' u' := by
      intro l' u' hne
      subst hs'eq
      cases e with
      | none => rfl
      | some e => exact State.queue_setQueue_other s hne _
    have hsfpu : s'.sfpu = s.sfpu := by rw [hframe]
    have hparams : s'.params = s.params := by rw [hframe]
    obtain ⟨hin, hout, hfr⟩ := ih hnd' hrest
    refine ⟨?_, ?_, ?_⟩
    · intro l' u' hmem
      by_cases hne : (l', u') = (l, u)
      · cases hne
        exact ⟨e, he, by rw [hout l u hp, hself]⟩
      · obtain ⟨e', he', hq⟩ := hin l' u' ((List.mem_cons.1 hmem).resolve_left hne)
        rw [hsfpu, hparams] at he'
        exact ⟨e', he', by rw [hq, hother l' u' hne]⟩
    · intro l' u' hmem
      rw [List.mem_cons, not_or] at hmem
      rw [hout l' u' hmem.2, hother l' u' hmem.1]
    · rw [hfr, hframe]

/-- The scheduling loop completes exactly when every entry can be built. -/
theorem scheduleList_completes {m : BitVec 2} {vd : BitVec 3} {mod0 : BitVec 4} {ps : List (Lane × SubUnit)} {s : State}
    (h : ∀ l u, (l, u) ∈ ps → ∃ e, buildEntry s.params s.sfpu.loadMacroConfig[l] m vd mod0 l u = .next e) :
    ∃ t, foldOut (scheduleOne m vd mod0) ps s = .next t := by
  induction ps generalizing s with
  | nil => exact ⟨s, rfl⟩
  | cons p ps ih =>
    obtain ⟨l, u⟩ := p
    obtain ⟨e, he⟩ := h l u List.mem_cons_self
    have hone := scheduleOne_eq_next.2 ⟨e, he, rfl⟩
    rw [foldOut_cons, hone, andThen_next]
    refine ih fun l' u' hmem => ?_
    obtain ⟨e', he'⟩ := h l' u' (List.mem_cons_of_mem _ hmem)
    exact ⟨e', by cases e <;> exact he'⟩

/-- If every entry before a pair can be built and the pair's cannot, the loop stops as that pair does. -/
theorem scheduleList_fault {m : BitVec 2} {vd : BitVec 3} {mod0 : BitVec 4} {ps qs : List (Lane × SubUnit)} {l : Lane}
    {u : SubUnit} {s : State} {f : Fault}
    (h : ∀ l u, (l, u) ∈ ps → ∃ e, buildEntry s.params s.sfpu.loadMacroConfig[l] m vd mod0 l u = .next e)
    (hf : buildEntry s.params s.sfpu.loadMacroConfig[l] m vd mod0 l u = .fault f) :
    foldOut (scheduleOne m vd mod0) (ps ++ (l, u) :: qs) s = .fault f := by
  induction ps generalizing s with
  | nil =>
    rw [List.nil_append, foldOut_cons, scheduleOne, hf]
    rfl
  | cons p ps ih =>
    obtain ⟨l', u'⟩ := p
    obtain ⟨e, he⟩ := h l' u' List.mem_cons_self
    have hone := scheduleOne_eq_next.2 ⟨e, he, rfl⟩
    rw [List.cons_append, foldOut_cons, hone, andThen_next]
    refine ih (fun l'' u'' hmem => ?_) ?_
    · obtain ⟨e', he'⟩ := h l'' u'' (List.mem_cons_of_mem _ hmem)
      exact ⟨e', by cases e <;> exact he'⟩
    · cases e <;> exact hf

/-- What a template selector chooses (R63). -/
theorem choose_template {c : MacroConfig} {sel : BitVec 3} {t : Fin 4} (ht : sel.toNat = t.val + 4) :
    choose c sel =
      match parse c.instructionTemplate[t] with
      | some i => .insn i
      | none => .noInstruction := by
  have hsel : sel = BitVec.ofNat 3 (t.val + 4) := by
    apply BitVec.eq_of_toNat_eq
    rw [ht, BitVec.toNat_ofNat]
    omega
  subst hsel
  match t with
  | 0 => rfl
  | 1 => rfl
  | 2 => rfl
  | 3 => rfl

@[simp] theorem loadPart_queue (ops : LoadOps) (s : State) (l : Lane) (u : SubUnit) :
    (loadPart ops s).queue l u = s.queue l u := rfl
@[simp] theorem loadPart_params (ops : LoadOps) (s : State) : (loadPart ops s).params = s.params := rfl
@[simp] theorem loadPart_sfpu (ops : LoadOps) (s : State) : (loadPart ops s).sfpu = loadSem ops s.sfpu := rfl

/-- The destination of the load part is a general-purpose register. -/
theorem macroLoadOps_vd_ne (vd am : BitVec 3) (i : BitVec 9) : (macroLoadOps vd am i).vd ≠ lreg16 := by
  intro h
  have := lregOf3_lt vd
  rw [show lregOf3 vd = lreg16 from h] at this
  exact absurd this (by decide)

theorem macroLoadOps_ofMacro (vd am : BitVec 3) (i : BitVec 9) : (macroLoadOps vd am i).ofMacro = true :=
  LoadOps.ofMacro_iff.2 ⟨lregOf3_lt vd, rfl⟩

/-- What a Blackhole SFPLOADMACRO can do when it answers a next state: no hazard, a load that does not raise, the load
performed, for every lane and sub-unit an entry built and its queue accordingly, and nothing else changed. -/
theorem execSfploadmacroBh_spec {m : BitVec 2} {vd : BitVec 3} {mod0 : BitVec 4} {am : BitVec 3} {i : BitVec 9}
    {s t : State} (h : execSfploadmacroBh m vd mod0 am i s = .next t) :
    dstHazard s am (imm10 i vd) = false ∧ s.loadRaises = false ∧
      (∀ l u, ∃ e, buildEntry s.params s.sfpu.loadMacroConfig[l] m vd mod0 l u = .next e ∧
        t.queue l u = queueAfter (s.queue l u) e) ∧
      t = { s with sfpu := loadSem (macroLoadOps vd am i) s.sfpu, sched := t.sched } := by
  unfold execSfploadmacroBh at h
  split at h
  · cases h
  · rename_i hz
    split at h
    · cases h
    · rename_i hl
      obtain ⟨hin, -, hfr⟩ := scheduleList_spec lanesAndUnits_nodup h
      exact ⟨by simpa using hz, by simpa using hl, fun l u => hin l u (mem_lanesAndUnits l u), hfr⟩

/-- Past the hazard and the load's own stop, SFPLOADMACRO is the scheduling loop on the state after the load. -/
theorem execSfploadmacroBh_eq {m : BitVec 2} {vd : BitVec 3} {mod0 : BitVec 4} {am : BitVec 3} {i : BitVec 9}
    {s : State} (hz : dstHazard s am (imm10 i vd) = false) (hl : s.loadRaises = false) :
    execSfploadmacroBh m vd mod0 am i s = scheduleAll m vd mod0 (loadPart (macroLoadOps vd am i) s) := by
  rw [execSfploadmacroBh, hz, if_neg Bool.false_ne_true, hl, if_neg Bool.false_ne_true]

/-- When a Blackhole SFPLOADMACRO completes. -/
theorem execSfploadmacroBh_completes {m : BitVec 2} {vd : BitVec 3} {mod0 : BitVec 4} {am : BitVec 3} {i : BitVec 9}
    {s : State} (hz : dstHazard s am (imm10 i vd) = false) (hl : s.loadRaises = false)
    (hb : ∀ l u, ∃ e, buildEntry s.params s.sfpu.loadMacroConfig[l] m vd mod0 l u = .next e) :
    ∃ t, execSfploadmacroBh m vd mod0 am i s = .next t := by
  rw [execSfploadmacroBh_eq hz hl]
  exact scheduleList_completes fun l u _ => hb l u

/-- Where a Blackhole SFPLOADMACRO faults: at the first lane and sub-unit whose entry cannot be built. -/
theorem execSfploadmacroBh_fault {m : BitVec 2} {vd : BitVec 3} {mod0 : BitVec 4} {am : BitVec 3} {i : BitVec 9}
    {s : State} {l : Lane} {u : SubUnit} {before after : List (Lane × SubUnit)} {f : Fault}
    (hz : dstHazard s am (imm10 i vd) = false) (hl : s.loadRaises = false)
    (hsplit : lanesAndUnits = before ++ (l, u) :: after)
    (hbefore : ∀ p ∈ before, ∃ o, buildEntry s.params s.sfpu.loadMacroConfig[p.1] m vd mod0 p.1 p.2 = .next o)
    (hf : buildEntry s.params s.sfpu.loadMacroConfig[l] m vd mod0 l u = .fault f) :
    execSfploadmacroBh m vd mod0 am i s = .fault f := by
  have hc : (loadPart (macroLoadOps vd am i) s).sfpu.loadMacroConfig = s.sfpu.loadMacroConfig := rfl
  have hp : (loadPart (macroLoadOps vd am i) s).params = s.params := rfl
  rw [execSfploadmacroBh_eq hz hl, scheduleAll, hsplit]
  generalize loadPart (macroLoadOps vd am i) s = s' at hc hp
  refine scheduleList_fault (fun l' u' hm => ?_) ?_
  · rw [hc, hp]
    exact hbefore (l', u') hm
  · rw [hc, hp]
    exact hf

/-- What SFPTRANSP can do when it answers a next state. -/
theorem execSfptransp_spec {a : BitVec 12} {c vd m : BitVec 4} {s t : State} (h : execSfptransp a c vd m s = .next t) :
    transpGuard (lregOf4 vd) s.sfpu = true ∧
      t = s.withSfpu { s.sfpu with lreg := transposeRegs s.sfpu.laneIsEnabled s.sfpu.lreg } := by
  obtain ⟨x, hx, he⟩ := andThen_eq_next.1 h
  obtain ⟨hg, rfl⟩ := transpose_eq_next.1 hx
  exact ⟨hg, (Host.Outcome.next.inj he).symm⟩

theorem execSfptransp_completes {a : BitVec 12} {c vd m : BitVec 4} {s : State}
    (h : transpGuard (lregOf4 vd) s.sfpu = true) :
    execSfptransp a c vd m s =
      .next (s.withSfpu { s.sfpu with lreg := transposeRegs s.sfpu.laneIsEnabled s.sfpu.lreg }) := by
  rw [execSfptransp, transpose_eq_next.2 ⟨h, rfl⟩]
  rfl

/-- Only selector 0 chooses nothing (R63). -/
theorem choose_nothing {c : MacroConfig} {sel : BitVec 3} (h : choose c sel = .nothing) : sel = 0#3 := by
  unfold choose at h
  split_ifs at h with h0
  · exact h0
  · split at h <;> cases h

/-- What the choice of an instruction can answer: nothing for selector 0, or an instruction its sub-unit can take
(R63, R69). -/
theorem selectInsn_spec {p : Params} {c : MacroConfig} {l : Lane} {u : SubUnit} {sel : BitVec 3} {o : Option Insn}
    (h : selectInsn p c l u sel = .next o) : (o = none ∧ sel = 0#3) ∨ ∃ i, o = some i ∧ u ∈ subUnitOf i.op := by
  unfold selectInsn at h
  cases hc : choose c sel with
  | nothing =>
    rw [hc] at h
    exact .inl ⟨(Host.Outcome.next.inj h).symm, choose_nothing hc⟩
  | undefined =>
    rw [hc] at h
    cases h
  | noInstruction =>
    rw [hc] at h
    cases h
  | insn j =>
    rw [hc] at h
    dsimp only at h
    split at h
    · rename_i hu
      exact .inr ⟨j, (Host.Outcome.next.inj h).symm, hu⟩
    · cases h
  | store =>
    rw [hc] at h
    dsimp only at h
    split at h
    · rename_i hu
      cases hp : p.sel3StoreFields with
      | none =>
        rw [hp] at h
        cases h
      | some f =>
        rw [hp] at h
        exact .inr ⟨storeInsn f, (Host.Outcome.next.inj h).symm, hu⟩
    · cases h

/-- What building an entry can do: nothing for selector 0, otherwise an eligible instruction with its overrides, the
field's delay and the sub-unit's kind (R63 to R69). -/
theorem buildEntry_spec {p : Params} {c : MacroConfig} {m : BitVec 2} {vd : BitVec 3} {mod0 : BitVec 4} {l : Lane}
    {u : SubUnit} {o : Option Entry} (h : buildEntry p c m vd mod0 l u = .next o) :
    (o = none ∧ seqSelector (c.field m u) = 0#3) ∨
      ∃ i, selectInsn p c l u (seqSelector (c.field m u)) = .next (some i) ∧ u ∈ subUnitOf i.op ∧
        o = some ⟨overrides c u (c.field m u) m vd mod0 i, seqDelay (c.field m u), c.delayKind u⟩ := by
  obtain ⟨chosen, hsel, ho⟩ := andThen_eq_next.1 h
  have ho' := (Host.Outcome.next.inj ho).symm
  rcases selectInsn_spec hsel with ⟨rfl, h0⟩ | ⟨i, rfl, hu⟩
  · exact .inl ⟨ho', h0⟩
  · exact .inr ⟨i, hsel, hu, ho'⟩

@[simp] theorem overrides_op (c : MacroConfig) (u : SubUnit) (b : BitVec 8) (m : BitVec 2) (vd : BitVec 3)
    (mod0 : BitVec 4) (i : Insn) : (overrides c u b m vd mod0 i).op = i.op := by
  cases u <;> rfl

/-- What a queue holds after forgetting and scheduling: the new entry, and every older one but those at its delay slot
(R68). -/
theorem mem_forgetAndSchedule {q : List Entry} {e e' : Entry} :
    e' ∈ forgetAndSchedule q e ↔ e' = e ∨ (e' ∈ q ∧ (e.counter = 7 ∨ e'.counter ≠ e.counter)) := by
  have hforget : e' ∈ forget q e.counter ↔ e' ∈ q ∧ (e.counter = 7 ∨ e'.counter ≠ e.counter) := by
    unfold forget
    split <;> rename_i h <;> simp [h]
  unfold forgetAndSchedule
  dsimp only
  split
  · rename_i hmem
    rw [hforget]
    constructor
    · exact .inr
    · rintro (rfl | h)
      · exact hforget.1 hmem
      · exact h
  · rw [List.mem_append, List.mem_singleton, hforget, or_comm]

end Sys2Proof.Machine
end

