-- ==== Sys2Proof/Laws/Cycle.lean ====
section
/-! SUPPORT. Sys2Proof/Laws/Cycle.lean: what a cycle can do, said once. -/

namespace Sys2Proof.Machine

/-- What the execution of another regular instruction can do: its action, unless it is a load that raises. -/
theorem executeOther_spec {i : Insn} {lanes : LaneMask} {s t : State} {reg : Option Action}
    (h : executeOther i lanes s = .next (t, reg)) :
    (regularAction s.params i lanes).perform s.sfpu = .next t.sfpu ∧ t = s.withSfpu t.sfpu ∧
      reg = some (regularAction s.params i lanes) := by
  unfold executeOther at h
  split at h
  · cases h
  · obtain ⟨x, hx, he⟩ := andThen_eq_next.1 h
    cases he
    exact ⟨hx, rfl, rfl⟩

/-- A regular action is a load or an unscheduled execution. -/
theorem regularAction_cases (p : Params) (i : Insn) (lanes : LaneMask) :
    (i.op = .sfpload ∧ regularAction p i lanes = .load (loadOpsOf i) false) ∨
      (i.op ≠ .sfpload ∧ regularAction p i lanes = .run i lanes false (isCrossLane p i.op)) := by
  unfold regularAction
  split
  · rename_i h
    exact .inl ⟨h, rfl⟩
  · rename_i h
    exact .inr ⟨h, rfl⟩

/-- What step 3 can do with an issued word: execute one of the two instructions, execute another on some lanes, or discard
it. -/
theorem issueWord_spec {d : Due} {w : Word} {s t : State} {reg : Option Action}
    (h : issueWord d w s = .next (t, reg)) :
    (∃ i lanes, decode s.params.arch w = .ok i ∧ fate s.params d (instrOp i) false = .execute lanes ∧ exec i s = .next t ∧
        reg = instrAction i) ∨
      (∃ i lanes, decode s.params.arch w = .error .notInScope ∧ parse w = some i ∧
        fate s.params d i.op (regularAction s.params i fullMask).writes.isEmpty = .execute lanes ∧
        (regularAction s.params i lanes).perform s.sfpu = .next t.sfpu ∧ t = s.withSfpu t.sfpu ∧
        reg = some (regularAction s.params i lanes)) ∨
      (t = s ∧ reg = none) := by
  unfold issueWord at h
  cases hd : decode s.params.arch w with
  | ok i =>
    rw [hd] at h
    dsimp only at h
    unfold issueInstr at h
    cases hf : fate s.params d (instrOp i) false with
    | execute lanes =>
      rw [hf] at h
      obtain ⟨t', ht', he⟩ := andThen_eq_next.1 h
      cases he
      exact .inl ⟨i, lanes, rfl, hf, ht', rfl⟩
    | discarded =>
      rw [hf] at h
      cases h
      exact .inr (.inr ⟨rfl, rfl⟩)
    | refused r =>
      rw [hf] at h
      cases h
  | error e =>
    rw [hd] at h
    cases e with
    | reservedBitsSet => cases h
    | notInScope =>
      dsimp only at h
      cases hp : parse w with
      | none =>
        rw [hp] at h
        cases h
      | some i =>
        rw [hp] at h
        dsimp only at h
        unfold issueOther at h
        cases hf : fate s.params d i.op (regularAction s.params i fullMask).writes.isEmpty with
        | execute lanes =>
          rw [hf] at h
          exact .inr (.inl ⟨i, lanes, rfl, rfl, hf, executeOther_spec h⟩)
        | discarded =>
          rw [hf] at h
          cases h
          exact .inr (.inr ⟨rfl, rfl⟩)
        | refused r =>
          rw [hf] at h
          cases h

/-- An instruction changes nothing but the unit and `Sched`. -/
theorem exec_frame {i : Instr} {s t : State} (h : exec i s = .next t) : t = { s with sfpu := t.sfpu, sched := t.sched } := by
  cases i with
  | sfploadmacroBh m vd mod0 am imm =>
    obtain ⟨-, -, -, hfr⟩ := execSfploadmacroBh_spec h
    rw [hfr]
  | sfploadmacroWh => cases h
  | sfptransp a c vd m =>
    obtain ⟨-, hfr⟩ := execSfptransp_spec (a := a) (c := c) (m := m) h
    rw [hfr]
    rfl

/-- What an instruction does to the unit is its action. -/
theorem exec_action {i : Instr} {s t : State} (h : exec i s = .next t) :
    ∃ a, instrAction i = some a ∧ a.perform s.sfpu = .next t.sfpu ∧ ∀ insn lanes sch cr, a ≠ .run insn lanes sch cr := by
  cases i with
  | sfploadmacroBh m vd mod0 am imm =>
    obtain ⟨-, -, -, hfr⟩ := execSfploadmacroBh_spec h
    exact ⟨_, rfl, by rw [hfr]; rfl, by simp⟩
  | sfploadmacroWh => cases h
  | sfptransp a c vd m =>
    obtain ⟨hg, hfr⟩ := execSfptransp_spec (a := a) (c := c) (m := m) h
    exact ⟨_, rfl, by rw [hfr]; exact transpose_eq_next.2 ⟨hg, rfl⟩, by simp⟩

/-- Step 3 changes nothing but the unit and `Sched`. -/
theorem regularPart_frame {d : Due} {issue : Option (Fin Config.nThreads × Word)} {s t : State} {reg : Option Action}
    (h : regularPart d issue s = .next (t, reg)) : t = { s with sfpu := t.sfpu, sched := t.sched } := by
  unfold regularPart at h
  split at h
  · cases h
    rfl
  · rcases issueWord_spec h with ⟨i, lanes, -, -, h, -⟩ | ⟨i, lanes, -, -, -, -, h, -⟩ | ⟨h, -⟩
    · exact exec_frame h
    · rw [h]
      rfl
    · rw [h]

/-- What step 3 does to the unit: nothing, or one unscheduled action. -/
theorem regularPart_action {d : Due} {issue : Option (Fin Config.nThreads × Word)} {s t : State} {reg : Option Action}
    (h : regularPart d issue s = .next (t, reg)) :
    (reg = none ∧ t.sfpu = s.sfpu) ∨
      ∃ a, reg = some a ∧ a.perform s.sfpu = .next t.sfpu ∧ (∀ insn lanes cr, a ≠ .run insn lanes true cr) ∧
        ∀ insn lanes sch cr, a = .run insn lanes sch cr → ∃ th w, issue = some (th, w) ∧ parse w = some insn := by
  unfold regularPart at h
  split at h
  · cases h
    exact .inl ⟨rfl, rfl⟩
  · rename_i th w
    rcases issueWord_spec h with ⟨i, lanes, -, -, h, hr⟩ | ⟨i, lanes, -, hp, -, hx, h, hr⟩ | ⟨h, hr⟩
    · obtain ⟨a, ha, hp, hn⟩ := exec_action h
      exact .inr ⟨a, by rw [hr, ha], hp, fun i l cr => hn i l true cr,
        fun i l sch cr he => absurd he (hn i l sch cr)⟩
    · refine .inr ⟨_, hr, hx, ?_, ?_⟩ <;> intro insn lanes' <;>
        rcases regularAction_cases s.params i lanes with ⟨-, ha⟩ | ⟨-, ha⟩ <;> rw [ha]
      · simp
      · simp
      · exact fun _ _ he => nomatch he
      · intro sch cr he
        cases he
        exact ⟨th, w, rfl, hp⟩
    · exact .inl ⟨hr, by rw [h]⟩

/-- What step 3 does to a queue: nothing, or the scheduling of an entry that an SFPLOADMACRO builds. -/
theorem regularPart_queue {d : Due} {issue : Option (Fin Config.nThreads × Word)} {s t : State} {reg : Option Action}
    (h : regularPart d issue s = .next (t, reg)) (l : Lane) (u : SubUnit) :
    ∃ o, t.queue l u = queueAfter (s.queue l u) o ∧
      ∀ e, o = some e → ∃ th w m vd mod0 am imm9, issue = some (th, w) ∧
        decode s.params.arch w = .ok (.sfploadmacroBh m vd mod0 am imm9) ∧
        buildEntry s.params s.sfpu.loadMacroConfig[l] m vd mod0 l u = .next (some e) := by
  have hnone : t.queue l u = s.queue l u → ∃ o, t.queue l u = queueAfter (s.queue l u) o ∧
      ∀ e, o = some e → ∃ th w m vd mod0 am imm9, issue = some (th, w) ∧
        decode s.params.arch w = .ok (.sfploadmacroBh m vd mod0 am imm9) ∧
        buildEntry s.params s.sfpu.loadMacroConfig[l] m vd mod0 l u = .next (some e) :=
    fun hq => ⟨none, hq, fun e he => nomatch he⟩
  unfold regularPart at h
  split at h
  · cases h
    exact hnone rfl
  · rename_i th w
    rcases issueWord_spec h with ⟨i, lanes, hd, -, h, -⟩ | ⟨i, lanes, -, -, -, -, h, -⟩ | ⟨h, -⟩
    · cases i with
      | sfploadmacroBh m vd mod0 am imm =>
        obtain ⟨-, -, hq, -⟩ := execSfploadmacroBh_spec h
        obtain ⟨o, ho, hq⟩ := hq l u
        refine ⟨o, hq, ?_⟩
        rintro e rfl
        exact ⟨th, w, m, vd, mod0, am, imm, rfl, hd, ho⟩
      | sfploadmacroWh => cases h
      | sfptransp a c vd m =>
        obtain ⟨-, hfr⟩ := execSfptransp_spec (a := a) (c := c) (m := m) h
        exact hnone (by rw [hfr]; rfl)
    · exact hnone (by rw [h]; rfl)
    · exact hnone (by rw [h])

/-- The FPU distances after the environment has acted: 0 for a region written, otherwise as before. -/
theorem mem_noteFpuWrites (ws : List FpuWrite) (ds : List (Nat × Vector Nat Config.nThreads))
    (d : Nat × Vector Nat Config.nThreads) :
    d ∈ ws.foldl (fun ds w => noteFpuWrite ds w.region) ds ↔
      ((d.2 = tab Config.nThreads fun _ => 0) ∧ ∃ w ∈ ws, w.region = d.1) ∨ (d ∈ ds ∧ ∀ w ∈ ws, w.region ≠ d.1) := by
  induction ws generalizing ds with
  | nil => simp
  | cons w ws ih =>
    rw [List.foldl_cons, ih]
    obtain ⟨r, n⟩ := d
    simp only [noteFpuWrite, List.mem_cons, Prod.mk.injEq, List.mem_filter, ne_eq, decide_eq_true_eq,
      exists_eq_or_imp, forall_eq_or_imp]
    have hq : (∀ w' ∈ ws, ¬ w'.region = r) ↔ ¬ ∃ w' ∈ ws, w'.region = r := by
      push Not
      rfl
    have he : r = w.region ↔ w.region = r := eq_comm
    rw [hq, he]
    generalize (∃ w' ∈ ws, w'.region = r) = P
    generalize (w.region = r) = Q
    tauto

/-- What is in flight after a cycle in which the actions executed (R91). -/
theorem mem_ageInFlight {now : List (Loc × Nat)} {acts : List Action} {loc : Loc} {n : Nat} :
    (loc, n) ∈ ageInFlight now acts ↔
      0 < n ∧ ((loc, n + 1) ∈ now ∨ ∃ a ∈ acts, loc ∈ a.writes ∧ a.latency = n + 1) := by
  simp only [ageInFlight, List.mem_append, List.mem_filter, List.mem_map, List.mem_flatMap, Action.inFlight]
  constructor
  · rintro (⟨⟨⟨_, m⟩, hm, he⟩, h0⟩ | ⟨a, ha, hm⟩)
    · cases he
      have h0 : 0 < m - 1 := by simpa using h0
      exact ⟨h0, .inl (by rwa [Nat.sub_add_cancel (by omega)])⟩
    · split at hm
      · cases hm
      · simp only [List.mem_map, Prod.mk.injEq] at hm
        obtain ⟨_, hm, rfl, rfl⟩ := hm
        exact ⟨by omega, .inr ⟨a, ha, hm, by omega⟩⟩
  · rintro ⟨h0, hm | ⟨a, ha, hm, hl⟩⟩
    · exact .inl ⟨⟨_, hm, rfl⟩, by simpa using h0⟩
    · refine .inr ⟨a, ha, ?_⟩
      rw [if_neg (by omega)]
      exact List.mem_map.2 ⟨loc, hm, by rw [hl]; rfl⟩

/-- The distances after a cycle: as they are for a region written in it, otherwise grown (R126). -/
theorem mem_ageDistances {c : CycleInput} {issuer : Fin Config.nThreads} {reg : Option Action}
    {ds : List (Nat × Vector Nat Config.nThreads)} {r : Nat} {n : Vector Nat Config.nThreads} :
    (r, n) ∈ ageDistances c issuer reg ds ↔
      ((∃ w ∈ c.fpuWrites, w.region = r) ∧ (r, n) ∈ ds) ∨
        ((∀ w ∈ c.fpuWrites, w.region ≠ r) ∧ ∃ m, (r, m) ∈ ds ∧
          n = tab Config.nThreads fun th => m[th] + tensixExecuted c issuer reg th) := by
  have hany : ∀ d : Nat × Vector Nat Config.nThreads, (c.fpuWrites.any fun w => decide (w.region = d.1)) = true ↔
      ∃ w ∈ c.fpuWrites, w.region = d.1 := by simp
  simp only [ageDistances, List.mem_map]
  constructor
  · rintro ⟨d, hd, he⟩
    split at he
    · rename_i hw
      subst he
      exact .inl ⟨(hany _).1 hw, hd⟩
    · rename_i hw
      cases he
      rw [hany] at hw
      exact .inr ⟨fun w hm he => hw ⟨w, hm, he⟩, d.2, hd, rfl⟩
  · rintro (⟨hw, hd⟩ | ⟨hw, m, hd, rfl⟩)
    · exact ⟨_, hd, by rw [if_pos ((hany _).2 hw)]⟩
    · exact ⟨_, hd, by rw [if_neg (by rw [hany]; rintro ⟨w, hm, he⟩; exact hw w hm he)]⟩

/-- The environment keeps the canonical form of the sparse parts. -/
theorem State.atCycleStart_wf {s : State} (h : s.sfpu.wf) : s.atCycleStart.sfpu.wf := by
  have key : ∀ (ws : List FpuWrite) (m : Memory), m.wf → (ws.foldl (fun m w => m.writeList w.cells) m).wf := by
    intro ws
    induction ws with
    | nil => exact fun m hm => hm
    | cons w ws ih => exact fun m hm => ih _ (Memory.writeList_wf hm _)
  exact ⟨key _ _ h.1, h.2⟩

/-- What a step can do when it answers a next state: step 3 answers, the due entries give their actions, none of them
reads a result in flight, and they execute. -/
theorem step_spec {s t : State} (h : step s = .next t) :
    s.faultMark = none ∧ s.refusalMark = none ∧ collision s.atCycleStart = none ∧
      ∃ s3 reg acts x,
        regularPart (dueTable s.atCycleStart) (issueOf s.nextInput s.atCycleStart)
          (beforeRegular s.nextInput s.atCycleStart) = .next (s3, reg) ∧
        dueActions s3.params (dueTable s.atCycleStart) = .next acts ∧
        readsNotReady s3.inFlight acts = false ∧
        coexecute s3.params.sameCyclePolicy s.atCycleStart.sfpu reg acts s3.sfpu = .next x ∧
        t = { s3 with
          sfpu := x
          inFlight := ageInFlight s3.inFlight (reg.toList ++ acts)
          fpuDistance := ageDistances s.nextInput s3.issuer reg s3.fpuDistance } := by
  unfold step cycle at h
  cases hf : s.faultMark with
  | some f =>
    rw [hf] at h
    cases h
  | none =>
    cases hr : s.refusalMark with
    | some r =>
      rw [hf, hr] at h
      cases h
    | none =>
      rw [hf, hr] at h
      dsimp only at h
      unfold cycleBody at h
      cases hc : collision s.atCycleStart with
      | some lu =>
        rw [hc] at h
        cases h
      | none =>
        rw [hc] at h
        obtain ⟨⟨s3, reg⟩, h3, h4⟩ := andThen_eq_next.1 h
        obtain ⟨acts, hacts, h5⟩ := andThen_eq_next.1 h4
        dsimp only at h5
        split at h5
        · cases h5
        · rename_i hnr
          obtain ⟨x, hx, he⟩ := andThen_eq_next.1 h5
          rw [beforeRegular_sfpu] at hx
          exact ⟨rfl, rfl, rfl, s3, reg, acts, x, h3, hacts, by simpa using hnr, hx,
            (Host.Outcome.next.inj he).symm⟩

/-- The actions of a sub-unit's due entries: each is a scheduled execution of one of them. -/
theorem rowActions_mem {p : Params} {d : Due} {u : SubUnit} {acts : List Action} (h : rowActions p d u = .next acts) {a : Action}
    (ha : a ∈ acts) :
    ∃ l e, d.at l u = some e ∧ (a = crossAction e.insn ∨ (isCrossLane p e.insn.op = false ∧ a = .run e.insn (laneBit l) true false)) := by
  unfold rowActions at h
  split at h
  · cases hd : d.at 0 u with
    | none =>
      rw [hd] at h
      cases h
    | some e =>
      rw [hd] at h
      dsimp only at h
      split at h
      · cases h
        rw [List.mem_singleton] at ha
        exact ⟨0, e, hd, .inl ha⟩
      · cases h
  · rename_i hcross
    cases h
    obtain ⟨l, -, hl⟩ := List.mem_filterMap.1 ha
    obtain ⟨e, he, rfl⟩ := Option.map_eq_some_iff.1 hl
    refine ⟨l, e, he, .inr ⟨?_, rfl⟩⟩
    simp only [Bool.not_eq_true, List.any_eq_false, mem_allLanes, true_implies] at hcross
    have := hcross l
    rw [he] at this
    simpa using this

theorem dueActions_mem {p : Params} {d : Due} {acts : List Action} (h : dueActions p d = .next acts) {a : Action} (ha : a ∈ acts) :
    ∃ u l e, d.at l u = some e ∧ (a = crossAction e.insn ∨ (isCrossLane p e.insn.op = false ∧ a = .run e.insn (laneBit l) true false)) := by
  have key := foldOut_preserves (f := fun u acts => andThen (rowActions p d u) fun more => .next (acts ++ more))
    (as := SubUnit.all)
    (P := fun acts => ∀ a ∈ acts, ∃ u l e, d.at l u = some e ∧
      (a = crossAction e.insn ∨ (isCrossLane p e.insn.op = false ∧ a = .run e.insn (laneBit l) true false)))
    (fun u _ acts acts' hacts hnext => by
      obtain ⟨more, hmore, he⟩ := andThen_eq_next.1 hnext
      cases he
      intro a ha
      rcases List.mem_append.1 ha with ha | ha
      · exact hacts a ha
      · obtain ⟨l, e, hd, hor⟩ := rowActions_mem hmore ha
        exact ⟨u, l, e, hd, hor⟩)
    (by simp) h
  exact key a ha

/-- Nothing due: no action. -/
theorem dueActions_none {d : Due} (h : ∀ l u, d.at l u = none) (p : Params) : dueActions p d = .next [] := by
  have hrow : ∀ u, rowActions p d u = .next [] := by
    intro u
    unfold rowActions
    have hany : (allLanes.any fun l => (d.at l u).any fun e => isCrossLane p e.insn.op) = false := by
      simp [h]
    rw [hany]
    simp [h]
  simp [dueActions, SubUnit.all, hrow]

/-- No collision where nothing is due. -/
theorem collision_none {s : State} (h : ∀ l u, ∀ e ∈ s.queue l u, e.counter ≠ 0) : collision s = none := by
  rw [collision, List.find?_eq_none]
  rintro ⟨l, u⟩ -
  have : dueEntries (s.queue l u) = [] := by
    rw [List.eq_nil_iff_forall_not_mem]
    intro e he
    exact h l u e (mem_dueEntries.1 he).1 (mem_dueEntries.1 he).2
  simp [this]

theorem collision_none_of_le {s : State} (h : ∀ l u, (dueEntries (s.queue l u)).length ≤ 1) : collision s = none := by
  rw [collision, List.find?_eq_none]
  rintro ⟨l, u⟩ -
  simp only [decide_eq_true_eq, not_lt]
  exact h l u

/-- The first of several steps. -/
theorem run_succ {M : Host.Core} {n : Nat} {s t : M.State} (h : M.run (n + 1) s = .next t) :
    ∃ s', M.step s = .next s' ∧ M.run n s' = .next t := by
  unfold Host.Core.run at h
  cases hs : M.step s with
  | next s' =>
    rw [hs] at h
    exact ⟨s', rfl, h⟩
  | fault r =>
    rw [hs] at h
    cases h
  | refused r =>
    rw [hs] at h
    cases h

/-- A cycle in which nothing is due is step 3 and the end of the cycle. -/
theorem step_nothing_due {s : State} (hf : s.faultMark = none) (hr : s.refusalMark = none)
    (h : ∀ l u, ∀ e ∈ s.queue l u, e.counter ≠ 0) :
    step s =
      andThen (regularPart (dueTable s.atCycleStart) (issueOf s.nextInput s.atCycleStart)
        (beforeRegular s.nextInput s.atCycleStart)) fun r =>
        .next { r.1 with
          inFlight := ageInFlight r.1.inFlight r.2.toList
          fpuDistance := ageDistances s.nextInput r.1.issuer r.2 r.1.fpuDistance } := by
  have hc : collision s.atCycleStart = none := collision_none h
  have hd : ∀ l u, (dueTable s.atCycleStart).at l u = none := dueTable_at_none h
  unfold step cycle
  rw [hf, hr]
  dsimp only
  unfold cycleBody
  rw [hc]
  dsimp only
  congr 1
  funext r
  simp [scheduledPart, dueActions_none hd _, readsNotReady]

/-- With nothing due, no instruction is discarded or refused by the priority rule. -/
theorem fate_nothing_due {d : Due} (h : ∀ l u, d.at l u = none) (p : Params) (op : Mnemonic) (b : Bool) :
    fate p d op b = .execute fullMask := by
  have hz : ∀ u, dueMask d u = 0#32 := fun u => dueMask_eq_zero.2 fun l => h l u
  have hany : anyDue d = false := by simp [anyDue, h]
  unfold fate
  split
  · rfl
  · split
    · rw [hany]
      rfl
    · rw [hz]
      rfl
    · simp [hz]

end Sys2Proof.Machine
end

