-- ==== Sys2Proof/Laws/PerInstr.lean ====
section
/-! SUPPORT. Sys2Proof/Laws/PerInstr.lean: what is said of every instruction as syntax, one lemma for each constructor.
Family OpcodeByte: an instruction's word carries its opcode byte in bits 31:24 (R40). -/

namespace Sys2Proof.Laws.OpcodeByte

/-- The opcode byte of an instruction's row in spec/opcode_table.json. -/
def tableByte : Instr → BitVec 8
  | .sfploadmacroBh _ _ _ _ _ => 0x93#8
  | .sfploadmacroWh _ _ _ _ => 0x93#8
  | .sfptransp _ _ _ _ => 0x8C#8

def Statement (i : Instr) : Prop := opcodeByte (encode i) = tableByte i

theorem sfploadmacroBh (macroIndex : BitVec 2) (vd : BitVec 3) (mod0 : BitVec 4) (addrMod : BitVec 3) (imm9 : BitVec 9) :
    Statement (.sfploadmacroBh macroIndex vd mod0 addrMod imm9) := by
  unfold Statement opcodeByte encode tableByte opSfploadmacro
  ext i hi
  interval_cases i <;> simp [fieldAt]

theorem sfploadmacroWh (lregInd instrMod0 : BitVec 4) (sfpuAddrMod : BitVec 2) (destRegAddr : BitVec 14) :
    Statement (.sfploadmacroWh lregInd instrMod0 sfpuAddrMod destRegAddr) := by
  unfold Statement opcodeByte encode tableByte opSfploadmacro
  ext i hi
  interval_cases i <;> simp [fieldAt]

theorem sfptransp (imm12Math : BitVec 12) (lregC vd instrMod1 : BitVec 4) :
    Statement (.sfptransp imm12Math lregC vd instrMod1) := by
  unfold Statement opcodeByte encode tableByte opSfptransp
  ext i hi
  interval_cases i <;> simp [fieldAt]

end Sys2Proof.Laws.OpcodeByte
end

