-- ==== Sys2Proof/Tests/Slice0.lean ====
section
/-! SUPPORT. Sys2Proof/Tests/Slice0.lean: tests, their expected results from the vectors V1 to V28 of the spec's
95_test_vectors.md or counted by hand from its rules, and for every obligation with hypotheses a witness that meets
them. -/

namespace Sys2Proof.Tests

open Sys2Proof Sys2Proof.Machine

/-! ## Decoding and encoding: words of V1, V2 and R44 -/

theorem test_decode_sfptransp : decode .bh 0x8C0123B4#32 = .ok (.sfptransp 0x012#12 3#4 11#4 4#4) := by decide

theorem test_decode_sfptransp_ones : decode .wh 0x8CFFFFFF#32 = .ok (.sfptransp 0xFFF#12 15#4 15#4 15#4) := by decide

theorem test_decode_sfploadmacro : decode .bh 0x93EA2155#32 = .ok (.sfploadmacroBh 3#2 6#3 10#4 1#3 170#9) := by decide

theorem test_decode_sfploadmacro_vdHi : decode .bh 0x93300001#32 = .ok (.sfploadmacroBh 0#2 7#3 0#4 0#3 0#9) := by
  decide

theorem test_decode_sfploadmacro_ones : decode .bh 0x93FFE3FF#32 = .ok (.sfploadmacroBh 3#2 7#3 15#4 7#3 511#9) := by
  decide

/-- Bits of R44 one by one: 23:20 = 9, 19:16 = 3, 15:14 = 2, 13:0 = 0x1C05. -/
theorem test_decode_sfploadmacro_wh : decode .wh 0x93939C05#32 = .ok (.sfploadmacroWh 9#4 3#4 2#2 0x1C05#14) := by decide

theorem test_decode_reserved_low : decode .bh 0x93000400#32 = .error .reservedBitsSet := by decide

theorem test_decode_reserved_high : decode .bh 0x93001C00#32 = .error .reservedBitsSet := by decide

theorem test_decode_not_in_scope : decode .bh 0x8D000000#32 = .error .notInScope := by decide

theorem test_encode_sfptransp : encode (.sfptransp 0x012#12 3#4 11#4 4#4) = 0x8C0123B4#32 := by decide

theorem test_encode_sfploadmacro : encode (.sfploadmacroBh 2#2 5#3 3#4 7#3 511#9) = 0x9393E3FF#32 := by decide

theorem test_encode_sfploadmacro_wh : encode (.sfploadmacroWh 9#4 3#4 2#2 0x1C05#14) = 0x93939C05#32 := by decide

theorem test_table_word_sfptransp : decodeTableWord 32 0x8C0000C0 = some (.sfptransp 0#12 0#4 12#4 0#4) := by decide

theorem test_table_word_sfploadmacro :
    decodeTableWord 32 0x93454040 = some (.sfploadmacroBh 1#2 0#3 5#4 2#3 32#9) := by decide

/-- The macro call of E4. -/
theorem test_assemble_sfploadmacro : (packLoadmacro 3 6 10 1 170).word = 0x93EA2155#32 := by decide

/-- V1. -/
theorem test_assemble_sfptransp : (AsmCall.sfptransp 0x012 3 11 4).word = 0x8C0123B4#32 := by decide

/-- An argument wider than its field carries into the next one (R45): lreg_ind 16 makes the opcode byte 0x94. -/
theorem test_assemble_carries : opcodeByte (AsmCall.sfploadmacro 16 0 0 0).word = 0x94#8 := by decide

/-! ## WellFormed: each check refuses an ill-formed term -/

theorem test_wf_bh_format_on_wh : (Instr.sfploadmacroBh 0#2 0#3 0#4 0#3 0#9).wf .wh = false := by decide
theorem test_wf_wh_format_on_bh : (Instr.sfploadmacroWh 0#4 0#4 0#2 0#14).wf .bh = false := by decide
theorem test_wf_sfptransp : (Instr.sfptransp 0#12 0#4 15#4 0#4).wf .bh = true ∧
    (Instr.sfptransp 0#12 0#4 15#4 0#4).wf .wh = true := by decide
theorem test_wf_lregInd : (AsmCall.sfploadmacro 16 0 0 0).wf = false := by decide
theorem test_wf_instrMod0 : (AsmCall.sfploadmacro 0 16 0 0).wf = false := by decide
theorem test_wf_sfpuAddrMod : (AsmCall.sfploadmacro 0 0 8 0).wf = false := by decide
theorem test_wf_destRegAddr : (AsmCall.sfploadmacro 0 0 0 1024).wf = false := by decide
theorem test_wf_imm12Math : (AsmCall.sfptransp 4096 0 0 0).wf = false := by decide
theorem test_wf_lregC : (AsmCall.sfptransp 0 16 0 0).wf = false := by decide
theorem test_wf_lregDest : (AsmCall.sfptransp 0 0 16 0).wf = false := by decide
theorem test_wf_instrMod1 : (AsmCall.sfptransp 0 0 0 16).wf = false := by decide
theorem test_wf_calls : (AsmCall.sfploadmacro 15 15 7 1023).wf = true ∧ (AsmCall.sfptransp 4095 15 15 15).wf = true := by
  decide

/-! ## Fields of a `Sequence` entry: V10 and V11 -/

theorem test_field_0x4C : seqUsesLreg16 0x4C#8 = true ∧ seqSelectsVb 0x4C#8 = false ∧ seqDelay 0x4C#8 = 1 ∧
    seqSelector 0x4C#8 = 4#3 := by decide

theorem test_field_0x8E : seqUsesLreg16 0x8E#8 = false ∧ seqSelectsVb 0x8E#8 = true ∧ seqDelay 0x8E#8 = 1 ∧
    seqSelector 0x8E#8 = 6#3 := by decide

theorem test_entry_fields : seqByte 0xC73A0281#32 .simple = 0x81#8 ∧ seqByte 0xC73A0281#32 .mad = 0x02#8 ∧
    seqByte 0xC73A0281#32 .round = 0x3A#8 ∧ seqByte 0xC73A0281#32 .store = 0xC7#8 := by decide

/-! ## Overrides: V12, V13, V14 -/

/-- The record of V12: VB 4, VC 9, VD 1. -/
def madRecord : Insn := ⟨.sfpmad, some 4, some 9, 1, none, .parsed 3#32⟩

theorem test_override_vc : overrideCompute 0x45#8 6#3 madRecord = ⟨.sfpmad, some 4, some 6, 16, none, .parsed 3#32⟩ := by
  decide

theorem test_override_vb : overrideCompute 0x85#8 6#3 madRecord = ⟨.sfpmad, some 6, some 9, 6, none, .parsed 3#32⟩ := by
  decide

theorem test_store_register : storeVd 0x06#8 6#3 3 = 6 ∧ storeVd 0x46#8 6#3 3 = 16 ∧ storeVd 0x86#8 6#3 3 = 3 ∧
    storeVd 0xC6#8 6#3 3 = 16 ∧ storeVd 0x83#8 6#3 (storeInsn ⟨0, 0⟩).vd = 0 := by decide

/-- `LoadMacroConfig` of one lane, its `Misc` as V16 has it (StoreMod0 3, UsesLoadMod0ForStore 0b0100, UnitDelayKind
0b0010), `Sequence[2]` and `InstructionTemplate[0]` as given. -/
def record (entry template : Word) : MacroConfig :=
  ⟨⟨3#4, 0b0100#4, 0b0010#4⟩, tab 4 fun m => if m = 2 then entry else 0#32,
    tab 4 fun t => if t = 0 then template else 0#32⟩

theorem test_store_mod0 : storeMod0For (record 0#32 0#32) 0#2 10#4 = 3#4 ∧ storeMod0For (record 0#32 0#32) 2#2 10#4 = 10#4 ∧
    storeMod0For (record 0#32 0#32) 3#2 10#4 = 3#4 := by decide

/-! ## States -/

/-- Pattern P of the vectors: lane `l` of `LReg[r]` holds `100 * r + l`. -/
def patternP : LRegFile := tab 17 fun r => tab 32 fun l => BitVec.ofNat 32 (100 * r.val + l.val)

/-- Reset with pattern P and the lanes of a mask enabled. -/
def patternState (mask : LaneMask) (disable : Bool) : State :=
  State.reset.withSfpu { Sfpu.reset with lreg := patternP, laneEnabled := mask, disableBackdoorLoad := disable }

/-- Reset with one configuration record in every lane and an operand for selector 3. -/
def configState (c : MacroConfig) : State :=
  { State.reset.withSfpu { Sfpu.reset with loadMacroConfig := tab 32 fun _ => c } with
    params := ⟨.bh, .refuse, some ⟨5, 9⟩, []⟩ }

/-- `s` with the same queue on one sub-unit of every lane. -/
def withQueue (u : SubUnit) (q : List Entry) (s : State) : State :=
  { s with sched := tab 32 fun l => s.sched[l].set u.number q }

/-- `s` with instruction word `w` issuing in the next cycle. -/
def issuing (w : Word) (s : State) : State := s.withNextWord w

/-- The outcome is a next state. -/
def isNext {σ : Type} : Out σ → Bool
  | .next _ => true
  | .fault _ => false
  | .refused _ => false

theorem exists_of_isNext {σ : Type} {o : Out σ} (h : isNext o = true) : ∃ t, o = .next t := by
  cases o with
  | next t => exact ⟨t, rfl⟩
  | fault r => cases h
  | refused r => cases h

/-- A property of the next state; false where there is none. -/
def after (o : Out State) (p : State → Bool) : Bool :=
  match o with
  | .next t => p t
  | .fault _ => false
  | .refused _ => false

/-! ## SFPTRANSP: V3, V4, V5, V7 -/

theorem test_sfptransp_all_lanes : after (exec (.sfptransp 0#12 0#4 0#4 0#4) (patternState fullMask false)) (fun t =>
    decide (t.sfpu.lreg[(1 : LRegNum)][(19 : Lane)] = 211#32 ∧ t.sfpu.lreg[(6 : LRegNum)][(2 : Lane)] = 418#32 ∧
      t.sfpu.lreg[(3 : LRegNum)][(27 : Lane)] = 327#32 ∧ t.sfpu.lreg[(9 : LRegNum)][(8 : Lane)] = 908#32)) = true := by
  decide +kernel

theorem test_sfptransp_half_mask :
    after (exec (.sfptransp 0#12 0#4 0#4 0#4) (patternState 0x0000FFFF#32 false)) (fun t =>
      decide (t.sfpu.lreg[(0 : LRegNum)][(16 : Lane)] = 16#32 ∧ t.sfpu.lreg[(2 : LRegNum)][(0 : Lane)] = 16#32 ∧
        t.sfpu.lreg[(7 : LRegNum)][(8 : Lane)] = 524#32)) = true := by
  decide +kernel

/-! ## SFPLOADMACRO: V16 and V15 -/

/-- The state of V16, and the same with a store template word that is SFPTRANSP's. -/
def v16 : State := configState (record 0x0B000014#32 0x8C000000#32)

theorem test_sfploadmacro_v16 : after (exec (.sfploadmacroBh 2#2 5#3 3#4 7#3 511#9) v16) (fun t =>
    decide (t.queue 17 .simple = [⟨⟨.sfptransp, none, some 5, 5, none, .transp 0#4 0#12⟩, 2, .cycles⟩] ∧
      t.queue 17 .mad = [] ∧
      t.queue 31 .store = [⟨⟨.sfpstore, none, none, 5, some 3#4, .store ⟨5, 9⟩⟩, 1, .cycles⟩])) = true := by
  decide +kernel

/-- V15: SFPTRANSP selected on MAD. -/
theorem test_sfploadmacro_ineligible :
    exec (.sfploadmacroBh 2#2 5#3 3#4 7#3 511#9) (configState (record 0x00000C00#32 0x8C000000#32)) =
      .fault (.ineligibleForSubUnit 0 .mad (some .sfptransp)) := by
  rfl

/-! ## Witnesses: for each obligation with hypotheses, states and operands that meet them, clause by clause -/

/-! ### Encoding -/

theorem witness_DecodeOfEncodeIsIdentity :
    (Instr.sfploadmacroBh 3#2 7#3 15#4 7#3 511#9).wf .bh = true ∧ (Instr.sfploadmacroWh 15#4 15#4 3#2 0x3FFF#14).wf .wh = true ∧
      (Instr.sfptransp 0xFFF#12 15#4 15#4 15#4).wf .wh = true := by decide

theorem witness_EncodeOfDecodeIsIdentity :
    decode .bh 0x93FFE3FF#32 = .ok (.sfploadmacroBh 3#2 7#3 15#4 7#3 511#9) ∧
      decode .wh 0x93FFFFFF#32 = .ok (.sfploadmacroWh 15#4 15#4 3#2 0x3FFF#14) := by decide

theorem witness_LoadmacroOperandsOfWord :
    (0x93FFE3FF#32).toNat / 2 ^ 24 = 0x93 ∧ (0x93FFE3FF#32).toNat / 2 ^ 10 % 8 = 0 := by decide

theorem witness_ReservedBitsRefused :
    ((0x93000400#32).toNat / 2 ^ 24 = 0x93 ∧ (0x93000400#32).toNat / 2 ^ 10 % 8 ≠ 0 ∧ State.reset.params.arch = .bh) ∧
      (0x93FFE3FF#32).toNat / 2 ^ 24 = 0x93 ∧ (0x93FFE3FF#32).toNat / 2 ^ 10 % 8 = 0 := by decide

theorem witness_WormholeFieldsExtractedThenRefused : (0x93FFFFFF#32).toNat / 2 ^ 24 = 0x93 := by decide

theorem witness_TranspFieldsAndRecordOfWord : (0x8CFFFFFF#32).toNat / 2 ^ 24 = 0x8C := by decide

theorem witness_MacroCallsAssemble :
    (AsmCall.sfptransp 4095 15 15 15).wf = true ∧ (3 < 4 ∧ 7 < 8 ∧ 15 < 16 ∧ 7 < 8 ∧ 511 < 512) := by decide

/-! ### SFPTRANSP -/

theorem witness_TransposeAssignsSimultaneously :
    (11#4).toNat < 12 ∧ (patternState 0x0000FFFF#32 true).sfpu.disableBackdoorLoad = true := by decide

theorem witness_TranspGuardDecides :
    ((11#4).toNat < 12 ∧ (patternState 0x0000FFFF#32 true).sfpu.disableBackdoorLoad = true) ∧
    (12 ≤ (12#4).toNat ∧ (patternState 0x0000FFFF#32 false).sfpu.disableBackdoorLoad = false) ∧
    12 ≤ (16 : LRegNum).val ∧ Sfpu.reset.disableBackdoorLoad = false := by decide

theorem witness_TwoTransposesRestore :
    ((11#4).toNat < 12 ∧ (0#4).toNat < 12) ∧
      ∀ l : Lane, (patternState fullMask false).sfpu.laneEnabled.getLsbD l.val = true := by decide

/-- Two register files that differ, but not in column 3 of the first group. -/
theorem witness_TransposeKeepsGroupsAndColumnsApart :
    (∀ i j : Fin 4, patternP[groupReg false i][laneAt j 3] =
      (LRegFile.put patternP 5 3 0#32)[groupReg false i][laneAt j 3]) ∧
      patternP[(5 : LRegNum)][(3 : Lane)] ≠ (LRegFile.put patternP 5 3 0#32)[(5 : LRegNum)][(3 : Lane)] := by
  decide +kernel

/-- An SFPTRANSP entry, kind Cycles. -/
def transpEntry (vd : LRegNum) (counter : Fin 8) : Entry := ⟨⟨.sfptransp, none, some 2, vd, none, .transp 0#4 0#12⟩, counter, .cycles⟩

/-- Pattern P, every lane with one SFPTRANSP due on Simple and another pending there. -/
def transpDue : State := withQueue .simple [transpEntry 2 0, transpEntry 2 3] (patternState 0x0000FFFF#32 false)

theorem transpDue_queue (l : Lane) (u : SubUnit) :
    transpDue.queue l u = if u = .simple then [transpEntry 2 0, transpEntry 2 3] else [] := by
  revert l
  cases u <;> decide +kernel

theorem witness_ScheduledTranspNeedsUniformLanes :
    Unmarked transpDue ∧ comingIssue transpDue = none ∧ (transpEntry 2 0).insn.op = .sfptransp ∧
      (∀ l, dueEntries (transpDue.queue l .simple) = [transpEntry 2 0]) ∧
      NothingElseDue transpDue (fun _ u => u = .simple) ∧ transpDue.inFlight = [] ∧ transpDue.sfpu.wf ∧
      (transpEntry 2 0).insn.vd.val < 12 := by
  refine ⟨⟨rfl, rfl⟩, rfl, rfl, by decide +kernel, ?_, rfl, ⟨Memory.wf_nil, Memory.wf_nil⟩, by decide⟩
  intro l u h e he
  rw [transpDue_queue, if_neg h] at he
  cases he

/-- An entry due on one sub-unit of one lane, nowhere else. -/
def dueAt (l : Lane) (u : SubUnit) (e : Entry) : Due :=
  tab 32 fun l' => tab 4 fun n => if l' = l ∧ n = u.number then some e else none

theorem witness_ScheduledTransp_some_lanes :
    (dueAt 4 .simple (transpEntry 16 0)).at 4 .simple = some (transpEntry 16 0) ∧
      (transpEntry 16 0).insn.op = .sfptransp ∧
      ∃ l', (dueAt 4 .simple (transpEntry 16 0)).at l' .simple ≠ some (transpEntry 16 0) := by
  refine ⟨by decide, rfl, 5, by decide⟩

/-! ### SFPLOADMACRO -/

/-- Fields of V16: Simple selects a template that is SFPTRANSP, Store selects selector 3, MAD and Round nothing. -/
theorem v16_chooses : SelectorChooses v16.params (record 0x0B000014#32 0x8C000000#32) 4#3
      ⟨.sfptransp, none, some 0, 0, none, .transp 0#4 0#12⟩ ∧
    SelectorChooses v16.params (record 0x0B000014#32 0x8C000000#32) 3#3 (storeInsn ⟨5, 9⟩) :=
  ⟨.inr (.inr ⟨0, by decide, by decide⟩), .inr (.inl ⟨rfl, _, rfl, rfl⟩)⟩

theorem v16_record (l : Lane) : v16.sfpu.loadMacroConfig[l] = record 0x0B000014#32 0x8C000000#32 := by
  revert l
  decide +kernel

theorem v16_next : ∃ t, exec (.sfploadmacroBh 2#2 5#3 3#4 7#3 511#9) v16 = .next t :=
  exists_of_isNext (by decide +kernel)

/-- The same count for every thread. -/
def perThread (n : Nat) : Vector Nat Config.nThreads := tab Config.nThreads fun _ => n

theorem witness_LoadmacroCompletes :
    (∀ d ∈ v16.fpuDistance, Config.loadReadsRegion 7#3 (imm10 511#9 5#3) v16.sfpu.addrCounters d.1 = true →
        3 ≤ d.2[v16.issuer]) ∧
      v16.loadRaises = false ∧ ∀ (l : Lane) (u : SubUnit), seqSelector (v16.sfpu.loadMacroConfig[l].field 2#2 u) = 0#3 ∨
        ∃ i, SelectorChooses v16.params v16.sfpu.loadMacroConfig[l]
          (seqSelector (v16.sfpu.loadMacroConfig[l].field 2#2 u)) i ∧ u ∈ subUnitOf i.op := by
  refine ⟨fun d hd => (nomatch hd), rfl, fun l u => ?_⟩
  rw [v16_record l]
  cases u with
  | simple => exact .inr ⟨_, v16_chooses.1, by decide⟩
  | mad => exact .inl (by decide)
  | round => exact .inl (by decide)
  | store => exact .inr ⟨_, v16_chooses.2, by decide⟩

theorem witness_LoadPartOperandsAndDestination :
    decode .bh 0x9393E3FF#32 = .ok (.sfploadmacroBh 2#2 5#3 3#4 7#3 511#9) ∧
      (let ops : LoadOps := ⟨5, 0#4, 7#3, 0x3FF#10⟩
      ops.vd.val = (5#3).toNat ∧ ops.mod0 = 0#4 ∧ ops.addrMod = 7#3 ∧ ops.imm10 = (0x9393E3FF#32).extractLsb' 0 10) ∧
      (∃ t, exec (.sfploadmacroBh 2#2 5#3 3#4 7#3 511#9) v16 = .next t) ∧
      ({ v16 with loadRaises := true } : State).loadRaises = true ∧
      dstHazard { v16 with loadRaises := true } 7#3 (imm10 511#9 5#3) = false :=
  ⟨by decide, by decide, v16_next, rfl, rfl⟩

theorem witness_SelectorZeroEverywhereIsJustTheLoad :
    (∀ d ∈ ({ v16 with fpuDistance := [(0, perThread 3)] } : State).fpuDistance, 3 ≤ d.2[v16.issuer]) ∧
      v16.loadRaises = false ∧
      ∀ (l : Lane) (u : SubUnit), seqSelector (v16.sfpu.loadMacroConfig[l].field 0#2 u) = 0#3 := by
  refine ⟨by decide, rfl, fun l u => ?_⟩
  rw [v16_record l]
  cases u <;> decide

/-- V16 with `Sequence[2]` as given in one lane. -/
def oneLane (l : Lane) (entry : Word) : State :=
  v16.withSfpu { v16.sfpu with loadMacroConfig := v16.sfpu.loadMacroConfig.set l (record entry 0x8C000000#32) }

/-- Selector 1 on Store of lane 0, the fields before it schedulable. -/
theorem witness_SelectorOneFaults :
    seqSelector ((oneLane 0 0x81000014#32).sfpu.loadMacroConfig[(0 : Lane)].field 2#2 .store) = 1#3 ∧
      dstHazard (oneLane 0 0x81000014#32) 7#3 (imm10 511#9 5#3) = false ∧ (oneLane 0 0x81000014#32).loadRaises = false ∧
      lanesAndUnits = [(0, .simple), (0, .mad), (0, .round)] ++ (0, .store) :: lanesAndUnits.drop 4 ∧
      ∀ p ∈ [((0 : Lane), SubUnit.simple), (0, .mad), (0, .round)],
        ∃ o, buildEntry (oneLane 0 0x81000014#32).params (oneLane 0 0x81000014#32).sfpu.loadMacroConfig[p.1] 2#2 5#3 3#4
          p.1 p.2 = .next o := by
  refine ⟨by decide +kernel, rfl, rfl, by decide +kernel, ?_⟩
  intro p hp
  fin_cases hp <;> exact exists_of_isNext (by decide +kernel)

/-- SFPNOP selected on Store of lane 0; SFPTRANSP selected on MAD of lane 0. -/
theorem witness_IneligibleFaults :
    (SelectorNames (record 0x02000014#32 0x8C000000#32) (seqSelector ((record 0x02000014#32 0x8C000000#32).field 2#2 .store))
        (some .sfpnop) ∧ SubUnit.store ∉ subUnitOf .sfpnop) ∧
      (SelectorNames (record 0x00000C00#32 0x8C000000#32) (seqSelector ((record 0x00000C00#32 0x8C000000#32).field 2#2 .mad))
        (some .sfptransp) ∧ SubUnit.mad ∉ subUnitOf .sfptransp) ∧
      (oneLane 0 0x02000014#32).sfpu.loadMacroConfig[(0 : Lane)] = record 0x02000014#32 0x8C000000#32 ∧
      dstHazard (oneLane 0 0x02000014#32) 7#3 (imm10 511#9 5#3) = false ∧ (oneLane 0 0x02000014#32).loadRaises = false ∧
      lanesAndUnits = [(0, .simple), (0, .mad), (0, .round)] ++ (0, .store) :: lanesAndUnits.drop 4 ∧
      ∀ p ∈ [((0 : Lane), SubUnit.simple), (0, .mad), (0, .round)],
        ∃ o, buildEntry (oneLane 0 0x02000014#32).params (oneLane 0 0x02000014#32).sfpu.loadMacroConfig[p.1] 2#2 5#3 3#4
          p.1 p.2 = .next o := by
  refine ⟨⟨.inl ⟨by decide, rfl⟩, by decide⟩, ⟨.inr (.inr ⟨0, by decide, by decide⟩), by decide⟩, by decide +kernel, rfl,
    rfl, by decide +kernel, ?_⟩
  intro p hp
  fin_cases hp <;> exact exists_of_isNext (by decide +kernel)

/-- SFPNOP with bits 7 and 6 set on Simple, SFPNOP with both clear on MAD. -/
theorem witness_ComputeOverridesReplaceOneSource :
    (∃ t, exec (.sfploadmacroBh 2#2 5#3 3#4 7#3 511#9) (configState (record 0x000002C2#32 0#32)) = .next t) ∧
      (record 0x000002C2#32 0#32).field 2#2 .simple = 0xC2#8 ∧ (record 0x000002C2#32 0#32).field 2#2 .mad = 0x02#8 ∧
      (configState (record 0x000002C2#32 0#32)).sfpu.loadMacroConfig[(9 : Lane)] = record 0x000002C2#32 0#32 ∧
      SelectorChooses (configState (record 0x000002C2#32 0#32)).params (record 0x000002C2#32 0#32) (seqSelector 0xC2#8)
        nopInsn := by
  refine ⟨exists_of_isNext (by decide +kernel), by decide, by decide, by decide +kernel, .inl ⟨by decide, rfl⟩⟩

/-- The Store field with selector 3 and bits 7 and 6 as given. -/
def storeField (hi : BitVec 2) : Word := hi.setWidth 32 <<< 30 ||| 0x03000000#32

theorem witness_StoreRegisterOverride : ∀ hi : BitVec 2,
    (∃ t, exec (.sfploadmacroBh 2#2 5#3 3#4 7#3 511#9) (configState (record (storeField hi) 0#32)) = .next t) ∧
      ((record (storeField hi) 0#32).field 2#2 .store).getLsbD 7 = hi.getLsbD 1 ∧
      ((record (storeField hi) 0#32).field 2#2 .store).getLsbD 6 = hi.getLsbD 0 ∧
      (configState (record (storeField hi) 0#32)).sfpu.loadMacroConfig[(9 : Lane)] = record (storeField hi) 0#32 ∧
      SelectorChooses (configState (record (storeField hi) 0#32)).params (record (storeField hi) 0#32)
        (seqSelector ((record (storeField hi) 0#32).field 2#2 .store)) (storeInsn ⟨5, 9⟩) := by
  intro hi
  have hsel : seqSelector ((record (storeField hi) 0#32).field 2#2 .store) = 3#3 := by
    revert hi
    decide
  refine ⟨exists_of_isNext ?_, ?_, ?_, ?_, .inr (.inl ⟨hsel, ⟨5, 9⟩, rfl, rfl⟩)⟩ <;> revert hi <;> decide +kernel

theorem witness_StoreMod0Override :
    (∃ t, exec (.sfploadmacroBh 2#2 5#3 3#4 7#3 511#9) v16 = .next t) ∧
      SelectorChooses v16.params v16.sfpu.loadMacroConfig[(9 : Lane)]
        (seqSelector (v16.sfpu.loadMacroConfig[(9 : Lane)].field 2#2 .store)) (storeInsn ⟨5, 9⟩) ∧
      SelectorChooses v16.params v16.sfpu.loadMacroConfig[(9 : Lane)]
        (seqSelector (v16.sfpu.loadMacroConfig[(9 : Lane)].field 2#2 .simple))
        ⟨.sfptransp, none, some 0, 0, none, .transp 0#4 0#12⟩ := by
  rw [v16_record]
  exact ⟨v16_next, v16_chooses.2, v16_chooses.1⟩

/-- V16 with older entries at slots 2 and 3 of Simple; the new entry's delay is 2. -/
theorem witness_ForgetThenSchedule :
    (∃ t, exec (.sfploadmacroBh 2#2 5#3 3#4 7#3 511#9) (withQueue .simple [transpEntry 2 2, transpEntry 2 3] v16) = .next t) ∧
      seqSelector ((record 0x0B000014#32 0x8C000000#32).field 2#2 .simple) ≠ 0#3 ∧
      seqDelay ((record 0x0B000014#32 0x8C000000#32).field 2#2 .simple) = 2 :=
  ⟨exists_of_isNext (by decide +kernel), by decide, by decide⟩

theorem witness_SelectorThreeNeedsItsFields :
    (⟨.bh, .refuse, none, []⟩ : Params).sel3StoreFields = none ∧ v16.params.sel3StoreFields = some ⟨5, 9⟩ := by decide

/-- A word 0x93000000 that issues in a cycle in which the FPU writes region 4. -/
def fpuCycle : State := issuing 0x93000000#32 { v16 with inputs := [⟨none, none, [⟨4, [(7, 1#32)]⟩], perThread 0, false⟩] }

theorem queue_nil_of_reset_sched {s : State} (h : s.sched = State.reset.sched) (l : Lane) (u : SubUnit) :
    s.queue l u = [] := by
  simp [State.queue, h, State.reset]

theorem witness_DstHazardFaults :
    Unmarked fpuCycle ∧ (∀ l u, (dueEntries (fpuCycle.queue l u)).length ≤ 1) ∧
      comingIssue fpuCycle = some (⟨0, by decide⟩, 0x93000000#32) ∧
      decode fpuCycle.params.arch 0x93000000#32 = .ok (.sfploadmacroBh 0#2 0#3 0#4 0#3 0#9) ∧
      fpuCycle.nextInput.fpuWrites ≠ [] := by
  refine ⟨⟨rfl, rfl⟩, fun l u => ?_, rfl, by decide, by decide⟩
  rw [queue_nil_of_reset_sched (s := fpuCycle) rfl]
  decide

/-- The first SFPLOADMACRO of a run that issues it at once, with no FPU write. -/
theorem witness_DstHazardFaults_quiet :
    (issuing 0x93000000#32 v16).dstQuiet ∧
      Host.Core.run Sys2Proof.core 0 (issuing 0x93000000#32 v16) = .next (issuing 0x93000000#32 v16) ∧
      Unmarked (issuing 0x93000000#32 v16) ∧ issuesLoadmacro (issuing 0x93000000#32 v16) = true := by
  have hissue : issuesLoadmacro (issuing 0x93000000#32 v16) = true := by decide +kernel
  refine ⟨fun n t hrun hfirst _ d hd => ?_, rfl, ⟨rfl, rfl⟩, hissue⟩
  cases n with
  | zero =>
    cases hrun
    cases hd
  | succ n =>
    rw [hfirst 0 n.succ_pos _ rfl] at hissue
    cases hissue

theorem witness_SchedulingIgnoresLanesAndData :
    ∃ t, exec (.sfploadmacroBh 2#2 5#3 3#4 7#3 511#9) v16 = .next t := v16_next

/-! ### The cycle -/

theorem nothingDue_of_reset_sched {s : State} (h : s.sched = State.reset.sched) : NothingDue s := by
  intro l u e he
  rw [queue_nil_of_reset_sched h] at he
  cases he

theorem collision_none_of_reset_sched {s : State} (h : s.sched = State.reset.sched) : collision s.atCycleStart = none :=
  collision_none (nothingDue_of_reset_sched h)

/-- An SFPTRANSP that issues with nothing due, and one that issues while an entry is due on Simple in every lane. -/
theorem witness_StepRunsDecodedInstruction :
    (Unmarked (issuing 0x8C000000#32 v16) ∧
      comingIssue (issuing 0x8C000000#32 v16) = some (⟨0, by decide⟩, 0x8C000000#32) ∧
      decode (issuing 0x8C000000#32 v16).params.arch 0x8C000000#32 = .ok (.sfptransp 0#12 0#4 0#4 0#4) ∧
      NothingDue (issuing 0x8C000000#32 v16) ∧ collision (issuing 0x8C000000#32 v16).atCycleStart = none ∧
      fate v16.params (dueTable (issuing 0x8C000000#32 v16).atCycleStart) .sfptransp false = .execute fullMask) ∧
    Unmarked (issuing 0x8C000000#32 transpDue) ∧
      comingIssue (issuing 0x8C000000#32 transpDue) = some (⟨0, by decide⟩, 0x8C000000#32) ∧
      collision (issuing 0x8C000000#32 transpDue).atCycleStart = none ∧
      fate transpDue.params (dueTable (issuing 0x8C000000#32 transpDue).atCycleStart) .sfptransp false = .discarded := by
  refine ⟨⟨⟨rfl, rfl⟩, rfl, by decide, nothingDue_of_reset_sched rfl, collision_none_of_reset_sched rfl,
    fate_nothing_due (dueTable_at_none (nothingDue_of_reset_sched (s := issuing 0x8C000000#32 v16) rfl)) _ _ _⟩,
    ⟨rfl, rfl⟩, rfl, by decide +kernel, ?_⟩
  have hfull : dueMask (dueTable (issuing 0x8C000000#32 transpDue).atCycleStart) .simple = fullMask := by
    rw [dueMask_eq_full]
    decide +kernel
  unfold fate
  rw [if_neg (by decide)]
  change (if dueMask _ _ = 0#32 then _ else _) = _
  rw [hfull, if_neg (by decide), if_pos rfl]

theorem witness_IdleCycleCompletes :
    Unmarked State.reset ∧ comingIssue State.reset = none ∧ NothingDue State.reset :=
  ⟨⟨rfl, rfl⟩, rfl, nothingDue_of_reset_sched rfl⟩

/-- The word of V16 issues; in the second clause an entry that counts down and one that waits. -/
theorem witness_SchedAfterStep :
    (∃ t, step (issuing 0x9393E3FF#32 v16) = .next t) ∧
      ((transpEntry 2 1).counter ≠ 0 ∧ (transpEntry 2 1).kind = .cycles) ∧
      ({ transpEntry 2 7 with kind := .instructions } : Entry).counter ≠ 0 := by
  refine ⟨exists_of_isNext ?_, by decide, by decide⟩
  decide +kernel

/-- Entries of both kinds due on Simple of every lane. -/
def collide : State :=
  withQueue .simple [transpEntry 2 0, { transpEntry 3 0 with kind := .instructions }] (patternState 0x0000FFFF#32 false)

theorem collide_queue (l : Lane) :
    collide.queue l .simple = [transpEntry 2 0, { transpEntry 3 0 with kind := .instructions }] := by
  revert l
  decide +kernel

theorem witness_CollisionFaults :
    Unmarked collide ∧ transpEntry 2 0 ∈ collide.queue 8 .simple ∧
      ({ transpEntry 3 0 with kind := .instructions } : Entry) ∈ collide.queue 8 .simple ∧
      transpEntry 2 0 ≠ { transpEntry 3 0 with kind := .instructions } ∧ collide.Inv := by
  refine ⟨⟨rfl, rfl⟩, by rw [collide_queue]; simp, by rw [collide_queue]; simp, by decide, ?_⟩
  refine ⟨⟨Memory.wf_nil, Memory.wf_nil⟩, fun l u => ?_, fun t => ?_, fun f hf => (nomatch hf), List.nodup_nil⟩
  · cases u with
    | simple =>
      rw [collide_queue]
      refine ⟨by decide, ?_⟩
      intro e he
      rcases List.mem_cons.1 he with rfl | he
      · exact ⟨by decide, by decide, by decide, fun _ => by decide⟩
      · rw [List.mem_singleton.1 he]
        exact ⟨by decide, by decide, by decide, fun _ => by decide⟩
    | mad => rw [show collide.queue l .mad = [] by revert l; decide +kernel]; exact ⟨List.Pairwise.nil, by simp⟩
    | round => rw [show collide.queue l .round = [] by revert l; decide +kernel]; exact ⟨List.Pairwise.nil, by simp⟩
    | store => rw [show collide.queue l .store = [] by revert l; decide +kernel]; exact ⟨List.Pairwise.nil, by simp⟩
  · simp [collide, withQueue, patternState, State.reset]

/-- A due table with the same entry everywhere on one sub-unit, and one with nothing. -/
def dueEverywhere (u : SubUnit) (e : Entry) : Due := tab 32 fun _ => tab 4 fun n => if n = u.number then some e else none

def dueNowhere : Due := tab 32 fun _ => tab 4 fun _ => none

theorem dueNowhere_at (l : Lane) (u : SubUnit) : dueNowhere.at l u = none := by
  simp [dueNowhere, Due.at]

theorem witness_TranspPriority :
    opcodeByte 0x8CFFFFFF#32 = 0x8C#8 ∧ (∀ l, ((dueEverywhere .simple (transpEntry 2 0)).at l .simple).isSome = true) ∧
      (∀ l, dueNowhere.at l .simple = none) ∧
      (∃ l, ((dueAt 4 .simple (transpEntry 2 0)).at l .simple).isSome = true) ∧
      ∃ l, (dueAt 4 .simple (transpEntry 2 0)).at l .simple = none :=
  ⟨by decide, by decide +kernel, fun l => dueNowhere_at l .simple, ⟨4, by decide⟩, 5, by decide⟩

theorem witness_LoadmacroNeverDiscarded :
    decode v16.params.arch 0x9393E3FF#32 = .ok (.sfploadmacroBh 2#2 5#3 3#4 7#3 511#9) ∧
      instrOp (.sfploadmacroBh 2#2 5#3 3#4 7#3 511#9) = .sfploadmacro := by decide

/-- An instruction of the Simple row that is not SFPTRANSP. -/
def absInsn : Insn := ⟨.sfpabs, none, some 3, 4, none, .parsed 0#32⟩

/-- V16's parameters with SFPABS declared cross-lane. -/
def crossParams : Params := { v16.params with crossLane := [.sfpabs] }

theorem witness_SingleRowInstructionLosesDueLanes :
    subUnitOf absInsn.op = [.simple] ∧
      (∀ l, ((dueEverywhere .simple (transpEntry 2 0)).at l .simple).isSome = true) ∧
      ((∃ l, (dueAt 4 .simple (transpEntry 2 0)).at l .simple = none) ∧ isCrossLane v16.params absInsn.op = false) ∧
      (∀ l, dueNowhere.at l .simple = none) ∧
      (∃ l, ((dueAt 4 .simple (transpEntry 2 0)).at l .simple).isSome = true) ∧
      isCrossLane crossParams absInsn.op = true :=
  ⟨by decide, by decide +kernel, ⟨⟨5, by decide⟩, by decide⟩, fun l => dueNowhere_at l .simple, ⟨4, by decide⟩, by decide⟩

theorem witness_UnplacedInstructionsWhileDue :
    ((dueAt 4 .mad (transpEntry 2 0)).at 4 .mad).isSome = true ∧ SubUnit.mad ≠ .store ∧
      ({ absInsn with op := .sfpload } : Insn).op = .sfpload ∧ v16.loadRaises = false ∧
      ({ v16 with loadRaises := true } : State).loadRaises = true ∧
      (subUnitOf (.unlisted 7) = [] ∧ Mnemonic.unlisted 7 ≠ .sfpload ∧ Mnemonic.unlisted 7 ≠ .sfploadmacro) ∧
      ({ absInsn with op := .sfpnop } : Insn).op = .sfpnop ∧
      ((dueAt 4 .store (transpEntry 2 0)).at 4 .store).isSome = true ∧
      ∀ l' u', u' ≠ SubUnit.store → (dueAt 4 .store (transpEntry 2 0)).at l' u' = none := by
  refine ⟨by decide, by decide, by decide, rfl, rfl, by decide, by decide, by decide, fun l' u' h => ?_⟩
  revert l'
  cases u' <;> first
    | decide
    | exact absurd rfl h

theorem witness_OtherWordsGoToParse :
    decode v16.params.arch 0x8D000000#32 = .error .notInScope ∧ ∀ l u, dueNowhere.at l u = none :=
  ⟨by decide, dueNowhere_at⟩

/-- V16 with SFPABS due on Simple of lane 3 only. -/
def absDue : State := v16.setQueue 3 .simple [⟨absInsn, 0, .cycles⟩]

theorem absDue_queue_other {l : Lane} {u : SubUnit} (h : ¬ (l = 3 ∧ u = .simple)) : absDue.queue l u = [] := by
  rw [absDue, State.queue_setQueue_other]
  · exact queue_nil_of_reset_sched rfl l u
  · intro he
    exact h ⟨(Prod.mk.inj he).1, (Prod.mk.inj he).2⟩

theorem witness_DueEntryExecutesOnItsLane :
    Unmarked absDue ∧ comingIssue absDue = none ∧ dueEntries (absDue.queue 3 .simple) = [⟨absInsn, 0, .cycles⟩] ∧
      NothingElseDue absDue (fun l u => l = 3 ∧ u = .simple) ∧ isCrossLane absDue.params absInsn.op = false ∧
      absDue.inFlight = [] ∧ absDue.atCycleStart.sfpu.wf := by
  refine ⟨⟨rfl, rfl⟩, rfl, ?_, ?_, by decide, rfl, ⟨Memory.wf_nil, Memory.wf_nil⟩⟩
  · rw [absDue, State.queue_setQueue_same]
    decide
  · intro l u h e he
    rw [absDue_queue_other h] at he
    cases he

/-- V16 with SFPABS due on Simple of every lane, an SFPTRANSP entry pending behind it. -/
def absDueAll : State := withQueue .simple [⟨absInsn, 0, .cycles⟩, transpEntry 2 3] v16

theorem absDueAll_queue (l : Lane) (u : SubUnit) :
    absDueAll.queue l u = if u = .simple then [⟨absInsn, 0, .cycles⟩, transpEntry 2 3] else [] := by
  revert l
  cases u <;> decide +kernel

theorem absDueAll_entry {l : Lane} {u : SubUnit} {e : Entry} (h : e ∈ absDueAll.queue l u) (hc : e.counter = 0) :
    u = .simple ∧ e = ⟨absInsn, 0, .cycles⟩ := by
  rw [absDueAll_queue] at h
  split at h
  · rcases List.mem_cons.1 h with rfl | h
    · exact ⟨‹_›, rfl⟩
    · rw [List.mem_singleton.1 h] at hc
      exact absurd hc (by decide)
  · cases h

theorem absDueAll_noTwoDue : NoTwoDue absDueAll := by
  intro l u
  rw [absDueAll_queue]
  cases u <;> decide

/-- The row and cycle clauses: SFPABS due in all 32 lanes and not cross-lane, one entry a queue. -/
theorem witness_DueEntryExecutesOnItsLane_all_lanes :
    (∀ (l : Lane) (e : Entry), (dueEverywhere .simple ⟨absInsn, 0, .cycles⟩).at l .simple = some e →
        isCrossLane absDueAll.params e.insn.op = false) ∧
      (∀ l : Lane, (dueEverywhere .simple ⟨absInsn, 0, .cycles⟩).at l .simple = some ⟨absInsn, 0, .cycles⟩) ∧
      NoTwoDue absDueAll ∧ NoCrossLaneDue absDueAll ∧
      ∀ l, DueRun absDueAll l .simple (.run absInsn (laneBit l) true false) := by
  have hd : ∀ l : Lane, (dueEverywhere .simple ⟨absInsn, 0, .cycles⟩).at l .simple = some ⟨absInsn, 0, .cycles⟩ := by
    decide +kernel
  refine ⟨fun l e he => ?_, hd, absDueAll_noTwoDue, fun l u e he hc => ?_, fun l => ⟨⟨absInsn, 0, .cycles⟩, ?_, rfl, rfl⟩⟩
  · rw [hd l] at he
    cases he
    decide
  · rw [(absDueAll_entry he hc).2]
    decide
  · simp [absDueAll_queue]

theorem absDue_entry {l : Lane} {u : SubUnit} {e : Entry} (h : e ∈ absDue.queue l u) :
    l = 3 ∧ u = .simple ∧ e = ⟨absInsn, 0, .cycles⟩ := by
  by_cases hlu : l = 3 ∧ u = .simple
  · obtain ⟨rfl, rfl⟩ := hlu
    rw [absDue, State.queue_setQueue_same] at h
    exact ⟨rfl, rfl, List.mem_singleton.1 h⟩
  · rw [absDue_queue_other hlu] at h
    cases h

theorem absDue_noTwoDue : NoTwoDue absDue := by
  intro l u
  by_cases hlu : l = 3 ∧ u = .simple
  · obtain ⟨rfl, rfl⟩ := hlu
    rw [absDue, State.queue_setQueue_same]
    decide
  · rw [absDue_queue_other hlu]
    decide

/-- The step clause, in a cycle where nothing issues. That two due entries do not conflict is a property of footprints,
which are free values, so one entry is due here. -/
theorem witness_DueEntryExecutesOnItsLane_step :
    Unmarked absDue ∧ NoTwoDue absDue ∧ NoCrossLaneDue absDue ∧ comingRegular absDue = .next (comingState absDue, none) ∧
      absDue.inFlight = [] ∧ absDue.sfpu.wf ∧ DueRun absDue 3 .simple (.run absInsn (laneBit 3) true false) ∧
      ∀ l u a l' u' a', DueRun absDue l u a → DueRun absDue l' u' a' → (l, u) ≠ (l', u') → a.conflicts a' = false := by
  refine ⟨⟨rfl, rfl⟩, absDue_noTwoDue, fun l u e he _ => ?_, rfl, rfl, ⟨Memory.wf_nil, Memory.wf_nil⟩,
    ⟨⟨absInsn, 0, .cycles⟩, ?_, rfl, rfl⟩, fun l u a l' u' a' h h' hne => ?_⟩
  · rw [(absDue_entry he).2.2]
    decide
  · simp [absDue, State.queue_setQueue_same]
  · obtain ⟨e, he, -⟩ := h
    obtain ⟨e', he', -⟩ := h'
    obtain ⟨rfl, rfl, -⟩ := absDue_entry he
    obtain ⟨rfl, rfl, -⟩ := absDue_entry he'
    exact absurd rfl hne

/-- SFPABS flagged cross-lane and due in all 32 lanes, nothing else due. -/
theorem witness_ScheduledCrossLane_all_lanes :
    let s : State := { absDueAll with params := crossParams }
    Unmarked s ∧ comingIssue s = none ∧ absInsn.op ≠ .sfptransp ∧ isCrossLane s.params absInsn.op = true ∧
      (∀ l, dueEntries (s.queue l .simple) = [⟨absInsn, 0, .cycles⟩]) ∧ NothingElseDue s (fun _ u => u = .simple) ∧
      s.inFlight = [] ∧ s.sfpu.wf := by
  refine ⟨⟨rfl, rfl⟩, rfl, by decide, by decide, fun l => ?_, fun l u h e he hc => h ?_, rfl,
    ⟨Memory.wf_nil, Memory.wf_nil⟩⟩
  · change dueEntries (absDueAll.queue l .simple) = _
    rw [absDueAll_queue]
    decide
  · exact (absDueAll_entry (l := l) he hc).1

/-- SFPABS flagged cross-lane and due in lane 3 only: the row clause and the cycle clause. -/
theorem witness_ScheduledCrossLane_some_lanes :
    (let d := dueAt 3 .simple ⟨absInsn, 0, .cycles⟩
    d.at 3 .simple = some ⟨absInsn, 0, .cycles⟩ ∧ d.at 4 .simple ≠ some ⟨absInsn, 0, .cycles⟩) ∧
    (let s : State := { absDue with params := crossParams }
    Unmarked s ∧ NoTwoDue s ∧ comingRegular s = .next (comingState s, none) ∧
      dueEntries (s.queue 3 .simple) = [⟨absInsn, 0, .cycles⟩] ∧ isCrossLane s.params absInsn.op = true ∧
      dueEntries (s.queue 4 .simple) ≠ [⟨absInsn, 0, .cycles⟩]) := by
  refine ⟨by decide, ⟨rfl, rfl⟩, absDue_noTwoDue, rfl, ?_, by decide, ?_⟩
  · change dueEntries (absDue.queue 3 .simple) = _
    rw [absDue, State.queue_setQueue_same]
    decide
  · change dueEntries (absDue.queue 4 .simple) ≠ _
    rw [absDue_queue_other (by decide)]
    decide

/-- Pattern P with an SFPTRANSP entry of each kind pending on Simple of every lane: the one of kind Cycles after the
third cycle, the other never. -/
def pending : State :=
  withQueue .simple [transpEntry 2 2, { transpEntry 3 1 with kind := .instructions }] (patternState fullMask false)

theorem pending_queue (l : Lane) :
    pending.queue l .simple = [transpEntry 2 2, { transpEntry 3 1 with kind := .instructions }] := by
  revert l
  decide +kernel

theorem noIssueAhead_of_no_inputs {s : State} (h : s.inputs = []) : NoIssueAhead s := by
  intro c hc
  rw [h] at hc
  cases hc

theorem witness_CyclesEntryDueOnTime :
    NoIssueAhead pending ∧ transpEntry 2 2 ∈ pending.queue 8 .simple ∧ (transpEntry 2 2).kind = .cycles ∧
      2 ≤ (transpEntry 2 2).counter.val ∧ ∃ t, Host.Core.run Sys2Proof.core 2 pending = .next t := by
  refine ⟨noIssueAhead_of_no_inputs rfl, by rw [pending_queue]; simp, rfl, by decide, ?_⟩
  exact exists_of_isNext (by decide +kernel)

theorem witness_CyclesEntriesDrainInEight :
    NoIssueAhead pending ∧ ∃ t, Host.Core.run Sys2Proof.core 8 pending = .next t :=
  ⟨noIssueAhead_of_no_inputs rfl, exists_of_isNext (by decide +kernel)⟩

theorem witness_InstructionsEntryStaysWithoutIssue :
    NoIssueAhead pending ∧ ({ transpEntry 3 1 with kind := .instructions } : Entry) ∈ pending.queue 8 .simple ∧
      ({ transpEntry 3 1 with kind := .instructions } : Entry).counter ≠ 0 ∧
      ∃ t, Host.Core.run Sys2Proof.core 3 pending = .next t := by
  refine ⟨noIssueAhead_of_no_inputs rfl, by rw [pending_queue]; simp, by decide, ?_⟩
  exact exists_of_isNext (by decide +kernel)

/-- An entry of kind Instructions at slot 7 when an instruction issues. -/
theorem witness_SlotSevenIsEmptyAtIssue :
    (comingIssue (issuing 0x8C000000#32 (withQueue .mad [{ transpEntry 3 7 with kind := .instructions }] v16))).isSome = true ∧
      (comingState (issuing 0x8C000000#32 (withQueue .mad [{ transpEntry 3 7 with kind := .instructions }] v16))).queue 8 .mad ≠
        [] := by
  decide +kernel

theorem witness_PendingEntriesKeepTheirRecords :
    comingIssue pending = none ∧ (∃ t, step pending = .next t) ∧
      ∃ t, step (pending.withSfpu { pending.sfpu with loadMacroConfig := v16.sfpu.loadMacroConfig }) = .next t :=
  ⟨rfl, exists_of_isNext (by decide +kernel), exists_of_isNext (by decide +kernel)⟩

/-- An action on no lane has an empty footprint. -/
theorem run_no_lane : (Action.run absInsn 0#32 true false).reads = [] ∧ (Action.run absInsn 0#32 true false).writes = [] :=
  ⟨rfl, rfl⟩

theorem no_conflict : (Action.transp 2).conflicts (.run absInsn 0#32 true false) = false := by
  rw [Action.conflicts_eq_false, run_no_lane.1, run_no_lane.2]
  exact ⟨fun _ _ => ⟨List.not_mem_nil, List.not_mem_nil⟩, fun _ h => (nomatch h)⟩

theorem witness_DisjointFootprintsCommute :
    (patternState fullMask false).sfpu.wf ∧ (Action.transp 2).conflicts (.run absInsn 0#32 true false) = false :=
  ⟨⟨Memory.wf_nil, Memory.wf_nil⟩, no_conflict⟩

theorem witness_PoliciesAgreeWithoutConflict :
    (patternState fullMask false).sfpu.wf ∧
      (∃ x, (Action.transp 2).perform (patternState fullMask false).sfpu = .next x) ∧
      ([.transp 2, .run absInsn 0#32 true false] : List Machine.Action).Pairwise (fun a b => a.conflicts b = false) := by
  refine ⟨⟨Memory.wf_nil, Memory.wf_nil⟩, ⟨_, transpose_eq_next.2 ⟨by decide, rfl⟩⟩, ?_⟩
  simpa using no_conflict

theorem witness_ConflictRefusedByDefault :
    ¬ ([.transp 2, .transp 3] : List Machine.Action).Pairwise (fun a b => a.conflicts b = false) := by
  decide +kernel

/-- Two writes to one location; and a producer beside an action that writes elsewhere. -/
theorem witness_OldPolicyUnderConflict :
    (patternState fullMask false).sfpu.wf ∧
      (∃ x, (Action.transp 2).perform (patternState fullMask false).sfpu = .next x) ∧
      ¬ ([.transp 2, .transp 3] : List Machine.Action).Pairwise (fun a b => a.writesMeet b = false) ∧
      ([.transp 2, .run absInsn 0#32 true false] : List Machine.Action).Pairwise (fun a b => a.writesMeet b = false) ∧
      ∀ a ∈ ([.transp 3] : List Machine.Action), ∃ post, a.perform (patternState fullMask false).sfpu = .next post := by
  refine ⟨⟨Memory.wf_nil, Memory.wf_nil⟩, ⟨_, transpose_eq_next.2 ⟨by decide, rfl⟩⟩, by decide +kernel, ?_, ?_⟩
  · rw [List.pairwise_pair, Action.writesMeet, run_no_lane.2]
    simp
  · intro a ha
    rw [List.mem_singleton.1 ha]
    exact ⟨_, transpose_eq_next.2 ⟨by decide, rfl⟩⟩

/-- Under `unit_order`: an SFPLOADMACRO issues while an SFPTRANSP is due, both writing `LReg[0]`. -/
def orderCycle : State :=
  issuing 0x93000000#32 { transpDue with params := ⟨.bh, .unitOrder, none, []⟩ }

theorem witness_UnitOrderPolicyUnderConflict :
    Unmarked orderCycle ∧ orderCycle.params.sameCyclePolicy = .unitOrder ∧ collision orderCycle.atCycleStart = none ∧
      orderCycle.inFlight = [] ∧
      (∃ (row : SubUnit → List Machine.Action),
        ∀ u, rowActions orderCycle.params (dueTable orderCycle.atCycleStart) u = .next (row u)) ∧
      ∃ s3 reg, comingRegular orderCycle = .next (s3, reg) ∧ ∃ x1, performAll [.transp 2] s3.sfpu = .next x1 := by
  refine ⟨⟨rfl, rfl⟩, rfl, by decide +kernel, rfl, ⟨fun u => if u = .simple then [.transp 2] else [], ?_⟩, ?_⟩
  · intro u
    cases u <;> rfl
  · obtain ⟨⟨s3, reg⟩, h⟩ := exists_of_isNext (o := comingRegular orderCycle) (by decide +kernel)
    refine ⟨s3, reg, h, transposeRegs s3.sfpu.laneIsEnabled s3.sfpu.lreg |> fun r => { s3.sfpu with lreg := r }, ?_⟩
    rw [performAll, foldOut_cons, show Action.perform (.transp 2) s3.sfpu = _ from transpose_eq_next.2 ⟨by simp [transpGuard], rfl⟩]
    rfl

/-- `transpDue` with lane 4 of `LReg[1]` still in flight; and V16 with it, where nothing reads it. -/
theorem witness_ReadInFlightFaults :
    (let s : State := { transpDue with inFlight := [(.lreg 1 4, 2)] }
    Unmarked s ∧ collision s.atCycleStart = none ∧ comingRegular s = .next (comingState s, none) ∧
      (∃ acts, comingDue s = .next acts ∧ Action.transp 2 ∈ acts) ∧
      Loc.lreg 1 4 ∈ (Action.transp 2).reads ∧ (Loc.lreg 1 4, 2) ∈ s.inFlight) ∧
    ∃ t, step { v16 with inFlight := [(.lreg 1 4, 2)] } = .next t := by
  refine ⟨⟨⟨rfl, rfl⟩, by decide +kernel, rfl, ⟨[.transp 2], ?_, by simp⟩, transp_reads_lreg (by decide) 4, by simp⟩,
    exists_of_isNext (by decide +kernel)⟩
  rfl

/-! ### Whole-machine rules -/

/-- `transpDue` with its due entries' VD 16 and the backdoor bit set: SFPTRANSP due with VD = 16. -/
def transp16Due : State := withQueue .simple [transpEntry 16 0] (patternState 0x0000FFFF#32 true)

theorem transp16Due_queue (l : Lane) (u : SubUnit) :
    transp16Due.queue l u = if u = .simple then [transpEntry 16 0] else [] := by
  revert l
  cases u <;> decide +kernel

theorem transp16Due_entry {l : Lane} {u : SubUnit} {e : Entry} (h : e ∈ transp16Due.queue l u) : e = transpEntry 16 0 := by
  rw [transp16Due_queue] at h
  split at h
  · exact List.mem_singleton.1 h
  · cases h

theorem transp16Due_next : ∃ t, step transp16Due = .next t := exists_of_isNext (by decide +kernel)

theorem witness_Lreg16WrittenOnlyByScheduled :
    (∃ t, step transp16Due = .next t) ∧
      ∀ l u, ∀ e ∈ transp16Due.queue l u, e.counter = 0 → e.insn.vd = 16 → e.insn.op = .sfpstore ∨ e.insn.op = .sfptransp :=
  ⟨transp16Due_next, fun _ _ e he _ _ => .inr (by rw [transp16Due_entry he]; rfl)⟩

theorem witness_Lreg16ReadOnlyByScheduledStore :
    transp16Due.sfpu.wf ∧ (∃ t, step transp16Due = .next t) ∧
      ∀ l u, ∀ e ∈ transp16Due.queue l u, e.counter = 0 → e.insn.op = .sfpstore → e.insn.vd ≠ 16 :=
  ⟨⟨Memory.wf_nil, Memory.wf_nil⟩, transp16Due_next, fun _ _ e he _ hop => by
    rw [transp16Due_entry he] at hop
    cases hop⟩

/-- The word of V16 issues with nothing due. -/
theorem witness_MacroConfigWrittenOnlyBySfpconfig :
    (∃ t, step (issuing 0x9393E3FF#32 v16) = .next t) ∧
      (∀ l u, ∀ e ∈ (issuing 0x9393E3FF#32 v16).queue l u, e.counter = 0 → e.insn.op ≠ .sfpconfig) ∧
      ∀ th w i, comingIssue (issuing 0x9393E3FF#32 v16) = some (th, w) → parse w = some i → i.op ≠ .sfpconfig := by
  refine ⟨exists_of_isNext (by decide +kernel), fun l u e he => ?_, fun th w i hi hp => ?_⟩
  · rw [queue_nil_of_reset_sched (s := issuing 0x9393E3FF#32 v16) rfl] at he
    cases he
  · have hw : comingIssue (issuing 0x9393E3FF#32 v16) = some (⟨0, by decide⟩, 0x9393E3FF#32) := rfl
    rw [hw] at hi
    cases hi
    cases hp
    decide

theorem witness_IssuingThreadMovesOnByOne : ∃ t, step (issuing 0x9393E3FF#32 v16) = .next t :=
  exists_of_isNext (by decide +kernel)

/-- A cycle in which the FPU writes region 4; region 5 was written before. -/
def fpuWriteCycle : State :=
  { v16 with
    inputs := [⟨none, none, [⟨4, [(7, 1#32)]⟩], perThread 2, false⟩]
    fpuDistance := [(5, perThread 1)] }

/-- R126, D25: an SFPTRANSP of thread 1 is one more instruction for thread 1 and for no other. -/
theorem test_thread_counts_its_own_instructions :
    (ageDistances CycleInput.idle ⟨1, by decide⟩ (some (.transp 0)) [(5, perThread 2)]).map (fun d => d.2.toList) =
      [[2, 3, 2]] := by decide

/-- The cycle without an issue, and with an SFPTRANSP that issues. -/
theorem witness_FpuDistanceAfterStep :
    (∃ t, step fpuWriteCycle = .next t) ∧ comingRegular fpuWriteCycle = .next (comingState fpuWriteCycle, none) ∧
      (∃ w ∈ fpuWriteCycle.nextInput.fpuWrites, w.region = 4) ∧
      (∀ w ∈ fpuWriteCycle.nextInput.fpuWrites, w.region ≠ 5) ∧ (5, perThread 1) ∈ fpuWriteCycle.fpuDistance ∧
      (∀ n, (6, n) ∉ fpuWriteCycle.fpuDistance) ∧ (∀ w ∈ fpuWriteCycle.nextInput.fpuWrites, w.region ≠ 6) ∧
      (∃ t, step (issuing 0x8C000000#32 fpuWriteCycle) = .next t) ∧
      (∃ s3, comingRegular (issuing 0x8C000000#32 fpuWriteCycle) = .next (s3, some (.transp 0))) ∧
      CountsForThread (comingIssue (issuing 0x8C000000#32 fpuWriteCycle)) (some (.transp 0)) ⟨0, by decide⟩ ∧
      ¬ CountsForThread (comingIssue (issuing 0x8C000000#32 fpuWriteCycle)) (some (.transp 0)) ⟨1, by decide⟩ :=
  ⟨exists_of_isNext (by decide +kernel), rfl, by decide, by decide, by decide, by simp [fpuWriteCycle], by decide,
    exists_of_isNext (by decide +kernel), ⟨_, rfl⟩, ⟨rfl, _, rfl, rfl⟩, fun h => absurd h.1 (by decide)⟩

theorem witness_ParametersNeverChange : ∃ t, step fpuWriteCycle = .next t := exists_of_isNext (by decide +kernel)

theorem witness_MarksAreSticky :
    ({ v16 with faultMark := some .dstHazard } : State).faultMark = some .dstHazard ∧
      ({ v16 with refusalMark := some .reservedBitsSet } : State).faultMark = none ∧
      ({ v16 with refusalMark := some .reservedBitsSet } : State).refusalMark = some .reservedBitsSet := ⟨rfl, rfl, rfl⟩

/-- V16 with its word issuing: in every lane the step schedules two entries. -/
theorem witness_StepKeepsInvariant :
    (issuing 0x9393E3FF#32 v16).Inv ∧ ∃ t, step (issuing 0x9393E3FF#32 v16) = .next t := by
  refine ⟨⟨⟨Memory.wf_nil, Memory.wf_nil⟩, fun l u => ?_, by decide, fun f hf => (nomatch hf), List.nodup_nil⟩,
    exists_of_isNext (by decide +kernel)⟩
  rw [queue_nil_of_reset_sched (s := issuing 0x9393E3FF#32 v16) rfl]
  exact ⟨List.Pairwise.nil, by simp⟩

end Sys2Proof.Tests
end

section
/-! SUPPORT. The invariant of the machine: the records that SFPLOADMACRO schedules are well formed (R12, R65, R69), the
operations on a queue keep it well formed (R68, R82, R86), and so do threads, results in flight and FPU distances keep
what the invariant says of them. -/

namespace Sys2Proof

/-- `LReg[16]` stands in neither source field of a record (R12). -/
def Insn.noLreg16Source (i : Insn) : Prop := i.vb ≠ some Machine.lreg16 ∧ i.vc ≠ some Machine.lreg16

end Sys2Proof

namespace Sys2Proof.Machine

/-! ### Records: `LReg[16]` as a source, and the destination -/

theorem lregOf3_ne_lreg16 (r : BitVec 3) : lregOf3 r ≠ lreg16 := by
  simp only [lregOf3, lreg16, ne_eq, Fin.ext_iff, Fin.isValue]
  omega

theorem lregOf4_ne_lreg16 (r : BitVec 4) : lregOf4 r ≠ lreg16 := by
  simp only [lregOf4, lreg16, ne_eq, Fin.ext_iff, Fin.isValue]
  omega

theorem map_lregOf4_ne_lreg16 (o : Option (BitVec 4)) : o.map lregOf4 ≠ some lreg16 := by
  simp [Option.map_eq_some_iff, lregOf4_ne_lreg16]

/-- A register field of an instruction word reaches 15 at most (R12). -/
theorem parse_noLreg16Source {w : Word} {i : Insn} (h : parse w = some i) : i.noLreg16Source := by
  unfold parse at h
  split_ifs at h
  · cases h
    exact ⟨nofun, fun he => lregOf4_ne_lreg16 _ (Option.some.inj he)⟩
  · cases h
    exact ⟨nofun, nofun⟩
  · split at h
    · cases h
    · split_ifs at h
      cases h
      exact ⟨map_lregOf4_ne_lreg16 _, map_lregOf4_ne_lreg16 _⟩

/-- A selector chooses the SFPNOP of selector 2 or a parsed template (R63). -/
theorem choose_insn {c : MacroConfig} {sel : BitVec 3} {i : Insn} (h : choose c sel = .insn i) :
    i = nopInsn ∨ ∃ w, parse w = some i := by
  unfold choose at h
  split_ifs at h
  · exact .inl (Choice.insn.inj h).symm
  · split at h
    · rename_i hp
      cases h
      exact .inr ⟨_, hp⟩
    · cases h

theorem choose_noLreg16Source {c : MacroConfig} {sel : BitVec 3} {i : Insn} (h : choose c sel = .insn i) :
    i.noLreg16Source := by
  rcases choose_insn h with rfl | ⟨w, hw⟩
  · exact ⟨nofun, nofun⟩
  · exact parse_noLreg16Source hw

/-- The instruction selected is the one chosen, or the SFPSTORE of selector 3 (R63). -/
theorem selectInsn_some {p : Params} {c : MacroConfig} {l : Lane} {u : SubUnit} {sel : BitVec 3} {i : Insn}
    (h : selectInsn p c l u sel = .next (some i)) : choose c sel = .insn i ∨ ∃ f, i = storeInsn f := by
  unfold selectInsn at h
  split at h
  · cases h
  · cases h
  · cases h
  · rename_i hc
    split_ifs at h
    cases h
    exact .inl hc
  · split_ifs at h
    split at h
    · cases h
      exact .inr ⟨_, rfl⟩
    · cases h

theorem selectInsn_noLreg16Source {p : Params} {c : MacroConfig} {l : Lane} {u : SubUnit} {sel : BitVec 3} {i : Insn}
    (h : selectInsn p c l u sel = .next (some i)) : i.noLreg16Source := by
  rcases selectInsn_some h with hc | ⟨f, rfl⟩
  · exact choose_noLreg16Source hc
  · exact ⟨nofun, nofun⟩

theorem overrideCompute_noLreg16Source (b : BitVec 8) (vd : BitVec 3) {i : Insn} (h : i.noLreg16Source) :
    (overrideCompute b vd i).noLreg16Source := by
  have hvd : some (lregOf3 vd) ≠ some lreg16 := fun he => lregOf3_ne_lreg16 vd (Option.some.inj he)
  unfold overrideCompute Insn.noLreg16Source
  cases seqSelectsVb b
  · exact ⟨h.1, hvd⟩
  · exact ⟨hvd, h.2⟩

/-- Simple, MAD and Round give a destination: `LReg[16]` or `LReg[VD]` (R65). -/
theorem overrideCompute_vd (b : BitVec 8) (vd : BitVec 3) (i : Insn) :
    (overrideCompute b vd i).vd = lreg16 ∨ (overrideCompute b vd i).vd.val < 8 := by
  unfold overrideCompute
  cases seqUsesLreg16 b
  · exact .inr (lregOf3_lt vd)
  · exact .inl rfl

theorem overrides_noLreg16Source (c : MacroConfig) (u : SubUnit) (b : BitVec 8) (m : BitVec 2) (vd : BitVec 3)
    (mod0 : BitVec 4) {i : Insn} (h : i.noLreg16Source) : (overrides c u b m vd mod0 i).noLreg16Source := by
  cases u with
  | simple | mad | round => exact overrideCompute_noLreg16Source b vd h
  | store => exact h

theorem overrides_vd (c : MacroConfig) {u : SubUnit} (hu : u ≠ .store) (b : BitVec 8) (m : BitVec 2) (vd : BitVec 3)
    (mod0 : BitVec 4) (i : Insn) :
    (overrides c u b m vd mod0 i).vd = lreg16 ∨ (overrides c u b m vd mod0 i).vd.val < 8 := by
  cases u with
  | simple | mad | round => exact overrideCompute_vd b vd i
  | store => exact absurd rfl hu

/-- An entry that an SFPLOADMACRO builds is well formed. -/
theorem buildEntry_wf {p : Params} {c : MacroConfig} {m : BitVec 2} {vd : BitVec 3} {mod0 : BitVec 4} {l : Lane}
    {u : SubUnit} {e : Entry} (h : buildEntry p c m vd mod0 l u = .next (some e)) : e.wf u := by
  rcases buildEntry_spec h with ⟨he, -⟩ | ⟨i, hsel, hu, he⟩
  · cases he
  · cases he
    obtain ⟨hvb, hvc⟩ := overrides_noLreg16Source c u (c.field m u) m vd mod0 (selectInsn_noLreg16Source hsel)
    exact ⟨by rwa [overrides_op], hvb, hvc, fun hne => overrides_vd c hne _ _ _ _ _⟩

/-! ### Queues: count-down and scheduling -/

@[simp] theorem Entry.countDown_insn (b : Bool) (e : Entry) : (e.countDown b).insn = e.insn := by
  unfold Entry.countDown; split <;> rfl

@[simp] theorem Entry.countDown_kind (b : Bool) (e : Entry) : (e.countDown b).kind = e.kind := by
  unfold Entry.countDown; split <;> rfl

/-- Two pending entries of one kind count down together, so that they keep different counters. -/
theorem Entry.countDown_counter_ne {b : Bool} {e e' : Entry} (hkind : e.kind = e'.kind) (h0 : e.counter ≠ 0)
    (h0' : e'.counter ≠ 0) (hne : e.counter ≠ e'.counter) : (e.countDown b).counter ≠ (e'.countDown b).counter := by
  simp only [ne_eq, Fin.ext_iff, Fin.isValue, Fin.val_zero] at h0 h0' hne
  unfold Entry.countDown
  rw [hkind]
  split
  · simp only [ne_eq, Fin.mk.injEq]
    omega
  · simpa only [ne_eq, Fin.ext_iff] using hne

/-- Where an instruction issues, slot 7 is empty after the count-down (R86). -/
theorem Entry.countDown_counter_ne_seven (e : Entry) : (e.countDown true).counter ≠ 7 := by
  unfold Entry.countDown
  simp only [or_true, if_true, ne_eq, Fin.ext_iff, Fin.isValue]
  have := e.counter.isLt
  omega

theorem queueWf_countDown {u : SubUnit} {q : List Entry} (hq : queueWf u q) (b : Bool) :
    queueWf u ((pendingEntries q).map (Entry.countDown b)) := by
  obtain ⟨hpair, hwf⟩ := hq
  constructor
  · rw [List.pairwise_map]
    refine (hpair.filter _).imp_of_mem fun he he' hne hkind => ?_
    rw [Entry.countDown_kind, Entry.countDown_kind] at hkind
    exact Entry.countDown_counter_ne hkind (mem_pendingEntries.1 he).2 (mem_pendingEntries.1 he').2 (hne hkind)
  · intro e' he'
    obtain ⟨e, he, rfl⟩ := List.mem_map.1 he'
    simpa only [Entry.wf, Entry.countDown_insn] using hwf e (mem_pendingEntries.1 he).1

theorem forget_sublist (q : List Entry) (delay : Fin 8) : (forget q delay).Sublist q := by
  unfold forget
  split
  · exact List.Sublist.refl q
  · exact List.filter_sublist

/-- Forgetting leaves nothing at the delay's slot, slot 7 being empty before (R68, R86). -/
theorem forget_counter_ne {q : List Entry} {delay : Fin 8} (h7 : ∀ e ∈ q, e.counter ≠ 7) :
    ∀ e ∈ forget q delay, e.counter ≠ delay := by
  intro e he
  unfold forget at he
  split at he
  · rename_i hd
    exact hd ▸ h7 e he
  · simpa using (List.mem_filter.1 he).2

theorem queueWf_forgetAndSchedule {u : SubUnit} {q : List Entry} {e : Entry} (hq : queueWf u q) (he : e.wf u)
    (h7 : ∀ e' ∈ q, e'.counter ≠ 7) : queueWf u (forgetAndSchedule q e) := by
  obtain ⟨hpair, hwf⟩ := hq
  have hkept : (forget q e.counter).Pairwise fun e e' => e.kind = e'.kind → e.counter ≠ e'.counter :=
    hpair.sublist (forget_sublist q _)
  constructor
  · unfold forgetAndSchedule
    dsimp only
    split
    · exact hkept
    · refine List.pairwise_append.2 ⟨hkept, List.pairwise_singleton _ _, fun e₁ he₁ e₂ he₂ _ => ?_⟩
      rw [List.mem_singleton.1 he₂]
      exact forget_counter_ne h7 e₁ he₁
  · intro e' he'
    rcases mem_forgetAndSchedule.1 he' with rfl | ⟨hin, -⟩
    · exact he
    · exact hwf e' hin

/-- Every queue after step 3: counted down, and perhaps with an entry that the cycle's SFPLOADMACRO schedules. -/
theorem regularPart_queueWf {c : CycleInput} {d : Due} {s s3 : State} {reg : Option Action}
    (hq : ∀ l u, queueWf u (s.queue l u))
    (h : regularPart d (issueOf c s) (beforeRegular c s) = .next (s3, reg)) (l : Lane) (u : SubUnit) :
    queueWf u (s3.queue l u) := by
  obtain ⟨o, ho, hbuilt⟩ := regularPart_queue h l u
  rw [ho, beforeRegular_queue]
  have hcount := queueWf_countDown (hq l u) (issueOf c s).isSome
  cases o with
  | none => exact hcount
  | some e =>
    obtain ⟨th, w, m, vd, mod0, am, imm9, hissue, -, hb⟩ := hbuilt e rfl
    rw [hissue] at hcount ⊢
    refine queueWf_forgetAndSchedule hcount (buildEntry_wf hb) fun e' he' => ?_
    obtain ⟨e₀, -, rfl⟩ := List.mem_map.1 he'
    exact Entry.countDown_counter_ne_seven e₀

/-! ### Threads, results in flight and FPU distances -/

/-- The word that issues stands in its thread's list. -/
theorem issueOf_position_lt {c : CycleInput} {s : State} {th : Fin Config.nThreads} {w : Word}
    (h : issueOf c s = some (th, w)) : s.threads[th].position < s.threads[th].words.length := by
  unfold issueOf at h
  split at h
  · cases h
  · split at h
    · cases h
    · rename_i hw
      cases h
      exact (List.getElem?_eq_some_iff.1 hw).1

theorem beforeRegular_position_le {c : CycleInput} {s : State}
    (hs : ∀ th : Fin Config.nThreads, s.threads[th].position ≤ s.threads[th].words.length) (th : Fin Config.nThreads) :
    (beforeRegular c s).threads[th].position ≤ (beforeRegular c s).threads[th].words.length := by
  unfold beforeRegular
  cases hi : issueOf c s with
  | none => exact hs th
  | some tw =>
    obtain ⟨t, w⟩ := tw
    have hlt := issueOf_position_lt hi
    simp only [advanceThread, advanceSched_threads, vector_set_getElem]
    split
    · exact hlt
    · exact hs th

theorem noteFpuWrite_nodup {ds : List (Nat × Vector Nat Config.nThreads)} (h : (ds.map Prod.fst).Nodup) (r : Nat) :
    ((noteFpuWrite ds r).map Prod.fst).Nodup := by
  simp only [noteFpuWrite, List.map_cons, List.nodup_cons]
  refine ⟨?_, h.sublist (List.filter_sublist.map _)⟩
  simp

theorem noteFpuWrites_nodup (ws : List FpuWrite) {ds : List (Nat × Vector Nat Config.nThreads)}
    (h : (ds.map Prod.fst).Nodup) :
    ((ws.foldl (fun ds w => noteFpuWrite ds w.region) ds).map Prod.fst).Nodup := by
  induction ws generalizing ds with
  | nil => exact h
  | cons w ws ih => exact ih (noteFpuWrite_nodup h w.region)

/-- Growing the distances keeps their regions. -/
@[simp] theorem ageDistances_regions (c : CycleInput) (issuer : Fin Config.nThreads) (reg : Option Action)
    (ds : List (Nat × Vector Nat Config.nThreads)) : (ageDistances c issuer reg ds).map Prod.fst = ds.map Prod.fst := by
  rw [ageDistances, List.map_map]
  refine List.map_congr_left fun d _ => ?_
  rw [Function.comp_apply]
  split <;> rfl

/-! ### The whole step -/

/-- What step 3 leaves of the unit is in canonical form. -/
theorem regularPart_wf {d : Due} {issue : Option (Fin Config.nThreads × Word)} {s t : State} {reg : Option Action}
    (hs : s.sfpu.wf) (h : regularPart d issue s = .next (t, reg)) : t.sfpu.wf := by
  rcases regularPart_action h with ⟨-, hx⟩ | ⟨a, -, hx, -, -⟩
  · rwa [hx]
  · exact Action.perform_wf hs hx

/-- The environment keeps the invariant. -/
theorem State.Inv.atCycleStart {s : State} (h : s.Inv) : s.atCycleStart.Inv := by
  obtain ⟨hwf, hq, hth, hfl, hdist⟩ := h
  exact ⟨State.atCycleStart_wf hwf, hq, hth, hfl, noteFpuWrites_nodup _ hdist⟩

/-- Step 3, with what comes before it in a cycle, keeps the invariant. -/
theorem State.Inv.regularPart {c : CycleInput} {d : Due} {s s3 : State} {reg : Option Action} (hs : s.Inv)
    (h : regularPart d (issueOf c s) (beforeRegular c s) = .next (s3, reg)) : s3.Inv := by
  obtain ⟨hwf, hq, hth, hfl, hdist⟩ := hs
  have hframe := regularPart_frame h
  refine ⟨regularPart_wf (by rwa [beforeRegular_sfpu]) h, regularPart_queueWf hq h, ?_, ?_, ?_⟩
  · rw [hframe]
    exact beforeRegular_position_le hth
  · rw [hframe]
    simpa using hfl
  · rw [hframe]
    simpa using hdist

/-- Settles O58: the environment and step 3 keep the invariant, the due actions keep the canonical form, and the end of
the cycle keeps in flight only what has cycles left, and every region. -/
theorem stepKeepsInvariant : Obligations.StepKeepsInvariant := by
  unfold Obligations.StepKeepsInvariant
  intro s t hs h
  obtain ⟨-, -, -, s3, reg, acts, x, h3, -, -, hx, rfl⟩ := step_spec h
  obtain ⟨hwf, hq, hth, -, hdist⟩ := hs.atCycleStart.regularPart h3
  exact ⟨coexecute_wf hwf hx, hq, hth, fun _ hf => (mem_ageInFlight.1 hf).1, by rwa [ageDistances_regions]⟩

end Sys2Proof.Machine
end

section
/-! SUPPORT. Two runs of SFPLOADMACRO: of the unit, its scheduling reads `LoadMacroConfig` only, and its hazard check the
address counters (R21, R62, R126). -/

namespace Sys2Proof.Machine

/-- Two runs of a loop from related starts: if each pass keeps the relation and completes in the second run where it
does in the first, so does the loop. -/
theorem foldOut_simulates {α β γ : Type} {f : α → β → Out β} {g : α → γ → Out γ} {as : List α} {R : β → γ → Prop}
    (hstep : ∀ a ∈ as, ∀ b c b', R b c → f a b = .next b' → ∃ c', g a c = .next c' ∧ R b' c') :
    ∀ {b c b'}, R b c → foldOut f as b = .next b' → ∃ c', foldOut g as c = .next c' ∧ R b' c' := by
  induction as with
  | nil =>
    rintro b c b' hR h
    cases h
    exact ⟨c, rfl, hR⟩
  | cons a as ih =>
    rintro b c b' hR h
    obtain ⟨b₁, h₁, hrest⟩ := andThen_eq_next.1 h
    obtain ⟨c₁, hc₁, hR₁⟩ := hstep a List.mem_cons_self b c b₁ hR h₁
    rw [foldOut_cons, hc₁]
    exact ih (fun a' ha' => hstep a' (List.mem_cons_of_mem _ ha')) hR₁ hrest

/-- One pass of the scheduling loop reads nothing of the unit but `LoadMacroConfig`. -/
theorem scheduleOne_withSfpu {m : BitVec 2} {vd : BitVec 3} {mod0 : BitVec 4} {lu : Lane × SubUnit} {s t : State}
    {x : Sfpu} (hcfg : s.sfpu.loadMacroConfig = x.loadMacroConfig) (h : scheduleOne m vd mod0 lu s = .next t) :
    scheduleOne m vd mod0 lu (s.withSfpu x) = .next (t.withSfpu x) ∧ t.sfpu = s.sfpu := by
  obtain ⟨e, he, rfl⟩ := scheduleOne_eq_next.1 h
  rw [hcfg] at he
  constructor
  · exact scheduleOne_eq_next.2 ⟨e, he, by cases e <;> rfl⟩
  · cases e <;> rfl

theorem scheduleAll_withSfpu {m : BitVec 2} {vd : BitVec 3} {mod0 : BitVec 4} {s t : State} {x : Sfpu}
    (hcfg : s.sfpu.loadMacroConfig = x.loadMacroConfig) (h : scheduleAll m vd mod0 s = .next t) :
    scheduleAll m vd mod0 (s.withSfpu x) = .next (t.withSfpu x) := by
  obtain ⟨t', ht', rfl, -⟩ := foldOut_simulates
    (R := fun b c => c = b.withSfpu x ∧ b.sfpu.loadMacroConfig = x.loadMacroConfig)
    (by
      rintro lu - b _ b' ⟨rfl, hb⟩ hb'
      obtain ⟨hone, hsfpu⟩ := scheduleOne_withSfpu hb hb'
      exact ⟨_, hone, rfl, hsfpu ▸ hb⟩)
    ⟨rfl, hcfg⟩ h
  exact ht'

/-- The hazard check reads the FPU distances, the thread that issues and the address counters (R126). -/
theorem dstHazard_withSfpu {s : State} {x : Sfpu} (hctr : s.sfpu.addrCounters = x.addrCounters) (am : BitVec 3)
    (i : BitVec 10) : dstHazard (s.withSfpu x) am i = dstHazard s am i := by
  unfold dstHazard
  rw [State.withSfpu_sfpu, ← hctr]
  rfl

/-- A Blackhole SFPLOADMACRO that completes also does on another unit with the same `LoadMacroConfig` and the same
address counters, and schedules the same there. -/
theorem execSfploadmacroBh_withSfpu {m : BitVec 2} {vd : BitVec 3} {mod0 : BitVec 4} {am : BitVec 3} {i : BitVec 9}
    {s t : State} {x : Sfpu} (hcfg : s.sfpu.loadMacroConfig = x.loadMacroConfig)
    (hctr : s.sfpu.addrCounters = x.addrCounters) (h : execSfploadmacroBh m vd mod0 am i s = .next t) :
    execSfploadmacroBh m vd mod0 am i (s.withSfpu x) =
      .next (t.withSfpu (loadSem (macroLoadOps vd am i) x)) := by
  obtain ⟨hz, hl, -, -⟩ := execSfploadmacroBh_spec h
  rw [execSfploadmacroBh_eq hz hl] at h
  rw [execSfploadmacroBh_eq ((dstHazard_withSfpu hctr am (imm10 i vd)).trans hz) hl]
  have hloads : (loadPart (macroLoadOps vd am i) s).sfpu.loadMacroConfig =
      (loadSem (macroLoadOps vd am i) x).loadMacroConfig := by
    simpa using hcfg
  exact (scheduleAll_withSfpu hloads h :)

/-- Settles O29: LaneEnabled, the LRegs and Dst are none of what SFPLOADMACRO's scheduling and hazard check read. -/
theorem schedulingIgnoresLanesAndData : Obligations.SchedulingIgnoresLanesAndData := by
  unfold Obligations.SchedulingIgnoresLanesAndData
  intro m vd mod0 am imm9 s t mask regs dst h
  exact ⟨_, execSfploadmacroBh_withSfpu (x := { s.sfpu with laneEnabled := mask, lreg := regs, dst := dst }) rfl rfl h,
    fun _ _ => rfl⟩

end Sys2Proof.Machine
end

section
/-! SUPPORT. `LoadMacroConfig` is written by SFPCONFIG only (R14). -/

namespace Sys2Proof.Machine

/-- Units that hold the same in every location of `LoadMacroConfig` have the same one. -/
theorem loadMacroConfig_eq_of_get {x y : Sfpu} (h : ∀ loc : Loc, loc.isMacroConfig = true → x.get loc = y.get loc) :
    x.loadMacroConfig = y.loadMacroConfig := by
  have hwf : Sfpu.reset.wf := ⟨Memory.wf_nil, Memory.wf_nil⟩
  have hunit : { Sfpu.reset with loadMacroConfig := x.loadMacroConfig } =
      { Sfpu.reset with loadMacroConfig := y.loadMacroConfig } := by
    refine Sfpu.ext_get hwf hwf fun loc => ?_
    cases loc with
    | sequenceEntry l m => exact h (.sequenceEntry l m) rfl
    | instructionTemplate l t => exact h (.instructionTemplate l t) rfl
    | storeMod0 l => exact h (.storeMod0 l) rfl
    | usesLoadMod0ForStore l => exact h (.usesLoadMod0ForStore l) rfl
    | unitDelayKind l => exact h (.unitDelayKind l) rfl
    | lreg | dst | addrCounter | disableBackdoorLoad | laneEnabled => rfl
  exact (congrArg Sfpu.loadMacroConfig hunit :)

/-- A due action is the execution of an entry of a queue whose counter is 0. -/
theorem dueActions_run {s : State} {p : Params} {acts : List Action} {i : Insn} {lanes : LaneMask} {sch cr : Bool}
    (h : dueActions p (dueTable s) = .next acts) (ha : Action.run i lanes sch cr ∈ acts) :
    ∃ l u, ∃ e ∈ s.queue l u, e.counter = 0 ∧ e.insn = i := by
  obtain ⟨u, l, e, hd, hrun⟩ := dueActions_mem h ha
  rw [dueTable_at] at hd
  obtain ⟨hq, h0⟩ := mem_dueEntries.1 (List.mem_of_head? hd)
  refine ⟨l, u, e, hq, h0, ?_⟩
  rcases hrun with hrun | ⟨-, hrun⟩
  · unfold crossAction at hrun
    split at hrun <;> cases hrun
    rfl
  · cases hrun
    rfl

/-- Settles O53: neither the regular action nor a due one has a location of `LoadMacroConfig` in its write footprint,
unless it is an SFPCONFIG. -/
theorem macroConfigWrittenOnlyBySfpconfig : Obligations.MacroConfigWrittenOnlyBySfpconfig := by
  unfold Obligations.MacroConfigWrittenOnlyBySfpconfig
  intro s t h hdue hissue
  obtain ⟨-, -, -, s3, reg, acts, x, h3, hacts, -, hx, rfl⟩ := step_spec h
  refine (loadMacroConfig_eq_of_get fun loc hloc => ?_).trans (State.atCycleStart_loadMacroConfig s)
  have hdueKeeps : x.get loc = s3.sfpu.get loc := by
    refine coexecute_other (fun a ha hw => ?_) hx
    obtain ⟨i, lanes, sch, cr, rfl, hop⟩ := Action.writes_macroConfig hloc hw
    obtain ⟨l, u, e, he, h0, rfl⟩ := dueActions_run hacts ha
    exact hdue l u e he h0 hop
  have hregKeeps : s3.sfpu.get loc = s.atCycleStart.sfpu.get loc := by
    rw [← beforeRegular_sfpu s.nextInput s.atCycleStart]
    rcases regularPart_action h3 with ⟨-, hsame⟩ | ⟨a, -, hperform, -, hparse⟩
    · rw [hsame]
    · refine Action.perform_other hperform fun hw => ?_
      obtain ⟨i, lanes, sch, cr, rfl, hop⟩ := Action.writes_macroConfig hloc hw
      obtain ⟨th, w, hth, hp⟩ := hparse i lanes sch cr rfl
      exact hissue th w i hth hp hop
  exact hdueKeeps.trans hregKeeps

end Sys2Proof.Machine
end

section
/-! SUPPORT. What `LReg[16]` holds reaches nothing else in a cycle in which no SFPSTORE with VD = 16 is due (R12): every
part of a cycle acts alike on units that differ in `LReg[16]` only. -/

namespace Sys2Proof.Machine

/-! ### Units that differ at most in `LReg[16]` -/

/-- Two units in canonical form that hold the same in every location outside `LReg[16]`. -/
structure AgreeOffLreg16 (x y : Sfpu) : Prop where
  left_wf  : x.wf
  right_wf : y.wf
  get_eq   : ∀ loc : Loc, loc.isLreg16 = false → x.get loc = y.get loc

/-- `LReg[16]` is no part of `LoadMacroConfig`. -/
theorem isLreg16_of_isMacroConfig {loc : Loc} (h : loc.isMacroConfig = true) : loc.isLreg16 = false := by
  cases loc with
  | lreg => cases h
  | _ => rfl

theorem AgreeOffLreg16.loadMacroConfig_eq {x y : Sfpu} (h : AgreeOffLreg16 x y) :
    x.loadMacroConfig = y.loadMacroConfig :=
  loadMacroConfig_eq_of_get fun loc hloc => h.get_eq loc (isLreg16_of_isMacroConfig hloc)

theorem AgreeOffLreg16.addrCounters_eq {x y : Sfpu} (h : AgreeOffLreg16 x y) : x.addrCounters = y.addrCounters :=
  Memory.ext_read h.left_wf.2 h.right_wf.2 fun n => h.get_eq (.addrCounter n) rfl

/-- Other contents of `LReg[16]`, and nothing else other. -/
theorem agreeOffLreg16_set {x : Sfpu} (hx : x.wf) (v : Vector Word 32) :
    AgreeOffLreg16 x { x with lreg := x.lreg.set 16 v } := by
  refine ⟨hx, hx, fun loc hloc => ?_⟩
  cases loc with
  | lreg r l =>
    have hr : lreg16 ≠ r := fun he => by simp [Loc.isLreg16, he] at hloc
    have hset : (x.lreg.set 16 v)[r] = x.lreg[r] := (vector_set_getElem x.lreg lreg16 r v).trans (if_neg hr)
    change x.lreg[r][l] = (x.lreg.set 16 v)[r][l]
    rw [hset]
  | _ => rfl

/-- An action does not read `LReg[16]`. -/
def Action.ignoresLreg16 (a : Action) : Prop := ∀ loc ∈ a.reads, loc.isLreg16 = false

/-- Only a scheduled SFPSTORE with VD = 16 reads `LReg[16]` (R12). -/
theorem Action.ignoresLreg16_of_not_store {a : Action}
    (h : ∀ i lanes cr, a = .run i lanes true cr → i.op = .sfpstore → i.vd ≠ lreg16) : a.ignoresLreg16 := by
  intro loc hread
  cases loc with
  | lreg r l =>
    refine beq_eq_false_iff_ne.2 ?_
    rintro rfl
    obtain ⟨i, lanes, cr, ha, hop, hvd⟩ := Action.reads_lreg16 hread
    exact h i lanes cr ha hop hvd
  | _ => rfl

/-- No regular instruction reads `LReg[16]` (R12). -/
theorem regularAction_ignoresLreg16 (p : Params) (i : Insn) (lanes : LaneMask) :
    (regularAction p i lanes).ignoresLreg16 := by
  refine Action.ignoresLreg16_of_not_store fun i' lanes' cr he => ?_
  rcases regularAction_cases p i lanes with ⟨-, ha⟩ | ⟨-, ha⟩
  · cases ha.symm.trans he
  · cases ha.symm.trans he

/-- An action that does not read `LReg[16]` acts alike on units that differ there only. -/
theorem Action.perform_agree {a : Action} (ha : a.ignoresLreg16) {x y x' : Sfpu} (hxy : AgreeOffLreg16 x y)
    (h : a.perform x = .next x') : ∃ y', a.perform y = .next y' ∧ AgreeOffLreg16 x' y' := by
  obtain ⟨hx, hy, hget⟩ := hxy
  obtain ⟨y', hy', hmem⟩ := Action.perform_local hx hy (fun loc hl => hget loc (ha loc hl)) h
  refine ⟨y', hy', Action.perform_wf hx h, Action.perform_wf hy hy', fun loc hloc => ?_⟩
  by_cases hw : loc ∈ a.writes
  · exact hmem loc hw (hget loc hloc)
  · rw [Action.perform_other h hw, Action.perform_other hy' hw, hget loc hloc]

theorem AgreeOffLreg16.overlay {x y x' y' : Sfpu} (h : AgreeOffLreg16 x y) (h' : AgreeOffLreg16 x' y')
    (locs : List Loc) : AgreeOffLreg16 (x.overlay locs x') (y.overlay locs y') := by
  obtain ⟨hx, hy, hget⟩ := h
  obtain ⟨-, -, hget'⟩ := h'
  refine ⟨Sfpu.overlay_wf hx _ _, Sfpu.overlay_wf hy _ _, fun loc hloc => ?_⟩
  by_cases hl : loc ∈ locs
  · rw [Sfpu.get_overlay_mem hx locs x' hl, Sfpu.get_overlay_mem hy locs y' hl, hget' loc hloc]
  · rw [Sfpu.get_overlay_other x locs x' hl, Sfpu.get_overlay_other y locs y' hl, hget loc hloc]

section DueActions

variable {acts : List Action} (hacts : ∀ a ∈ acts, a.ignoresLreg16) {pre pre' x y x' : Sfpu}

include hacts

theorem performAll_agree (hxy : AgreeOffLreg16 x y) (h : performAll acts x = .next x') :
    ∃ y', performAll acts y = .next y' ∧ AgreeOffLreg16 x' y' :=
  foldOut_simulates (fun a ha _ _ _ hR hn => Action.perform_agree (hacts a ha) hR hn) hxy h

theorem performOld_agree (hpre : AgreeOffLreg16 pre pre') (hxy : AgreeOffLreg16 x y)
    (h : performOld pre acts x = .next x') : ∃ y', performOld pre' acts y = .next y' ∧ AgreeOffLreg16 x' y' := by
  refine foldOut_simulates (fun a ha b c b' hR hn => ?_) hxy h
  obtain ⟨post, hpost, he⟩ := andThen_eq_next.1 hn
  cases he
  obtain ⟨post', hpost', hagree⟩ := Action.perform_agree (hacts a ha) hpre hpost
  exact ⟨_, by rw [hpost', andThen_next], hR.overlay hagree a.writes⟩

/-- Co-execution, whatever the policy, acts alike on units that differ in `LReg[16]` only. -/
theorem coexecute_agree {p : CyclePolicy} {reg : Option Action} (hpre : AgreeOffLreg16 pre pre')
    (hxy : AgreeOffLreg16 x y) (h : coexecute p pre reg acts x = .next x') :
    ∃ y', coexecute p pre' reg acts y = .next y' ∧ AgreeOffLreg16 x' y' := by
  cases p with
  | refuse =>
    simp only [coexecute] at h ⊢
    split_ifs at h ⊢
    exact performAll_agree hacts hxy h
  | old =>
    simp only [coexecute] at h ⊢
    split_ifs at h ⊢
    exact performOld_agree hacts hpre hxy h
  | unitOrder => exact performAll_agree hacts hxy h

end DueActions

/-! ### Step 3 on units that differ at most in `LReg[16]` -/

section RegularInstruction

variable {s t : State} {y : Sfpu} (hy : AgreeOffLreg16 s.sfpu y)

include hy

theorem exec_agree {i : Instr} (h : exec i s = .next t) :
    ∃ y', exec i (s.withSfpu y) = .next (t.withSfpu y') ∧ AgreeOffLreg16 t.sfpu y' := by
  obtain ⟨a, ha, hperform, hrun⟩ := exec_action h
  obtain ⟨y', hy', hagree⟩ := Action.perform_agree
    (Action.ignoresLreg16_of_not_store fun i lanes cr he => absurd he (hrun i lanes true cr)) hy hperform
  refine ⟨y', ?_, hagree⟩
  cases i with
  | sfploadmacroBh m vd mod0 am imm9 =>
    cases ha
    cases hy'
    exact execSfploadmacroBh_withSfpu hy.loadMacroConfig_eq hy.addrCounters_eq h
  | sfploadmacroWh => cases h
  | sfptransp imm12 c vd mod1 =>
    cases ha
    obtain ⟨-, rfl⟩ := execSfptransp_spec (a := imm12) (c := c) (m := mod1) h
    exact andThen_eq_next.2 ⟨y', hy', rfl⟩

theorem executeOther_agree {i : Insn} {lanes : LaneMask} {reg : Option Action}
    (h : executeOther i lanes s = .next (t, reg)) :
    ∃ y', executeOther i lanes (s.withSfpu y) = .next (t.withSfpu y', reg) ∧ AgreeOffLreg16 t.sfpu y' := by
  obtain ⟨hperform, hframe, rfl⟩ := executeOther_spec h
  obtain ⟨y', hy', hagree⟩ := Action.perform_agree (regularAction_ignoresLreg16 s.params i lanes) hy hperform
  refine ⟨y', ?_, hagree⟩
  unfold executeOther at h ⊢
  rw [State.withSfpu_loadRaises, State.withSfpu_params, State.withSfpu_sfpu, hy', hframe]
  split_ifs at h ⊢
  rfl

theorem issueInstr_agree {d : Due} {i : Instr} {reg : Option Action} (h : issueInstr d i s = .next (t, reg)) :
    ∃ y', issueInstr d i (s.withSfpu y) = .next (t.withSfpu y', reg) ∧ AgreeOffLreg16 t.sfpu y' := by
  unfold issueInstr at h ⊢
  rw [State.withSfpu_params]
  cases hf : fate s.params d (instrOp i) false <;> rw [hf] at h
  case execute lanes =>
    obtain ⟨t', ht', he⟩ := andThen_eq_next.1 h
    cases he
    obtain ⟨y', hy', hagree⟩ := exec_agree hy ht'
    exact ⟨y', andThen_eq_next.2 ⟨_, hy', rfl⟩, hagree⟩
  case discarded =>
    cases h
    exact ⟨y, rfl, hy⟩
  case refused r => cases h

theorem issueOther_agree {d : Due} {i : Insn} {reg : Option Action} (h : issueOther d i s = .next (t, reg)) :
    ∃ y', issueOther d i (s.withSfpu y) = .next (t.withSfpu y', reg) ∧ AgreeOffLreg16 t.sfpu y' := by
  unfold issueOther at h ⊢
  rw [State.withSfpu_params]
  cases hf : fate s.params d i.op (regularAction s.params i fullMask).writes.isEmpty <;> rw [hf] at h
  case execute lanes => exact executeOther_agree hy h
  case discarded =>
    cases h
    exact ⟨y, rfl, hy⟩
  case refused r => cases h

theorem issueWord_agree {d : Due} {w : Word} {reg : Option Action} (h : issueWord d w s = .next (t, reg)) :
    ∃ y', issueWord d w (s.withSfpu y) = .next (t.withSfpu y', reg) ∧ AgreeOffLreg16 t.sfpu y' := by
  unfold issueWord at h ⊢
  rw [State.withSfpu_params]
  cases hd : decode s.params.arch w with
  | ok i =>
    rw [hd] at h
    exact issueInstr_agree hy h
  | error e =>
    rw [hd] at h
    cases e with
    | reservedBitsSet => cases h
    | notInScope =>
      dsimp only at h ⊢
      cases hp : parse w with
      | none =>
        rw [hp] at h
        cases h
      | some i =>
        rw [hp] at h
        exact issueOther_agree hy h

/-- Step 3 acts alike on units that differ in `LReg[16]` only: no regular instruction reads it (R12). -/
theorem regularPart_agree {d : Due} {issue : Option (Fin Config.nThreads × Word)} {reg : Option Action}
    (h : regularPart d issue s = .next (t, reg)) :
    ∃ y', regularPart d issue (s.withSfpu y) = .next (t.withSfpu y', reg) ∧ AgreeOffLreg16 t.sfpu y' := by
  cases issue with
  | none =>
    cases h
    exact ⟨y, rfl, hy⟩
  | some thw => exact issueWord_agree hy h

end RegularInstruction

/-! ### The whole step -/

/-- The environment acts alike on units that differ in `LReg[16]` only. -/
theorem atCycleStart_set_lreg16 (s : State) (v : Vector Word 32) :
    (s.withSfpu { s.sfpu with lreg := s.sfpu.lreg.set 16 v }).atCycleStart =
      s.atCycleStart.withSfpu { s.atCycleStart.sfpu with lreg := s.atCycleStart.sfpu.lreg.set 16 v } := rfl

@[simp] theorem issueOf_withSfpu (c : CycleInput) (s : State) (x : Sfpu) :
    issueOf c (s.withSfpu x) = issueOf c s := rfl
@[simp] theorem dueTable_withSfpu (s : State) (x : Sfpu) : dueTable (s.withSfpu x) = dueTable s := rfl
@[simp] theorem collision_withSfpu (s : State) (x : Sfpu) : collision (s.withSfpu x) = collision s := rfl

/-- Counting down and moving the thread on do not look at the unit. -/
@[simp] theorem beforeRegular_withSfpu (c : CycleInput) (s : State) (x : Sfpu) :
    beforeRegular c (s.withSfpu x) = (beforeRegular c s).withSfpu x := by
  unfold beforeRegular
  rw [issueOf_withSfpu]
  cases issueOf c s <;> rfl

/-- The end of a cycle acts alike on units that differ in `LReg[16]` only, unless a due action reads it. -/
theorem scheduledPart_agree {c : CycleInput} {pre pre' y : Sfpu} {d : Due} {s t : State} {reg : Option Action}
    (hacts : ∀ acts, dueActions s.params d = .next acts → ∀ a ∈ acts, a.ignoresLreg16)
    (hpre : AgreeOffLreg16 pre pre') (hy : AgreeOffLreg16 s.sfpu y) (h : scheduledPart c pre d s reg = .next t) :
    ∃ y', scheduledPart c pre' d (s.withSfpu y) reg = .next (t.withSfpu y') ∧ AgreeOffLreg16 t.sfpu y' := by
  obtain ⟨acts, hdue, hrest⟩ := andThen_eq_next.1 h
  split_ifs at hrest with hready
  obtain ⟨x, hx, he⟩ := andThen_eq_next.1 hrest
  cases he
  obtain ⟨y', hy', hagree⟩ := coexecute_agree (hacts acts hdue) hpre hy hx
  refine ⟨y', andThen_eq_next.2 ⟨acts, hdue, ?_⟩, hagree⟩
  rw [State.withSfpu_inFlight, if_neg hready]
  exact andThen_eq_next.2 ⟨y', hy', rfl⟩

/-- The actions due in a cycle do not read `LReg[16]` where no SFPSTORE with VD = 16 is due. -/
theorem dueActions_ignoreLreg16 {s : State} {p : Params} {acts : List Action}
    (hdue : ∀ l u, ∀ e ∈ s.queue l u, e.counter = 0 → e.insn.op = .sfpstore → e.insn.vd ≠ 16)
    (h : dueActions p (dueTable s) = .next acts) : ∀ a ∈ acts, a.ignoresLreg16 := by
  refine fun a ha => Action.ignoresLreg16_of_not_store fun i lanes cr hrun hop => ?_
  subst hrun
  obtain ⟨l, u, e, he, h0, rfl⟩ := dueActions_run h ha
  exact hdue l u e he h0 hop

/-- A cycle body, on units that differ in `LReg[16]` only. -/
theorem cycleBody_agree {c : CycleInput} {s t : State} {y : Sfpu} (hy : AgreeOffLreg16 s.sfpu y)
    (hdue : ∀ l u, ∀ e ∈ s.queue l u, e.counter = 0 → e.insn.op = .sfpstore → e.insn.vd ≠ 16)
    (h : cycleBody c s = .next t) :
    ∃ y', cycleBody c (s.withSfpu y) = .next (t.withSfpu y') ∧ AgreeOffLreg16 t.sfpu y' := by
  unfold cycleBody at h ⊢
  rw [collision_withSfpu, dueTable_withSfpu, issueOf_withSfpu, beforeRegular_withSfpu]
  cases hc : collision s with
  | some lu =>
    rw [hc] at h
    cases h
  | none =>
    rw [hc] at h
    obtain ⟨⟨s3, reg⟩, h3, h4⟩ := andThen_eq_next.1 h
    have hbefore : AgreeOffLreg16 (beforeRegular c s).sfpu y := by rwa [beforeRegular_sfpu]
    obtain ⟨y3, hy3, hagree⟩ := regularPart_agree hbefore h3
    obtain ⟨y', hy', hagree'⟩ :=
      scheduledPart_agree (fun acts ha => dueActions_ignoreLreg16 hdue ha) hbefore hagree h4
    exact ⟨y', andThen_eq_next.2 ⟨_, hy3, hy'⟩, hagree'⟩

/-- Settles O52: the environment, step 3 and the due actions act alike on units that differ in `LReg[16]` only. -/
theorem lreg16ReadOnlyByScheduledStore : Obligations.Lreg16ReadOnlyByScheduledStore := by
  unfold Obligations.Lreg16ReadOnlyByScheduledStore
  intro s t v hwf h hdue
  obtain ⟨hfault, hrefusal, -⟩ := step_spec h
  have hunmarked : ∀ x : Sfpu, step (s.withSfpu x) = cycleBody s.nextInput (s.withSfpu x).atCycleStart := by
    intro x
    unfold step cycle
    rw [State.withSfpu_faultMark, State.withSfpu_refusalMark, hfault, hrefusal]
    rfl
  rw [← State.withSfpu_self s, hunmarked, State.withSfpu_self] at h
  obtain ⟨y', hy', -, -, hget⟩ := cycleBody_agree (agreeOffLreg16_set (State.atCycleStart_wf hwf) v) hdue h
  refine ⟨t.withSfpu y', ?_, rfl, fun loc hloc => (hget loc hloc).symm⟩
  rw [hunmarked, atCycleStart_set_lreg16, hy']

end Sys2Proof.Machine
end

section
/-! SUPPORT. Instruction words as numbers: a field of a word, what the decoder answers for an opcode byte (R41, R42,
R46, R50), and the number that a TT_OP call within its bounds assembles to (R40, R45, R48). -/

namespace Sys2Proof

/-- A bit field as a number: shift down, then cut off (R7). -/
theorem toNat_extractLsb' {k : Nat} (w : BitVec k) (lo n : Nat) :
    (w.extractLsb' lo n).toNat = w.toNat / 2 ^ lo % 2 ^ n := by
  rw [BitVec.extractLsb'_toNat, Nat.shiftRight_eq_div_pow]

/-- A field equals the `n`-bit vector of `v` where its number is `v` modulo `2 ^ n`. -/
theorem extractLsb'_eq_ofNat {w : Word} {lo n v : Nat} (h : w.toNat / 2 ^ lo % 2 ^ n = v % 2 ^ n) :
    w.extractLsb' lo n = BitVec.ofNat n v :=
  BitVec.eq_of_toNat_eq (by rw [toNat_extractLsb', h, BitVec.toNat_ofNat])

/-- Two fields put together, as a number. -/
theorem toNat_append_eq_add {n m : Nat} (x : BitVec n) (y : BitVec m) :
    (x ++ y).toNat = x.toNat * 2 ^ m + y.toNat := by
  rw [BitVec.toNat_append, ← Nat.shiftLeft_add_eq_or_of_lt y.isLt, Nat.shiftLeft_eq]

theorem toNat_opcodeByte (w : Word) : (opcodeByte w).toNat = w.toNat / 2 ^ 24 := by
  rw [opcodeByte, toNat_extractLsb', Nat.mod_eq_of_lt]
  have := w.isLt
  omega

theorem opcodeByte_eq_iff {w : Word} {b : BitVec 8} : opcodeByte w = b ↔ w.toNat / 2 ^ 24 = b.toNat := by
  rw [← BitVec.toNat_inj, toNat_opcodeByte]

theorem decode_loadmacroBh {w : Word} (hop : w.toNat / 2 ^ 24 = 0x93) (hres : w.toNat / 2 ^ 10 % 8 = 0) :
    decode .bh w = .ok (decodeLoadmacroBh w) := by
  have hbyte : opcodeByte w = opSfploadmacro := opcodeByte_eq_iff.2 hop
  have hzero : w.extractLsb' 10 3 = 0#3 := BitVec.eq_of_toNat_eq ((toNat_extractLsb' w 10 3).trans hres)
  unfold decode
  rw [if_pos hbyte]
  exact if_pos hzero

theorem decode_transp {w : Word} (hop : w.toNat / 2 ^ 24 = 0x8C) (a : Arch) : decode a w = .ok (decodeTransp w) := by
  have hbyte : opcodeByte w = opSfptransp := opcodeByte_eq_iff.2 hop
  unfold decode
  rw [if_neg (by rw [hbyte]; decide), if_pos hbyte]

/-- The register number of a Blackhole SFPLOADMACRO word: VDHi, then VDLo (R42). -/
theorem toNat_vdField (w : Word) :
    (w.extractLsb' 0 1 ++ w.extractLsb' 20 2).toNat = w.toNat % 2 * 4 + w.toNat / 2 ^ 20 % 4 := by
  rw [toNat_append_eq_add, toNat_extractLsb', toNat_extractLsb', Nat.pow_zero, Nat.div_one]
  rfl

/-- The address of the load part: Imm9, then VDHi (R42, R61). -/
theorem toNat_imm10 (imm9 : BitVec 9) (vd : BitVec 3) :
    (Machine.imm10 imm9 vd).toNat = imm9.toNat * 2 + vd.toNat / 4 := by
  have := vd.isLt
  rw [Machine.imm10, toNat_append_eq_add, toNat_extractLsb']
  omega

theorem AsmCall.wf_sfptransp_iff {a b c d : Nat} :
    (AsmCall.sfptransp a b c d).wf = true ↔ a < 4096 ∧ b < 16 ∧ c < 16 ∧ d < 16 := by
  simp [AsmCall.wf, and_assoc]

theorem AsmCall.wf_sfploadmacro_iff {a b c d : Nat} :
    (AsmCall.sfploadmacro a b c d).wf = true ↔ a < 16 ∧ b < 16 ∧ c < 8 ∧ d < 1024 := by
  simp [AsmCall.wf, and_assoc]

/-- Within the bounds of R48 the sum of the shifted arguments does not reach bit 32. -/
theorem AsmCall.toNat_word_sfptransp {a b c d : Nat} (h : (AsmCall.sfptransp a b c d).wf = true) :
    (AsmCall.sfptransp a b c d).word.toNat = 0x8C * 2 ^ 24 + a * 2 ^ 12 + b * 2 ^ 8 + c * 2 ^ 4 + d := by
  obtain ⟨ha, hb, hc, hd⟩ := AsmCall.wf_sfptransp_iff.1 h
  simp only [AsmCall.word, ttOp, Nat.shiftLeft_eq, BitVec.toNat_ofNat]
  omega

/-- Within the bounds of R45 the sum of the shifted arguments does not reach bit 32. -/
theorem AsmCall.toNat_word_sfploadmacro {a b c d : Nat} (h : (AsmCall.sfploadmacro a b c d).wf = true) :
    (AsmCall.sfploadmacro a b c d).word.toNat = 0x93 * 2 ^ 24 + a * 2 ^ 20 + b * 2 ^ 16 + c * 2 ^ 13 + d := by
  obtain ⟨ha, hb, hc, hd⟩ := AsmCall.wf_sfploadmacro_iff.1 h
  simp only [AsmCall.word, ttOp, Nat.shiftLeft_eq, BitVec.toNat_ofNat]
  omega

/-- Settles O5, field by field. -/
theorem loadmacroOperandsOfWord : Obligations.LoadmacroOperandsOfWord := by
  unfold Obligations.LoadmacroOperandsOfWord
  intro w hop hres
  have himm9 := toNat_extractLsb' w 1 9
  have hvd := toNat_vdField w
  refine ⟨_, _, _, _, _, decode_loadmacroBh hop hres, toNat_extractLsb' w 22 2, hvd, toNat_extractLsb' w 16 4,
    toNat_extractLsb' w 13 3, himm9, ?_⟩
  have hhi : (w.toNat % 2 * 4 + w.toNat / 2 ^ 20 % 4) / 4 = w.toNat % 2 := by omega
  rw [toNat_imm10, himm9, hvd, hhi]
  omega

/-- A TT_OP_SFPTRANSP call within the bounds of R48 decodes to its arguments. -/
theorem decode_word_sfptransp {a b c d : Nat} (h : (AsmCall.sfptransp a b c d).wf = true) (arch : Arch) :
    decode arch (AsmCall.sfptransp a b c d).word =
      .ok (.sfptransp (BitVec.ofNat 12 a) (BitVec.ofNat 4 b) (BitVec.ofNat 4 c) (BitVec.ofNat 4 d)) := by
  have hw := AsmCall.toNat_word_sfptransp h
  obtain ⟨ha, hb, hc, hd⟩ := AsmCall.wf_sfptransp_iff.1 h
  have hop : (AsmCall.sfptransp a b c d).word.toNat / 2 ^ 24 = 0x8C := by omega
  rw [decode_transp hop, decodeTransp, extractLsb'_eq_ofNat (v := a) (by omega),
    extractLsb'_eq_ofNat (v := b) (by omega), extractLsb'_eq_ofNat (v := c) (by omega),
    extractLsb'_eq_ofNat (v := d) (by omega)]

section MacroOperands

variable {m vd mod0 am imm9 : Nat} (hm : m < 4) (hvd : vd < 8) (hmod0 : mod0 < 16) (ham : am < 8) (himm9 : imm9 < 512)

include hvd

/-- The packing R42 gives, its two ORs written as sums. -/
theorem packLoadmacro_eq :
    packLoadmacro m vd mod0 am imm9 = .sfploadmacro (m * 4 + vd % 4) mod0 am (imm9 * 2 + vd / 4) := by
  unfold packLoadmacro
  rw [← Nat.shiftLeft_add_eq_or_of_lt (by omega), ← Nat.shiftLeft_add_eq_or_of_lt (by omega), Nat.shiftLeft_eq,
    Nat.shiftLeft_eq]

include hm hmod0 ham himm9

theorem packLoadmacro_wf : (packLoadmacro m vd mod0 am imm9).wf = true := by
  rw [packLoadmacro_eq hvd, AsmCall.wf_sfploadmacro_iff]
  omega

/-- The number of the word that the packing assembles to, field by field. -/
theorem toNat_word_packLoadmacro :
    (packLoadmacro m vd mod0 am imm9).word.toNat =
      0x93 * 2 ^ 24 + (m * 4 + vd % 4) * 2 ^ 20 + mod0 * 2 ^ 16 + am * 2 ^ 13 + (imm9 * 2 + vd / 4) := by
  have hwf := packLoadmacro_wf hm hvd hmod0 ham himm9
  rw [packLoadmacro_eq hvd] at hwf ⊢
  exact AsmCall.toNat_word_sfploadmacro hwf

/-- A TT_OP_SFPLOADMACRO call packed as R42 says decodes to what was packed. -/
theorem decode_word_packLoadmacro :
    decode .bh (packLoadmacro m vd mod0 am imm9).word =
      .ok (.sfploadmacroBh (BitVec.ofNat 2 m) (BitVec.ofNat 3 vd) (BitVec.ofNat 4 mod0) (BitVec.ofNat 3 am)
        (BitVec.ofNat 9 imm9)) := by
  have hw := toNat_word_packLoadmacro hm hvd hmod0 ham himm9
  generalize (packLoadmacro m vd mod0 am imm9).word = w at hw ⊢
  have hmacro : w.toNat / 2 ^ 22 = 0x93 * 4 + m := by omega
  have hlo : w.toNat / 2 ^ 20 = w.toNat / 2 ^ 22 * 4 + vd % 4 := by omega
  have hmode : w.toNat / 2 ^ 16 = w.toNat / 2 ^ 20 * 16 + mod0 := by omega
  have haddr : w.toNat / 2 ^ 13 = w.toNat / 2 ^ 16 * 8 + am := by omega
  have hreserved : w.toNat / 2 ^ 10 = w.toNat / 2 ^ 13 * 8 := by omega
  have himm : w.toNat / 2 = w.toNat / 2 ^ 13 * 4096 + imm9 := by omega
  have hhi : w.toNat % 2 = vd / 4 := by omega
  have hvdField : w.extractLsb' 0 1 ++ w.extractLsb' 20 2 = BitVec.ofNat 3 vd := by
    refine BitVec.eq_of_toNat_eq ?_
    rw [toNat_vdField, hhi, hlo, Nat.mul_add_mod_self_right, Nat.mod_mod, Nat.div_add_mod', BitVec.toNat_ofNat,
      Nat.mod_eq_of_lt hvd]
  rw [decode_loadmacroBh (by omega) (by omega), decodeLoadmacroBh, hvdField, extractLsb'_eq_ofNat (v := m) (by omega),
    extractLsb'_eq_ofNat (v := mod0) (by omega), extractLsb'_eq_ofNat (v := am) (by omega),
    extractLsb'_eq_ofNat (v := imm9) (by omega)]

end MacroOperands

/-- Settles O9: within the bounds no argument carries into the next field. -/
theorem macroCallsAssemble : Obligations.MacroCallsAssemble :=
  ⟨fun _ _ _ _ => decode_word_sfptransp, fun _ _ _ _ _ hm hvd hmod0 ham himm9 =>
    ⟨packLoadmacro_wf hm hvd hmod0 ham himm9, decode_word_packLoadmacro hm hvd hmod0 ham himm9⟩⟩

end Sys2Proof

namespace Sys2Proof.Machine

/-! ### A word of another SFPU instruction -/

section OtherWord

variable {d : Due} {w : Word} {s : State} {i : Insn}

/-- A word out of the decoder's scope that `parse` does not know (R50). -/
theorem issueWord_unparsed (hw : decode s.params.arch w = .error .notInScope) (hp : parse w = none) :
    issueWord d w s = .refused .notInScope := by
  unfold issueWord
  rw [hw]
  dsimp only
  rw [hp]

/-- A word out of the decoder's scope that `parse` knows (R50). -/
theorem issueWord_parsed (hw : decode s.params.arch w = .error .notInScope) (hp : parse w = some i) :
    issueWord d w s = issueOther d i s := by
  unfold issueWord
  rw [hw]
  dsimp only
  rw [hp]

/-- With nothing due, the priority rule leaves an instruction all its lanes (R88). -/
theorem issueOther_nothing_due (hd : ∀ l u, d.at l u = none) : issueOther d i s = executeOther i fullMask s := by
  unfold issueOther
  rw [fate_nothing_due hd]

/-- A regular SFPLOAD performs `SFPLOAD_sem`, unless that raises (R6; log entry 11). -/
theorem executeOther_sfpload (hop : i.op = .sfpload) (lanes : LaneMask) :
    executeOther i lanes s =
      if s.loadRaises then .fault .unwrittenRead
      else .next (s.withSfpu (loadSem (loadOpsOf i) s.sfpu), some (.load (loadOpsOf i) false)) := by
  unfold executeOther regularAction
  simp only [hop, true_and, if_true]
  rfl

/-- Any other regular instruction executes as `ExecSFPU` says (R6). -/
theorem executeOther_run (hop : i.op ≠ .sfpload) (lanes : LaneMask) :
    executeOther i lanes s =
      .next (s.withSfpu (execOther i lanes false (isCrossLane s.params i.op) s.sfpu),
        some (.run i lanes false (isCrossLane s.params i.op))) := by
  unfold executeOther regularAction
  simp only [hop, false_and, if_false]
  rfl

end OtherWord

/-- Settles O38, by what `parse` answers and by whether the instruction is SFPLOAD. -/
theorem otherWordsGoToParse : Obligations.OtherWordsGoToParse := by
  unfold Obligations.OtherWordsGoToParse
  intro d w s hw hd
  cases hp : parse w with
  | none => exact issueWord_unparsed hw hp
  | some i =>
    rw [issueWord_parsed hw hp, issueOther_nothing_due hd]
    dsimp only
    split
    next hop => exact executeOther_sfpload hop fullMask
    next hop => exact executeOther_run hop fullMask

end Sys2Proof.Machine
end

section
/-! SUPPORT. What SFPLOADMACRO schedules, from the selectors' side: where no selector chooses an instruction the loop of
R62 does nothing, and where one does the queue holds that instruction with its overrides (R63 to R68, R72). -/

namespace Sys2Proof.Machine

/-- A loop no pass of which changes anything changes nothing. -/
theorem foldOut_eq_self {α β : Type} {f : α → β → Out β} {as : List α} {b : β} (h : ∀ a ∈ as, f a b = .next b) :
    foldOut f as b = .next b := by
  induction as with
  | nil => rfl
  | cons a as ih =>
    rw [foldOut_cons, h a List.mem_cons_self, andThen_next]
    exact ih fun a' ha' => h a' (List.mem_cons_of_mem _ ha')

/-- No recorded region closer than 3 instructions, no hazard (R126). -/
theorem dstHazard_eq_false {s : State} (h : ∀ d ∈ s.fpuDistance, 3 ≤ d.2[s.issuer]) (am : BitVec 3) (i : BitVec 10) :
    dstHazard s am i = false := by
  rw [dstHazard, List.any_eq_false]
  intro d hd
  rw [decide_eq_false (Nat.not_lt.2 (h d hd)), Bool.false_and]
  exact Bool.false_ne_true

/-- Selector 0 chooses nothing (R63). -/
theorem buildEntry_selector_zero {c : MacroConfig} {m : BitVec 2} {u : SubUnit} (h : seqSelector (c.field m u) = 0#3)
    (p : Params) (vd : BitVec 3) (mod0 : BitVec 4) (l : Lane) : buildEntry p c m vd mod0 l u = .next none := by
  rw [buildEntry, h]
  rfl

/-- The scheduling loop does nothing where every selector is 0 (R72). -/
theorem scheduleAll_selectors_zero {m : BitVec 2} {s : State}
    (h : ∀ (l : Lane) (u : SubUnit), seqSelector (s.sfpu.loadMacroConfig[l].field m u) = 0#3) (vd : BitVec 3)
    (mod0 : BitVec 4) : scheduleAll m vd mod0 s = .next s :=
  foldOut_eq_self fun (l, u) _ => scheduleOne_eq_next.2 ⟨none, buildEntry_selector_zero (h l u) s.params vd mod0 l, rfl⟩

/-- Settles O20: past the hazard check only the load is left, since the scheduling loop does nothing. -/
theorem selectorZeroEverywhereIsJustTheLoad : Obligations.SelectorZeroEverywhereIsJustTheLoad := by
  unfold Obligations.SelectorZeroEverywhereIsJustTheLoad
  intro m vd mod0 am imm9 s hdist hload hsel
  have hloop := scheduleAll_selectors_zero (s := loadPart (macroLoadOps vd am imm9) s) hsel vd mod0
  exact (execSfploadmacroBh_eq (dstHazard_eq_false hdist am _) hload).trans hloop

/-- Where the choice is an instruction and the sub-unit's checks pass, the answer is that instruction (R69). -/
theorem selectInsn_of_choose_insn {p : Params} {c : MacroConfig} {l : Lane} {u : SubUnit} {sel : BitVec 3} {i : Insn}
    {o : Option Insn} (hc : choose c sel = .insn i) (h : selectInsn p c l u sel = .next o) : o = some i := by
  rw [selectInsn, hc] at h
  dsimp only at h
  split_ifs at h
  exact (Host.Outcome.next.inj h).symm

/-- Where the choice of an instruction completes, it answers what the table of R63 gives. -/
theorem selectInsn_of_selectorChooses {p : Params} {c : MacroConfig} {l : Lane} {u : SubUnit} {sel : BitVec 3}
    {i : Insn} {o : Option Insn} (hi : SelectorChooses p c sel i) (h : selectInsn p c l u sel = .next o) :
    o = some i := by
  rcases hi with ⟨rfl, rfl⟩ | ⟨rfl, f, hf, rfl⟩ | ⟨t, ht, hparse⟩
  · exact selectInsn_of_choose_insn rfl h
  · rw [selectInsn, show choose c 3#3 = .store from rfl, hf] at h
    dsimp only at h
    split_ifs at h
    exact (Host.Outcome.next.inj h).symm
  · refine selectInsn_of_choose_insn ?_ h
    rw [choose_template ht, hparse]

/-- Where an entry can be built and the selector chooses an instruction, the entry is that instruction with its
overrides, the field's delay and the sub-unit's kind (R63 to R68). -/
theorem buildEntry_of_selectorChooses {p : Params} {c : MacroConfig} {m : BitVec 2} {vd : BitVec 3} {mod0 : BitVec 4}
    {l : Lane} {u : SubUnit} {i : Insn} {o : Option Entry} (hi : SelectorChooses p c (seqSelector (c.field m u)) i)
    (h : buildEntry p c m vd mod0 l u = .next o) :
    o = some ⟨overrides c u (c.field m u) m vd mod0 i, seqDelay (c.field m u), c.delayKind u⟩ := by
  obtain ⟨chosen, hsel, ho⟩ := andThen_eq_next.1 h
  obtain rfl := selectInsn_of_selectorChooses hi hsel
  exact (Host.Outcome.next.inj ho).symm

/-- Where SFPLOADMACRO completes and a field's selector chooses an instruction, the field's queue forgets and then holds
that instruction with its overrides (R63 to R68). -/
theorem queue_of_selectorChooses {m : BitVec 2} {vd : BitVec 3} {mod0 : BitVec 4} {am : BitVec 3} {imm9 : BitVec 9}
    {s t : State} {l : Lane} {u : SubUnit} {i : Insn} (h : exec (.sfploadmacroBh m vd mod0 am imm9) s = .next t)
    (hi : SelectorChooses s.params s.sfpu.loadMacroConfig[l] (seqSelector (s.sfpu.loadMacroConfig[l].field m u)) i) :
    t.queue l u = forgetAndSchedule (s.queue l u)
      ⟨overrides s.sfpu.loadMacroConfig[l] u (s.sfpu.loadMacroConfig[l].field m u) m vd mod0 i,
        seqDelay (s.sfpu.loadMacroConfig[l].field m u), s.sfpu.loadMacroConfig[l].delayKind u⟩ := by
  obtain ⟨-, -, hqueue, -⟩ := execSfploadmacroBh_spec h
  obtain ⟨o, hbuild, hq⟩ := hqueue l u
  rw [hq, buildEntry_of_selectorChooses hi hbuild]
  rfl

section StoreRegister

variable {b : BitVec 8} {vd : BitVec 3} {own : LRegNum}

/-- Bit 6 wins over bit 7 (R66). -/
theorem storeVd_of_bit6 (h6 : b.getLsbD 6 = true) : storeVd b vd own = 16 := by
  rw [storeVd, seqUsesLreg16, if_pos h6]
  rfl

/-- With both bits clear the store takes the register the macro loaded (R66). -/
theorem storeVd_of_bits_clear (h6 : b.getLsbD 6 = false) (h7 : b.getLsbD 7 = false) :
    storeVd b vd own = lregOf3 vd := by
  rw [storeVd, seqUsesLreg16, seqSelectsVb, h6, h7, if_neg Bool.false_ne_true, if_neg Bool.false_ne_true]

/-- With only bit 7 set the store keeps its own register (R66). -/
theorem storeVd_of_bit7 (h6 : b.getLsbD 6 = false) (h7 : b.getLsbD 7 = true) : storeVd b vd own = own := by
  rw [storeVd, seqUsesLreg16, seqSelectsVb, h6, if_neg Bool.false_ne_true, if_pos h7]

end StoreRegister

/-- Settles O24: the entry that the Store field schedules, its register by the cases of R66. -/
theorem storeRegisterOverride : Obligations.StoreRegisterOverride := by
  unfold Obligations.StoreRegisterOverride
  rintro m vd mod0 am imm9 s t l i b h rfl hi
  rw [queue_of_selectorChooses h hi]
  exact ⟨_, mem_forgetAndSchedule.2 (.inl rfl), lregOf3 vd, rfl, storeVd_of_bit6, storeVd_of_bits_clear,
    storeVd_of_bit7, rfl, rfl, rfl, rfl, rfl⟩

end Sys2Proof.Machine
end

section
/-! SUPPORT. Queues across a cycle and across a run without issues: count-down by kind (R82, R83), the entry that the
cycle's SFPLOADMACRO adds (R68, D8), and how long an entry of kind Cycles waits (R84). -/

namespace Sys2Proof.Machine

/-! ### The count-down of one entry -/

section CountDown

variable {issued : Bool} {e : Entry}

/-- An entry that counts in this cycle loses 1 (R82). -/
theorem Entry.countDown_counter_of_counts (hcounts : e.kind = .cycles ∨ issued = true) (h0 : e.counter ≠ 0) :
    (e.countDown issued).counter.val + 1 = e.counter.val := by
  have hpos : e.counter.val ≠ 0 := fun h => h0 (Fin.ext h)
  rw [Entry.countDown, if_pos hcounts]
  exact Nat.succ_pred_eq_of_ne_zero hpos

/-- An entry of kind Instructions waits where nothing issues (R83). -/
theorem Entry.countDown_of_waits (hkind : e.kind = .instructions) : e.countDown false = e := by
  rw [Entry.countDown, if_neg (by simp [hkind])]

end CountDown

/-- The entry built for a field has the field's whole delay (R68, D8). -/
theorem buildEntry_counter {p : Params} {c : MacroConfig} {m : BitVec 2} {vd : BitVec 3} {mod0 : BitVec 4} {l : Lane}
    {u : SubUnit} {e : Entry} (h : buildEntry p c m vd mod0 l u = .next (some e)) :
    e.counter = seqDelay (c.field m u) := by
  rcases buildEntry_spec h with ⟨he, -⟩ | ⟨i, -, -, he⟩
  · cases he
  · rw [Option.some.inj he]

/-! ### One cycle -/

section Step

variable {s t : State}

/-- What a step does to a queue: the pending entries counted down, and perhaps the entry that the cycle's SFPLOADMACRO
builds. -/
theorem step_queue (h : step s = .next t) (l : Lane) (u : SubUnit) :
    ∃ o, t.queue l u =
        queueAfter ((pendingEntries (s.queue l u)).map (Entry.countDown (comingIssue s).isSome)) o ∧
      ∀ e, o = some e → ∃ th w m vd mod0 am imm9, comingIssue s = some (th, w) ∧
        decode s.params.arch w = .ok (.sfploadmacroBh m vd mod0 am imm9) ∧
        buildEntry s.params s.sfpu.loadMacroConfig[l] m vd mod0 l u = .next (some e) := by
  obtain ⟨-, -, -, s3, reg, acts, x, h3, -, -, -, rfl⟩ := step_spec h
  have hq := regularPart_queue h3 l u
  rw [beforeRegular_queue, beforeRegular_params, beforeRegular_sfpu] at hq
  exact hq

/-- Without an issue a step only counts the pending entries down. -/
theorem step_queue_of_no_issue (hno : comingIssue s = none) (h : step s = .next t) (l : Lane) (u : SubUnit) :
    t.queue l u = (pendingEntries (s.queue l u)).map (Entry.countDown false) := by
  obtain ⟨o, hq, hbuilt⟩ := step_queue h l u
  rw [hno] at hq
  cases o with
  | none => exact hq
  | some e =>
    obtain ⟨th, w, -, -, -, -, -, hissue, -⟩ := hbuilt e rfl
    rw [hno] at hissue
    cases hissue

/-- A step takes one input. -/
theorem step_inputs (h : step s = .next t) : t.inputs = s.inputs.tail := by
  obtain ⟨-, -, -, s3, reg, acts, x, h3, -, -, -, rfl⟩ := step_spec h
  rw [regularPart_frame h3]
  exact beforeRegular_inputs _ _

/-! ### A schedule without issues -/

/-- The coming cycle of such a schedule issues nothing; past its end the environment is idle. -/
theorem NoIssueAhead.comingIssue_eq_none (hs : NoIssueAhead s) : comingIssue s = none := by
  have hissue : s.nextInput.issue = none := by
    unfold State.nextInput
    cases hin : s.inputs with
    | nil => rfl
    | cons c cs => exact hs c (hin ▸ List.mem_cons_self)
  rw [comingIssue, issueOf, hissue]

theorem NoIssueAhead.of_step (hs : NoIssueAhead s) (h : step s = .next t) : NoIssueAhead t := by
  intro c hc
  rw [step_inputs h] at hc
  exact hs c (List.mem_of_mem_tail hc)

/-- A pending entry stays, counted down, through a cycle of such a schedule. -/
theorem NoIssueAhead.countDown_mem (hs : NoIssueAhead s) (h : step s = .next t) {l : Lane} {u : SubUnit} {e : Entry}
    (he : e ∈ s.queue l u) (h0 : e.counter ≠ 0) : e.countDown false ∈ t.queue l u := by
  rw [step_queue_of_no_issue hs.comingIssue_eq_none h]
  exact List.mem_map_of_mem (mem_pendingEntries.2 ⟨he, h0⟩)

end Step

/-- Settles O32: the queue of `step_queue`, the new entry's delay, and the two cases of the count-down. -/
theorem schedAfterStep : Obligations.SchedAfterStep := by
  unfold Obligations.SchedAfterStep
  constructor
  · intro s t h l u
    obtain ⟨o, hq, hbuilt⟩ := step_queue h l u
    refine ⟨o, hq, fun e he => ?_⟩
    obtain ⟨th, w, m, vd, mod0, am, imm9, hissue, hdecode, hb⟩ := hbuilt e he
    exact ⟨th, w, m, vd, mod0, am, imm9, hissue, hdecode, hb, buildEntry_counter hb⟩
  · intro issued e h0
    refine ⟨Entry.countDown_insn issued e, Entry.countDown_kind issued e,
      fun hcounts => Entry.countDown_counter_of_counts hcounts h0, ?_⟩
    rintro hkind rfl
    rw [Entry.countDown_of_waits hkind]

/-- Settles O40, by induction on the number of cycles, for every entry: each cycle takes 1 off a counter above 0. -/
theorem cyclesEntryDueOnTime : Obligations.CyclesEntryDueOnTime := by
  unfold Obligations.CyclesEntryDueOnTime
  intro s t l u e k hs he hkind hk hrun
  induction k generalizing s e with
  | zero =>
    cases hrun
    exact ⟨e, he, rfl, hkind, rfl⟩
  | succ k ih =>
    obtain ⟨s', hstep, hrest⟩ := run_succ hrun
    have h0 : e.counter ≠ 0 := by
      intro h0
      rw [h0] at hk
      exact absurd hk (Nat.not_succ_le_zero k)
    have hdown : (e.countDown false).counter.val + 1 = e.counter.val :=
      Entry.countDown_counter_of_counts (.inl hkind) h0
    obtain ⟨e', he', hinsn, hkind', hcounter⟩ := ih s' (e.countDown false) (hs.of_step hstep)
      (hs.countDown_mem hstep he h0) (by rw [Entry.countDown_kind, hkind]) (by omega) hrest
    exact ⟨e', he', by rw [hinsn, Entry.countDown_insn], hkind', by omega⟩

end Sys2Proof.Machine
end

section
/-! SUPPORT. SFPTRANSP on the register file (R101 to R106): a register file as cells, one for each group, register of the
group, row and column; the simultaneous assignment and the two programs of the source, cell by cell. -/

namespace Sys2Proof.Machine

/-! ### Cells: register `base + i`, lane `(j, c)` -/

theorem groupReg_inj {b b' : Bool} {i i' : Fin 4} : groupReg b i = groupReg b' i' ↔ b = b' ∧ i = i' := by
  revert b b' i i'; decide

theorem laneAt_inj {j j' : Fin 4} {c c' : Fin 8} : laneAt j c = laneAt j' c' ↔ j = j' ∧ c = c' := by
  simp only [laneAt, Fin.ext_iff]; omega

@[simp] theorem laneRow_laneAt (j : Fin 4) (c : Fin 8) : laneRow (laneAt j c) = j := by
  simp only [laneRow, laneAt, Fin.ext_iff]; omega

@[simp] theorem laneCol_laneAt (j : Fin 4) (c : Fin 8) : laneCol (laneAt j c) = c := by
  simp only [laneCol, laneAt, Fin.ext_iff]; omega

/-- A lane is that of its row and column (R13). -/
theorem exists_laneAt (l : Lane) : ∃ j c, l = laneAt j c :=
  ⟨laneRow l, laneCol l, by simp only [laneRow, laneCol, laneAt, Fin.ext_iff]; omega⟩

/-- A register below 8 is one of the two groups' (R103). -/
theorem exists_groupReg {r : LRegNum} (hr : r.val < 8) : ∃ b i, r = groupReg b i := by
  revert r; decide

/-- A register file is its cells and its registers from 8 on. -/
theorem LRegFile.ext_cells {f g : LRegFile}
    (hcells : ∀ b i j c, f[groupReg b i][laneAt j c] = g[groupReg b i][laneAt j c])
    (hhigh : ∀ r : LRegNum, 8 ≤ r.val → f[r] = g[r]) : f = g := by
  have hget : ∀ (r : LRegNum) (l : Lane), f[r][l] = g[r][l] := by
    intro r l
    by_cases h8 : r.val < 8
    · obtain ⟨b, i, rfl⟩ := exists_groupReg h8
      obtain ⟨j, c, rfl⟩ := exists_laneAt l
      exact hcells b i j c
    · rw [hhigh r (Nat.le_of_not_lt h8)]
  ext r hr l hl : 2
  exact hget ⟨r, hr⟩ ⟨l, hl⟩

/-! ### The simultaneous assignment -/

/-- R101: an enabled cell takes the cell across the transpose, any other keeps its contents. -/
theorem transposeRegs_cell (enabled : Lane → Bool) (f : LRegFile) (b : Bool) (i j : Fin 4) (c : Fin 8) :
    (transposeRegs enabled f)[groupReg b i][laneAt j c] =
      if enabled (laneAt j c) then f[groupReg b j][laneAt i c] else f[groupReg b i][laneAt j c] := by
  have hgroup : decide (4 ≤ (groupReg b i).val) = b := by revert b i; decide
  have hindex : (⟨(groupReg b i).val % 4, Nat.mod_lt _ (by decide)⟩ : Fin 4) = i := by revert b i; decide
  simp only [transposeRegs_getElem, groupReg_lt, true_and, hgroup, hindex, laneRow_laneAt, laneCol_laneAt]

/-- With every lane enabled, the assignment is its own inverse (R105). -/
theorem transposeRegs_transposeRegs_all {enabled : Lane → Bool} (hall : ∀ l, enabled l = true) (f : LRegFile) :
    transposeRegs enabled (transposeRegs enabled f) = f := by
  refine LRegFile.ext_cells (fun b i j c => ?_) fun r hr => ?_
  · rw [transposeRegs_cell, if_pos (hall _), transposeRegs_cell, if_pos (hall _)]
  · rw [transposeRegs_high _ _ hr, transposeRegs_high _ _ hr]

/-- Under its guard SFPTRANSP completes with the simultaneous assignment (R101). -/
theorem exec_sfptransp {vd : BitVec 4} {s : State} (h : vd.toNat < 12 ∨ s.sfpu.disableBackdoorLoad = true)
    (a : BitVec 12) (c m : BitVec 4) :
    exec (.sfptransp a c vd m) s =
      .next (s.withSfpu { s.sfpu with lreg := transposeRegs s.sfpu.laneIsEnabled s.sfpu.lreg }) :=
  execSfptransp_completes (a := a) (c := c) (m := m) (transpGuard_iff.2 h)

/-- Settles O10: the cells, the registers from 8 on, and the rest of the state. -/
theorem transposeAssignsSimultaneously : Obligations.TransposeAssignsSimultaneously := by
  unfold Obligations.TransposeAssignsSimultaneously
  intro imm12 lregC vd mod1 s hguard
  exact ⟨_, exec_sfptransp hguard imm12 lregC mod1, transposeRegs_cell s.sfpu.laneIsEnabled s.sfpu.lreg,
    fun r hr => transposeRegs_high _ _ hr, rfl⟩

/-- Settles O15: the first SFPTRANSP leaves guard and lanes as they are, and the second inverts it. -/
theorem twoTransposesRestore : Obligations.TwoTransposesRestore := by
  unfold Obligations.TwoTransposesRestore
  intro a a' c c' vd vd' m m' s hguard hall
  have hfirst : vd.toNat < 12 ∨ s.sfpu.disableBackdoorLoad = true := hguard.imp_left And.left
  have hsecond : vd'.toNat < 12 ∨ s.sfpu.disableBackdoorLoad = true := hguard.imp_left And.right
  refine ⟨_, exec_sfptransp hfirst a c m, (exec_sfptransp ?_ a' c' m').trans ?_⟩
  · exact hsecond
  · exact congrArg (fun f => Host.Outcome.next (s.withSfpu { s.sfpu with lreg := f }))
      (transposeRegs_transposeRegs_all hall s.sfpu.lreg)

/-- Settles O16: a cell's new contents are those of a cell of its group and column. -/
theorem transposeKeepsGroupsAndColumnsApart : Obligations.TransposeKeepsGroupsAndColumnsApart := by
  unfold Obligations.TransposeKeepsGroupsAndColumnsApart
  intro enabled f g second c hagree i j
  rw [transposeRegs_cell, transposeRegs_cell, hagree i j, hagree j i]

/-! ### The loop nest -/

/-- A cell after a guarded write. -/
theorem LRegFile.getElem_ite_put (p : Prop) [Decidable p] (f : LRegFile) (r r' : LRegNum) (l l' : Lane) (w : Word) :
    (if p then f.put r l w else f)[r'][l'] = if (r = r' ∧ l = l') ∧ p then w else f[r'][l'] := by
  by_cases hp : p
  · rw [if_pos hp, LRegFile.put, vector_set_getElem]
    by_cases hr : r = r'
    · subst hr
      simp only [if_true, vector_set_getElem, true_and, hp, and_true]
    · simp only [hr, false_and, if_false]
  · simp only [hp, and_false, if_false]

theorem LRegFile.ite_put_other (p : Prop) [Decidable p] (f : LRegFile) {r r' : LRegNum} (h : r ≠ r') (l : Lane)
    (w : Word) : (if p then f.put r l w else f)[r'] = f[r'] := by
  split
  · rw [LRegFile.put, vector_set_getElem, if_neg h]
  · rfl

/-- What the innermost loop of R101 is run for: group, column, and pair `(i, j)` with `j < i`. -/
abbrev SwapStep := Bool × Fin 8 × Fin 4 × Fin 4

/-- The innermost loop's body for one group, column and pair. -/
def swapStep (enabled : Lane → Bool) (f : LRegFile) (q : SwapStep) : LRegFile :=
  swapEnabled enabled q.1 q.2.1 q.2.2 f

/-- The loop nest's passes, in order. -/
def loopSteps : List SwapStep := [false, true] ×ˢ columns ×ˢ lowerPairs

/-- The one pass that touches a cell off the diagonal. -/
def cellStep (b : Bool) (i j : Fin 4) (c : Fin 8) : SwapStep := (b, c, max i j, min i j)

theorem cellStep_comm (b : Bool) (i j : Fin 4) (c : Fin 8) : cellStep b j i c = cellStep b i j c := by
  rw [cellStep, cellStep, max_comm, min_comm]

theorem nodup_loopSteps : loopSteps.Nodup :=
  List.Nodup.product (by decide) ((List.nodup_finRange 8).product (by decide))

theorem mem_loopSteps {b : Bool} {c : Fin 8} {p : Fin 4 × Fin 4} : (b, c, p) ∈ loopSteps ↔ p.2 < p.1 := by
  have hpair : ∀ p, p ∈ lowerPairs ↔ p.2 < p.1 := by decide
  have hcol : c ∈ columns := List.mem_finRange c
  have hgroup : b ∈ [false, true] := by cases b <;> decide
  rw [loopSteps, List.mem_product, List.mem_product, hpair]
  exact ⟨fun h => h.2.2, fun h => ⟨hgroup, hcol, h⟩⟩

theorem cellStep_mem_loopSteps (b : Bool) (i j : Fin 4) (c : Fin 8) : cellStep b i j c ∈ loopSteps ↔ i ≠ j := by
  rw [cellStep, mem_loopSteps]
  exact min_lt_max

theorem transposeLoops_eq_foldl (enabled : Lane → Bool) (f : LRegFile) :
    transposeLoops enabled f = loopSteps.foldl (swapStep enabled) f := by
  simp only [loopSteps, SProd.sprod, List.product, List.foldl_flatMap, List.foldl_map]
  rfl

/-- The passes that touch a cell: the pair is that of its register and row, one way round or the other. -/
theorem eq_cellStep_iff {b₀ b : Bool} {c₀ c : Fin 8} {i₀ j₀ i j : Fin 4} (hlt : j₀ < i₀) :
    (b₀, c₀, i₀, j₀) = cellStep b i j c ↔ (b₀ = b ∧ c₀ = c) ∧ (i₀ = i ∧ j₀ = j ∨ j₀ = i ∧ i₀ = j) := by
  have hpair : (i₀ = max i j ∧ j₀ = min i j) ↔ (i₀ = i ∧ j₀ = j ∨ j₀ = i ∧ i₀ = j) := by
    revert i₀ j₀ i j; decide
  rw [cellStep, Prod.mk.injEq, Prod.mk.injEq, Prod.mk.injEq, hpair, and_assoc]

/-- One pass: the two cells of its pair take each other's contents where they are enabled, and no other cell changes. -/
theorem swapStep_cell (enabled : Lane → Bool) (f : LRegFile) {q : SwapStep} (hq : q ∈ loopSteps) (b : Bool)
    (i j : Fin 4) (c : Fin 8) :
    (swapStep enabled f q)[groupReg b i][laneAt j c] =
      if q = cellStep b i j c ∧ enabled (laneAt j c) = true then f[groupReg b j][laneAt i c]
      else f[groupReg b i][laneAt j c] := by
  obtain ⟨b₀, c₀, i₀, j₀⟩ := q
  have hlt : j₀ < i₀ := mem_loopSteps.1 hq
  rw [swapStep, swapEnabled, LRegFile.getElem_ite_put, LRegFile.getElem_ite_put]
  simp only [eq_cellStep_iff hlt, groupReg_inj, laneAt_inj]
  by_cases hlow : b₀ = b ∧ c₀ = c ∧ i₀ = i ∧ j₀ = j
  · obtain ⟨rfl, rfl, rfl, rfl⟩ := hlow
    simp [hlt.ne, hlt.ne']
  · by_cases hhigh : b₀ = b ∧ c₀ = c ∧ j₀ = i ∧ i₀ = j
    · obtain ⟨rfl, rfl, rfl, rfl⟩ := hhigh
      simp [hlt.ne, hlt.ne']
    · rw [if_neg (by tauto), if_neg (by tauto), if_neg (by tauto)]

theorem swapStep_high (enabled : Lane → Bool) (f : LRegFile) (q : SwapStep) {r : LRegNum} (hr : 8 ≤ r.val) :
    (swapStep enabled f q)[r] = f[r] := by
  have hne : ∀ b i, groupReg b i ≠ r := fun b i he => absurd (groupReg_lt b i) (he ▸ Nat.not_lt.2 hr)
  rw [swapStep, swapEnabled, LRegFile.ite_put_other _ _ (hne _ _), LRegFile.ite_put_other _ _ (hne _ _)]

/-- Passes without repeats: a cell is exchanged by the one that touches it, if it is among them, and reads what was there
at the start, since no other pass touches it or its counterpart. -/
theorem foldl_swapStep_cell (enabled : Lane → Bool) {qs : List SwapStep} (hnd : qs.Nodup) (hqs : qs ⊆ loopSteps)
    (f : LRegFile) (b : Bool) (i j : Fin 4) (c : Fin 8) :
    (qs.foldl (swapStep enabled) f)[groupReg b i][laneAt j c] =
      if cellStep b i j c ∈ qs ∧ enabled (laneAt j c) = true then f[groupReg b j][laneAt i c]
      else f[groupReg b i][laneAt j c] := by
  induction qs generalizing f with
  | nil => simp
  | cons q qs ih =>
    obtain ⟨hq, hnd⟩ := List.nodup_cons.1 hnd
    obtain ⟨hmem, hqs⟩ := List.cons_subset.1 hqs
    rw [List.foldl_cons, ih hnd hqs, swapStep_cell enabled f hmem, swapStep_cell enabled f hmem, cellStep_comm b i j c]
    by_cases hcell : q = cellStep b i j c
    · simp [← hcell, hq]
    · simp [hcell, Ne.symm hcell]

theorem foldl_swapStep_high (enabled : Lane → Bool) (qs : List SwapStep) (f : LRegFile) {r : LRegNum}
    (hr : 8 ≤ r.val) : (qs.foldl (swapStep enabled) f)[r] = f[r] := by
  induction qs generalizing f with
  | nil => rfl
  | cons q qs ih => rw [List.foldl_cons, ih, swapStep_high _ _ _ hr]

/-- Settles O11: each cell off the diagonal is touched by one pass, and a cell on it holds its own counterpart. -/
theorem loopNestIsSimultaneousAssignment : Obligations.LoopNestIsSimultaneousAssignment := by
  unfold Obligations.LoopNestIsSimultaneousAssignment
  intro enabled f
  rw [transposeLoops_eq_foldl]
  refine LRegFile.ext_cells (fun b i j c => ?_) fun r hr => ?_
  · rw [foldl_swapStep_cell enabled nodup_loopSteps (List.Subset.refl _), transposeRegs_cell]
    by_cases hij : i = j
    · subst hij
      rw [ite_self, ite_self]
    · simp only [cellStep_mem_loopSteps, ne_eq, hij, not_false_eq_true, true_and]
  · rw [foldl_swapStep_high enabled _ _ hr, transposeRegs_high _ _ hr]

/-! ### The emulator -/

/-- The unconditional swaps are the guarded ones with every lane enabled. -/
theorem swapAlways_eq_swapEnabled (second : Bool) (column : Fin 8) (p : Fin 4 × Fin 4) (f : LRegFile) :
    swapAlways second column p f = swapEnabled (fun _ => true) second column p f := rfl

theorem emulateSfptransp_eq_loops (f : LRegFile) : emulateSfptransp f = transposeLoops (fun _ => true) f := by
  simp only [emulateSfptransp, transposeLoops, transpose4Loop, swapAlways_eq_swapEnabled, List.foldl_cons,
    List.foldl_nil]

/-- A register file whose lanes hold their own numbers. -/
def laneNumbers : LRegFile := tab 17 fun _ => tab 32 fun l => BitVec.ofNat 32 l.val

/-- Settles O12: with no lane enabled, cell (1, 0) of the first group keeps the 0 that the emulator replaces by 8. -/
theorem emulatorIsTheUnmaskedCase : Obligations.EmulatorIsTheUnmaskedCase := by
  unfold Obligations.EmulatorIsTheUnmaskedCase
  have hrule : ∀ f : LRegFile, emulateSfptransp f = transposeRegs (fun _ => true) f := fun f =>
    (emulateSfptransp_eq_loops f).trans (loopNestIsSimultaneousAssignment (fun _ => true) f)
  refine ⟨hrule, fun _ => false, laneNumbers, fun hsame => ?_⟩
  rw [hrule] at hsame
  have hcell := congrArg (fun f : LRegFile => f[groupReg false 1][laneAt 0 0]) hsame
  simp only [transposeRegs_cell, if_true, Bool.false_eq_true, if_false] at hcell
  exact absurd hcell (by decide)

end Sys2Proof.Machine
end

section
/-! SUPPORT. The priority rule for an instruction of one row, and a regular SFPTRANSP under it (R88, R105). -/

namespace Sys2Proof.Machine

/-! ### An instruction of one row -/

section OneRow

variable {d : Due} {op : Mnemonic} {u : SubUnit} (hop : op ≠ .sfpload ∧ op ≠ .sfploadmacro) (hu : subUnitOf op = [u])

include hop hu

/-- What becomes of it depends on the lanes in which an entry is due on its sub-unit (R88). -/
theorem fate_one_row (p : Params) (b : Bool) :
    fate p d op b =
      if dueMask d u = 0#32 then .execute fullMask
      else if dueMask d u = fullMask then .discarded
      else if isCrossLane p op then .refused .nonUniformCrossLane
      else .execute (~~~(dueMask d u)) := by
  rw [fate, if_neg (not_or.2 hop), hu]

theorem fate_due_everywhere (hdue : ∀ l, (d.at l u).isSome = true) (p : Params) (b : Bool) :
    fate p d op b = .discarded := by
  have hfull : dueMask d u = fullMask := dueMask_eq_full.2 hdue
  rw [fate_one_row hop hu, hfull, if_neg (by decide), if_pos rfl]

theorem fate_due_nowhere (hdue : ∀ l, d.at l u = none) (p : Params) (b : Bool) :
    fate p d op b = .execute fullMask := by
  rw [fate_one_row hop hu, if_pos (dueMask_eq_zero.2 hdue)]

theorem fate_crossLane_due_somewhere {p : Params} (hcross : isCrossLane p op = true)
    (hsome : ∃ l, (d.at l u).isSome = true) (hnone : ∃ l, d.at l u = none) (b : Bool) :
    fate p d op b = .refused .nonUniformCrossLane := by
  obtain ⟨l, hl⟩ := hsome
  obtain ⟨l', hl'⟩ := hnone
  have hzero : dueMask d u ≠ 0#32 := fun h => by simp [dueMask_eq_zero.1 h l] at hl
  have hfull : dueMask d u ≠ fullMask := fun h => by simpa [hl'] using dueMask_eq_full.1 h l'
  rw [fate_one_row hop hu, if_neg hzero, if_neg hfull, if_pos hcross]

end OneRow

/-! ### A regular SFPTRANSP -/

theorem isCrossLane_sfptransp (p : Params) : isCrossLane p .sfptransp = true := rfl

/-- A word of opcode 0x8C is an SFPTRANSP, and the priority rule is asked about it (R50, R88). -/
theorem issueWord_transp {w : Word} (hw : opcodeByte w = 0x8C#8) (d : Due) (s : State) :
    issueWord d w s = issueInstr d (decodeTransp w) s := by
  rw [issueWord, decode_transp (opcodeByte_eq_iff.1 hw)]

/-- Settles O34, by the lanes in which an entry is due on Simple. -/
theorem transpPriority : Obligations.TranspPriority := by
  unfold Obligations.TranspPriority
  intro d w s hw
  have hop : Mnemonic.sfptransp ≠ .sfpload ∧ Mnemonic.sfptransp ≠ .sfploadmacro := by decide
  have hrow : subUnitOf .sfptransp = [.simple] := rfl
  have hinstr : instrOp (decodeTransp w) = .sfptransp := rfl
  rw [issueWord_transp hw, issueInstr, hinstr]
  refine ⟨fun hall => ?_, fun hnone => ?_, fun hsome hnone => ?_⟩
  · rw [fate_due_everywhere hop hrow hall]
  · rw [fate_due_nowhere hop hrow hnone]
    rfl
  · rw [fate_crossLane_due_somewhere hop hrow (isCrossLane_sfptransp s.params) hsome hnone]

end Sys2Proof.Machine
end

section
/-! SUPPORT. Cycles of scheduled cross-lane instructions: the rows of the due table they make or refuse (R70), step 4 of
a cycle whose regular part is known, and the cycle in which a single action is due (R81, R85, R90). -/

namespace Sys2Proof.Machine

/-- A loop whose passes go on or are refused for one reason is refused for it where one of them always is. -/
theorem foldOut_eq_refused {α β : Type} {f : α → β → Out β} {r : Refusal} {as : List α} {a : α}
    (hpass : ∀ a b, (∃ b', f a b = .next b') ∨ f a b = .refused r) (ha : a ∈ as) (hr : ∀ b, f a b = .refused r)
    (b : β) : foldOut f as b = .refused r := by
  induction as generalizing b with
  | nil => cases ha
  | cons a' as ih =>
    rw [foldOut_cons]
    rcases List.mem_cons.1 ha with rfl | ha
    · rw [hr, andThen_refused]
    · rcases hpass a' b with ⟨b', hb'⟩ | hrefused
      · rw [hb', andThen_next]
        exact ih ha b'
      · rw [hrefused, andThen_refused]

/-! ### The rows of the due table -/

section Rows

variable {p : Params} {d : Due} {u : SubUnit} {e : Entry}

/-- A row answers its actions or the refusal of R70. -/
theorem rowActions_cases (p : Params) (d : Due) (u : SubUnit) :
    (∃ acts, rowActions p d u = .next acts) ∨ rowActions p d u = .refused .nonUniformCrossLane := by
  unfold rowActions
  split
  · split
    · exact .inr rfl
    · split
      · exact .inl ⟨_, rfl⟩
      · exact .inr rfl
  · exact .inl ⟨_, rfl⟩

theorem rowActions_none_due (h : ∀ l, d.at l u = none) : rowActions p d u = .next [] := by
  unfold rowActions
  simp [h]

/-- A cross-lane entry due in every lane is one action for all of them (R70). -/
theorem rowActions_uniform (hcross : isCrossLane p e.insn.op = true) (h : ∀ l, d.at l u = some e) :
    rowActions p d u = .next [crossAction e.insn] := by
  have hany : (allLanes.any fun l => (d.at l u).any fun e => isCrossLane p e.insn.op) = true :=
    List.any_eq_true.2 ⟨0, mem_allLanes 0, by rw [h 0]; exact hcross⟩
  rw [rowActions, if_pos hany, h 0]
  exact if_pos (List.all_eq_true.2 fun l _ => decide_eq_true (h l))

/-- A cross-lane entry due in some lane and not in every one refuses the row (R70). -/
theorem rowActions_not_uniform {l l' : Lane} (hl : d.at l u = some e) (hcross : isCrossLane p e.insn.op = true)
    (hl' : d.at l' u ≠ some e) : rowActions p d u = .refused .nonUniformCrossLane := by
  have hany : (allLanes.any fun l => (d.at l u).any fun e => isCrossLane p e.insn.op) = true :=
    List.any_eq_true.2 ⟨l, mem_allLanes l, by rw [hl]; exact hcross⟩
  rw [rowActions, if_pos hany]
  cases h0 : d.at 0 u with
  | none => rfl
  | some e0 =>
    refine if_neg fun hall => hl' ?_
    have hequal : ∀ l, d.at l u = some e0 := fun l => of_decide_eq_true (List.all_eq_true.1 hall l (mem_allLanes l))
    rw [hequal l', ← hequal l, hl]

/-- The due actions are the rows in the order of the sub-units. -/
theorem dueActions_eq_of_rows {row : SubUnit → List Action} (h : ∀ u, rowActions p d u = .next (row u)) :
    dueActions p d = .next (row .simple ++ row .mad ++ row .round ++ row .store) := by
  simp [dueActions, SubUnit.all, h]

/-- The one row that holds actions gives all due actions. -/
theorem dueActions_single_row {acts : List Action} (hrow : rowActions p d u = .next acts)
    (hother : ∀ l u', u' ≠ u → d.at l u' = none) : dueActions p d = .next acts := by
  have hrows : ∀ u', rowActions p d u' = .next (if u' = u then acts else []) := by
    intro u'
    split_ifs with hu
    · rw [hu, hrow]
    · exact rowActions_none_due fun l => hother l u' hu
  rw [dueActions_eq_of_rows hrows]
  cases u <;> simp

/-- A refused row refuses the due actions: a row before it answers its actions or is refused alike (R70). -/
theorem dueActions_refused (h : rowActions p d u = .refused .nonUniformCrossLane) :
    dueActions p d = .refused .nonUniformCrossLane := by
  refine foldOut_eq_refused (fun v acts => ?_) (a := u) (by cases u <;> decide) (fun acts => by rw [h]; rfl) []
  rcases rowActions_cases p d v with ⟨more, hmore⟩ | hrefused
  · exact .inl ⟨acts ++ more, by rw [hmore]; rfl⟩
  · exact .inr (by rw [hrefused]; rfl)

end Rows

/-! ### One action alone -/

/-- Laying over a unit what an action writes, as the action leaves it, is the action. -/
theorem overlay_perform {a : Action} {x y : Sfpu} (hx : x.wf) (h : a.perform x = .next y) :
    x.overlay a.writes y = y := by
  refine Sfpu.ext_get (Sfpu.overlay_wf hx _ _) (Action.perform_wf hx h) fun loc => ?_
  by_cases hloc : loc ∈ a.writes
  · exact Sfpu.get_overlay_mem hx _ _ hloc
  · rw [Sfpu.get_overlay_other _ _ _ hloc, Action.perform_other h hloc]

/-- A due action beside no other one does what it does, whatever the policy (R90). -/
theorem coexecute_single {a : Action} {x y : Sfpu} (hx : x.wf) (h : a.perform x = .next y) (p : CyclePolicy) :
    coexecute p x none [a] x = .next y := by
  cases p with
  | refuse => simp [coexecute, performAll, h]
  | old => simp [coexecute, performOld, h, overlay_perform hx h]
  | unitOrder => simp [coexecute, performAll, h]

/-! ### The step after step 3 -/

/-- Step 4 completes where the due actions are given, none of them reads a result in flight, and they execute. -/
theorem scheduledPart_completes {pre x : Sfpu} {d : Due} {s : State} {reg : Option Action} {acts : List Action}
    (hdue : dueActions s.params d = .next acts) (hready : readsNotReady s.inFlight acts = false)
    (hco : coexecute s.params.sameCyclePolicy pre reg acts s.sfpu = .next x) (c : CycleInput) :
    ∃ t, scheduledPart c pre d s reg = .next t ∧ t.sfpu = x := by
  rw [scheduledPart, hdue, andThen_next, hready, if_neg Bool.false_ne_true, hco]
  exact ⟨_, rfl, rfl⟩

section Step

variable {s : State}

/-- A cycle whose step 3 completes goes on with step 4. -/
theorem step_of_comingRegular {s3 : State} {reg : Option Action} (hs : Unmarked s)
    (hc : collision s.atCycleStart = none) (h3 : comingRegular s = .next (s3, reg)) :
    step s = scheduledPart s.nextInput s.atCycleStart.sfpu (dueTable s.atCycleStart) s3 reg := by
  obtain ⟨hf, hr⟩ := hs
  unfold step cycle
  rw [hf, hr]
  dsimp only
  unfold cycleBody
  rw [hc]
  exact (congrArg (fun o => andThen o _) h3).trans (by rw [andThen_next, beforeRegular_sfpu])

/-- Without an issue step 3 does nothing. -/
theorem comingRegular_of_no_issue (h : comingIssue s = none) : comingRegular s = .next (comingState s, none) := by
  rw [comingRegular, h]
  rfl

/-- Step 3 of a cycle changes no parameter. -/
theorem comingRegular_params {s3 : State} {reg : Option Action} (h : comingRegular s = .next (s3, reg)) :
    s3.params = s.params := by
  rw [regularPart_frame h]
  exact beforeRegular_params _ _

/-- A cycle without an issue in which one action is due, no result being in flight, is that action, the count-down and
the bookkeeping at its end. -/
theorem step_of_single_action {a : Action} {y : Sfpu} (hs : Unmarked s) (hno : comingIssue s = none)
    (hc : collision s.atCycleStart = none) (hfl : s.inFlight = []) (hwf : s.sfpu.wf) (hdue : comingDue s = .next [a])
    (hperform : a.perform s.atCycleStart.sfpu = .next y) :
    ∃ t, step s = .next t ∧ t.sfpu = y ∧
      ∀ l u, t.queue l u = (pendingEntries (s.queue l u)).map (Entry.countDown false) := by
  have h3 := comingRegular_of_no_issue hno
  have hparams : (comingState s).params = s.params := comingRegular_params h3
  have hunit : (comingState s).sfpu = s.atCycleStart.sfpu := beforeRegular_sfpu _ _
  have hflight : (comingState s).inFlight = [] := (beforeRegular_inFlight _ _).trans hfl
  have hready : readsNotReady (comingState s).inFlight [a] = false := by simp [readsNotReady, hflight]
  have hco := coexecute_single (State.atCycleStart_wf hwf) hperform s.params.sameCyclePolicy
  rw [← hparams, ← hunit] at hco
  obtain ⟨t, ht, hsfpu⟩ := scheduledPart_completes (by rw [hparams]; exact hdue) hready hco s.nextInput
  have hstep : step s = .next t := by rw [step_of_comingRegular hs hc h3, ← hunit, ht]
  exact ⟨t, hstep, hsfpu, step_queue_of_no_issue hno hstep⟩

end Step

/-! ### Due cross-lane entries -/

section DueCrossLane

variable {s : State} {u : SubUnit} {e : Entry}

theorem dueTable_at_of_singleton {l : Lane} (h : dueEntries (s.queue l u) = [e]) :
    (dueTable s.atCycleStart).at l u = some e := by
  rw [dueTable_at, State.atCycleStart_queue, h]
  rfl

theorem dueEntries_eq_nil {q : List Entry} (h : ∀ e ∈ q, e.counter ≠ 0) : dueEntries q = [] :=
  List.eq_nil_iff_forall_not_mem.2 fun e he => h e (mem_dueEntries.1 he).1 (mem_dueEntries.1 he).2

variable (hdue : ∀ l, dueEntries (s.queue l u) = [e]) (hother : NothingElseDue s (fun _ u' => u' = u))

include hdue hother

theorem collision_none_of_row : collision s.atCycleStart = none := by
  refine collision_none_of_le fun l u' => ?_
  rw [State.atCycleStart_queue]
  by_cases hu : u' = u
  · rw [hu, hdue l]
    exact Nat.le_refl 1
  · rw [dueEntries_eq_nil (hother l u' hu)]
    exact Nat.zero_le 1

theorem comingDue_of_row (hcross : isCrossLane s.params e.insn.op = true) :
    comingDue s = .next [crossAction e.insn] := by
  refine dueActions_single_row (rowActions_uniform hcross fun l => dueTable_at_of_singleton (hdue l)) ?_
  intro l u' hu
  rw [dueTable_at, State.atCycleStart_queue, dueEntries_eq_nil (hother l u' hu)]
  rfl

/-- A cross-lane instruction due with equal entries in every lane of a sub-unit, alone in its cycle, executes once
(R70, R85). -/
theorem step_of_crossLane_row (hs : Unmarked s) (hno : comingIssue s = none)
    (hcross : isCrossLane s.params e.insn.op = true) (hfl : s.inFlight = []) (hwf : s.sfpu.wf) {y : Sfpu}
    (hperform : (crossAction e.insn).perform s.atCycleStart.sfpu = .next y) :
    ∃ t, step s = .next t ∧ t.sfpu = y ∧
      ∀ l u, t.queue l u = (pendingEntries (s.queue l u)).map (Entry.countDown false) :=
  step_of_single_action hs hno (collision_none_of_row hdue hother) hfl hwf (comingDue_of_row hdue hother hcross) hperform

end DueCrossLane

/-- What becomes of a queue whose pending entries count down was pending in it. -/
theorem exists_pending_of_mem_countDown {q : List Entry} {b : Bool} {e' : Entry}
    (h : e' ∈ (pendingEntries q).map (Entry.countDown b)) : ∃ e ∈ q, e.counter ≠ 0 ∧ e.insn = e'.insn := by
  obtain ⟨e, he, rfl⟩ := List.mem_map.1 h
  obtain ⟨hq, h0⟩ := mem_pendingEntries.1 he
  exact ⟨e, hq, h0, (Entry.countDown_insn b e).symm⟩

/-- A list with a head and at most one element. -/
theorem eq_singleton_of_head? {α : Type} {q : List α} {a : α} (hlen : q.length ≤ 1) (h : q.head? = some a) :
    q = [a] := by
  obtain ⟨tail, rfl⟩ := List.head?_eq_some_iff.1 h
  rw [List.length_eq_zero_iff.1 (Nat.le_zero.1 (Nat.le_of_succ_le_succ hlen))]

/-- A cycle is refused where a cross-lane entry is due in one lane and not, alone, in another (R70). -/
theorem step_refused_of_not_uniform {s s3 : State} {reg : Option Action} {u : SubUnit} {l l' : Lane} {e : Entry}
    (hs : Unmarked s) (htwo : NoTwoDue s) (h3 : comingRegular s = .next (s3, reg))
    (hl : dueEntries (s.queue l u) = [e]) (hcross : isCrossLane s.params e.insn.op = true)
    (hl' : dueEntries (s.queue l' u) ≠ [e]) : step s = .refused .nonUniformCrossLane := by
  have hnot : (dueTable s.atCycleStart).at l' u ≠ some e := by
    rw [dueTable_at, State.atCycleStart_queue]
    intro hhead
    exact hl' (eq_singleton_of_head? (htwo l' u) hhead)
  have hrow := rowActions_not_uniform (p := s3.params) (dueTable_at_of_singleton hl)
    (comingRegular_params h3 ▸ hcross) hnot
  rw [step_of_comingRegular hs (collision_none_of_le htwo) h3, scheduledPart, dueActions_refused hrow]
  rfl

/-- Settles O17: a cross-lane row is one action or a refusal, and the cycle follows the row. -/
theorem scheduledTranspNeedsUniformLanes : Obligations.ScheduledTranspNeedsUniformLanes := by
  unfold Obligations.ScheduledTranspNeedsUniformLanes
  refine ⟨?_, ?_, ?_, ?_⟩
  · intro s e hs hno hop hdue hother hfl hwf hguard
    have hcross : isCrossLane s.params e.insn.op = true := hop ▸ isCrossLane_sfptransp s.params
    have hperform : (crossAction e.insn).perform s.atCycleStart.sfpu =
        .next { s.atCycleStart.sfpu with
          lreg := transposeRegs s.atCycleStart.sfpu.laneIsEnabled s.atCycleStart.sfpu.lreg } := by
      rw [crossAction, if_pos hop]
      exact transpose_eq_next.2 ⟨transpGuard_iff.2 hguard, rfl⟩
    obtain ⟨t, ht, hunit, hqueue⟩ := step_of_crossLane_row hdue hother hs hno hcross hfl hwf hperform
    exact ⟨t, ht, hunit, fun l e' he' => exists_pending_of_mem_countDown (hqueue l .simple ▸ he')⟩
  · intro s e u hs hno hop hcross hdue hother hfl hwf
    refine step_of_crossLane_row hdue hother hs hno hcross hfl hwf ?_
    rw [crossAction, if_neg hop]
    rfl
  · rintro p d u l e hl hcross ⟨l', hl'⟩
    exact rowActions_not_uniform hl hcross hl'
  · exact fun s s3 reg u l l' e => step_refused_of_not_uniform

end Sys2Proof.Machine
end

section
/-! SUPPORT. An entry of kind Instructions across a run without issues (R83, R92, D28). -/

namespace Sys2Proof.Machine

variable {s t : State} {l : Lane} {u : SubUnit} {e : Entry}

/-- A run is not over while anything is scheduled (R92, D28). -/
theorem State.isFinal_eq_false_of_mem_queue (he : e ∈ s.queue l u) : s.isFinal = false := by
  have hpending : s.noPendingMacro = false :=
    List.all_eq_false.2 ⟨(l, u), mem_lanesAndUnits l u, by simp [List.ne_nil_of_mem he]⟩
  rw [State.isFinal, hpending, Bool.and_false, Bool.false_and]

/-- Through a cycle in which nothing issues, an entry of kind Instructions waits in its queue (R83). -/
theorem NoIssueAhead.instructions_mem_of_step (hs : NoIssueAhead s) (hstep : step s = .next t)
    (he : e ∈ s.queue l u) (hkind : e.kind = .instructions) (h0 : e.counter ≠ 0) : e ∈ t.queue l u := by
  have hdown := hs.countDown_mem hstep he h0
  rwa [Entry.countDown_of_waits hkind] at hdown

/-- Through any number of such cycles it waits there (R92). -/
theorem NoIssueAhead.instructions_mem_of_run {n : Nat} (hs : NoIssueAhead s)
    (hrun : Host.Core.run Sys2Proof.core n s = .next t) (he : e ∈ s.queue l u) (hkind : e.kind = .instructions)
    (h0 : e.counter ≠ 0) : e ∈ t.queue l u := by
  induction n generalizing s with
  | zero =>
    cases hrun
    exact he
  | succ n ih =>
    obtain ⟨s', hstep, hrest⟩ := run_succ hrun
    exact ih (hs.of_step hstep) hrest (hs.instructions_mem_of_step hstep he hkind h0)

/-- Settles O42: the entry waits through the run, and a state that holds it is not final. -/
theorem instructionsEntryStaysWithoutIssue : Obligations.InstructionsEntryStaysWithoutIssue := by
  unfold Obligations.InstructionsEntryStaysWithoutIssue
  intro s t l u e n hs he hkind h0 hrun
  have hstays : e ∈ t.queue l u := hs.instructions_mem_of_run hrun he hkind h0
  exact ⟨hstays, State.isFinal_eq_false_of_mem_queue hstays⟩

end Sys2Proof.Machine
end

section
/-! SUPPORT. The decoder and the encoder against each other: what a field of an encoded word holds, a word as its fields
put together again, and what the decoder answers for each opcode byte (R40 to R46, R50). -/

namespace Sys2Proof

/-! ### Fields of a word -/

theorem getLsbD_fieldAt {n : Nat} (lo : Nat) (v : BitVec n) (k : Nat) :
    (fieldAt lo v).getLsbD k = (decide (k < 32) && (decide (lo ≤ k) && v.getLsbD (k - lo))) := by
  rw [fieldAt, BitVec.getLsbD_shiftLeft, BitVec.getLsbD_setWidth]
  by_cases hk : k < 32
  · by_cases hlo : k < lo
    · simp [hk, hlo]
    · simp [hk, hlo, show k - lo < 32 by omega, show lo ≤ k by omega]
  · simp [hk]

/-- A field reads back what is placed there. -/
@[simp] theorem extractLsb'_fieldAt_same {n lo : Nat} (h : lo + n ≤ 32) (v : BitVec n) :
    (fieldAt lo v).extractLsb' lo n = v := by
  refine BitVec.eq_of_getLsbD_eq fun k hk => ?_
  rw [BitVec.getLsbD_extractLsb', getLsbD_fieldAt]
  simp [show lo + k < 32 by omega, hk]

/-- A field reads 0 from what is placed above it or below it. -/
@[simp] theorem extractLsb'_fieldAt_disjoint {n n' lo lo' : Nat} (h : lo + n ≤ lo' ∨ lo' + n' ≤ lo) (v : BitVec n') :
    (fieldAt lo' v).extractLsb' lo n = 0#n := by
  refine BitVec.eq_of_getLsbD_eq fun k hk => ?_
  rcases h with habove | hbelow
  · simp [getLsbD_fieldAt, show ¬ lo' ≤ lo + k by omega]
  · simp [getLsbD_fieldAt, BitVec.getLsbD_of_ge v (lo + k - lo') (by omega)]

/-- The bits of a word from `lo` on are those from `lo + n` on and the field of `n` bits at `lo`. -/
theorem bitsFrom_split (w : Word) (lo n : Nat) :
    w >>> lo <<< lo = w >>> (lo + n) <<< (lo + n) ||| fieldAt lo (w.extractLsb' lo n) := by
  refine BitVec.eq_of_getLsbD_eq fun k hk => ?_
  simp only [BitVec.getLsbD_or, BitVec.getLsbD_shiftLeft, BitVec.getLsbD_ushiftRight, getLsbD_fieldAt,
    BitVec.getLsbD_extractLsb']
  by_cases hlo : k < lo
  · simp [hlo, show k < lo + n by omega, show ¬ lo ≤ k by omega]
  · by_cases hhi : k < lo + n
    · simp [hlo, hhi, hk, show lo ≤ k by omega, show k - lo < n by omega]
    · simp [hlo, hhi, hk, show ¬ k - lo < n by omega, show lo + n + (k - (lo + n)) = lo + (k - lo) by omega]

theorem bitsFrom_opcode (w : Word) : w >>> 24 <<< 24 = fieldAt 24 (opcodeByte w) := by
  rw [bitsFrom_split w 24 8, opcodeByte, BitVec.ushiftRight_eq_zero (by decide), BitVec.zero_shiftLeft, BitVec.zero_or]

theorem bitsFrom_zero (w : Word) : w >>> 0 <<< 0 = w := by simp

/-- A register number is its upper bit and its two lower ones (R42). -/
@[simp] theorem vdHi_append_vdLo (vd : BitVec 3) : vd.extractLsb' 2 1 ++ vd.extractLsb' 0 2 = vd := by
  revert vd; decide

@[simp] theorem vdLo_of_append (hi : BitVec 1) (lo : BitVec 2) : (hi ++ lo).extractLsb' 0 2 = lo := by
  revert hi lo; decide

@[simp] theorem vdHi_of_append (hi : BitVec 1) (lo : BitVec 2) : (hi ++ lo).extractLsb' 2 1 = hi := by
  revert hi lo; decide

/-! ### What the decoder answers, by the opcode byte -/

section OpcodeByte

variable {w : Word}

theorem decode_loadmacroWh (hop : opcodeByte w = opSfploadmacro) : decode .wh w = .ok (decodeLoadmacroWh w) := by
  unfold decode
  rw [if_pos hop]

theorem decode_loadmacroBh_eq (hop : opcodeByte w = opSfploadmacro) :
    decode .bh w =
      if w.extractLsb' 10 3 = 0#3 then .ok (decodeLoadmacroBh w) else .error .reservedBitsSet := by
  unfold decode
  rw [if_pos hop]

theorem decode_notInScope (hm : opcodeByte w ≠ opSfploadmacro) (ht : opcodeByte w ≠ opSfptransp) (a : Arch) :
    decode a w = .error .notInScope := by
  unfold decode
  rw [if_neg hm, if_neg ht]

end OpcodeByte

/-! ### Encoded words -/

/-- Settles O2: each field of an encoded word reads back the operand placed there and nothing of the others. -/
theorem decodeOfEncodeIsIdentity : Obligations.DecodeOfEncodeIsIdentity := by
  unfold Obligations.DecodeOfEncodeIsIdentity
  intro a i hwf
  cases i with
  | sfploadmacroBh m vd mod0 am imm9 =>
    obtain rfl : a = .bh := by simpa [Instr.wf] using hwf
    have hop : opcodeByte (encode (.sfploadmacroBh m vd mod0 am imm9)) = opSfploadmacro :=
      Laws.OpcodeByte.sfploadmacroBh m vd mod0 am imm9
    rw [decode_loadmacroBh_eq hop, decodeLoadmacroBh, encode]
    simp [BitVec.extractLsb'_or]
  | sfploadmacroWh lregInd instrMod0 sfpuAddrMod destRegAddr =>
    obtain rfl : a = .wh := by simpa [Instr.wf] using hwf
    have hop : opcodeByte (encode (.sfploadmacroWh lregInd instrMod0 sfpuAddrMod destRegAddr)) = opSfploadmacro :=
      Laws.OpcodeByte.sfploadmacroWh lregInd instrMod0 sfpuAddrMod destRegAddr
    rw [decode_loadmacroWh hop, decodeLoadmacroWh, encode]
    simp [BitVec.extractLsb'_or]
  | sfptransp imm12 lregC vd mod1 =>
    have hop : opcodeByte (encode (.sfptransp imm12 lregC vd mod1)) = opSfptransp :=
      Laws.OpcodeByte.sfptransp imm12 lregC vd mod1
    rw [decode_transp (opcodeByte_eq_iff.1 hop), decodeTransp, encode]
    simp [BitVec.extractLsb'_or]

/-! ### Decoded words -/

theorem encode_decodeTransp {w : Word} (hop : opcodeByte w = opSfptransp) : encode (decodeTransp w) = w := by
  rw [decodeTransp, encode, ← hop, ← bitsFrom_opcode, ← bitsFrom_split w 12 12, ← bitsFrom_split w 8 4,
    ← bitsFrom_split w 4 4, ← bitsFrom_split w 0 4, bitsFrom_zero]

theorem encode_decodeLoadmacroWh {w : Word} (hop : opcodeByte w = opSfploadmacro) :
    encode (decodeLoadmacroWh w) = w := by
  rw [decodeLoadmacroWh, encode, ← hop, ← bitsFrom_opcode, ← bitsFrom_split w 20 4, ← bitsFrom_split w 16 4,
    ← bitsFrom_split w 14 2, ← bitsFrom_split w 0 14, bitsFrom_zero]

/-- The reserved bits 12:10 have no place in the encoder: it gives the word back where they are zero (R43). -/
theorem encode_decodeLoadmacroBh {w : Word} (hop : opcodeByte w = opSfploadmacro) (hres : w.extractLsb' 10 3 = 0#3) :
    encode (decodeLoadmacroBh w) = w := by
  have hreserved : w >>> 13 <<< 13 = w >>> 10 <<< 10 := by
    rw [bitsFrom_split w 10 3, hres]
    simp [fieldAt]
  rw [decodeLoadmacroBh, encode, vdLo_of_append, vdHi_of_append, ← hop, ← bitsFrom_opcode, ← bitsFrom_split w 22 2,
    ← bitsFrom_split w 20 2, ← bitsFrom_split w 16 4, ← bitsFrom_split w 13 3, hreserved, ← bitsFrom_split w 1 9,
    ← bitsFrom_split w 0 1, bitsFrom_zero]


/-- Settles O3: an accepted word is its fields put together again. -/
theorem encodeOfDecodeIsIdentity : Obligations.EncodeOfDecodeIsIdentity := by
  unfold Obligations.EncodeOfDecodeIsIdentity
  intro a w i h
  by_cases hm : opcodeByte w = opSfploadmacro
  · cases a with
    | bh =>
      rw [decode_loadmacroBh_eq hm] at h
      split_ifs at h with hres
      cases h
      exact ⟨encode_decodeLoadmacroBh hm hres, rfl⟩
    | wh =>
      rw [decode_loadmacroWh hm] at h
      cases h
      exact ⟨encode_decodeLoadmacroWh hm, rfl⟩
  · by_cases ht : opcodeByte w = opSfptransp
    · rw [decode_transp (opcodeByte_eq_iff.1 ht)] at h
      cases h
      exact ⟨encode_decodeTransp ht, rfl⟩
    · rw [decode_notInScope hm ht] at h
      cases h

/-- The mask of bits 31:24 keeps the opcode byte (R40). -/
theorem and_opcodeMask_eq_iff {w : Word} {b : BitVec 8} : w &&& 0xFF000000#32 = fieldAt 24 b ↔ opcodeByte w = b := by
  have hmask : w &&& 0xFF000000#32 = fieldAt 24 (opcodeByte w) := by
    have hbit : ∀ k : Fin 32, (0xFF000000#32).getLsbD k.val = decide (24 ≤ k.val) := by decide
    rw [← bitsFrom_opcode]
    refine BitVec.eq_of_getLsbD_eq fun k hk => ?_
    rw [BitVec.getLsbD_and, hbit ⟨k, hk⟩, BitVec.getLsbD_shiftLeft, BitVec.getLsbD_ushiftRight]
    by_cases hhi : 24 ≤ k
    · simp [hhi, hk, show ¬ k < 24 by omega, show 24 + (k - 24) = k by omega]
    · simp [hhi, show k < 24 by omega]
  rw [hmask]
  refine ⟨fun h => ?_, fun h => by rw [h]⟩
  simpa using congrArg (BitVec.extractLsb' 24 8) h

/-- Of the three answers, an SFPLOADMACRO or the refusal of R43 for opcode 0x93. -/
theorem decode_loadmacro_cases {w : Word} (hop : opcodeByte w = opSfploadmacro) (a : Arch) :
    (∃ i, decode a w = .ok i ∧ Machine.instrOp i = .sfploadmacro) ∨ decode a w = .error .reservedBitsSet := by
  cases a with
  | bh =>
    rw [decode_loadmacroBh_eq hop]
    split_ifs
    · exact .inl ⟨_, rfl, rfl⟩
    · exact .inr rfl
  | wh => exact .inl ⟨_, decode_loadmacroWh hop, rfl⟩

/-- Settles O4: the three answers exclude each other, and each opcode byte has one of them. -/
theorem opcodeByteSelectsInstruction : Obligations.OpcodeByteSelectsInstruction := by
  unfold Obligations.OpcodeByteSelectsInstruction
  intro a w
  have htransp : 0x8C000000#32 = fieldAt 24 opSfptransp := by decide
  have hmacro : 0x93000000#32 = fieldAt 24 opSfploadmacro := by decide
  rw [Ne, Ne, htransp, hmacro, and_opcodeMask_eq_iff, and_opcodeMask_eq_iff]
  by_cases hm : opcodeByte w = opSfploadmacro
  · have hne : opSfploadmacro ≠ opSfptransp := by decide
    rcases decode_loadmacro_cases hm a with ⟨i, hi, hop⟩ | herr
    · simp [hm, hi, hop, hne]
    · simp [hm, herr, hne]
  · by_cases ht : opcodeByte w = opSfptransp
    · have hdec := decode_transp (opcodeByte_eq_iff.1 ht) a
      have hop : Machine.instrOp (decodeTransp w) = .sfptransp := rfl
      simp [ht, hdec, hop, show opSfptransp ≠ opSfploadmacro by decide]
    · simp [hm, ht, decode_notInScope hm ht]

/-- Settles O1, each word by evaluation. -/
theorem specWordsDecode : Obligations.SpecWordsDecode := by
  unfold Obligations.SpecWordsDecode
  decide

end Sys2Proof

namespace Sys2Proof.Machine

/-- Settles O6: bits 12:10, as a number and as a field. -/
theorem reservedBitsRefused : Obligations.ReservedBitsRefused := by
  unfold Obligations.ReservedBitsRefused
  refine fun w hop => ⟨fun hres d s harch => ?_, fun hres => ⟨_, decode_loadmacroBh hop hres⟩⟩
  have hfield : w.extractLsb' 10 3 ≠ 0#3 := fun h => hres ((toNat_extractLsb' w 10 3).symm.trans (by rw [h]; rfl))
  have hdec : decode s.params.arch w = .error .reservedBitsSet := by
    rw [harch, decode_loadmacroBh_eq (opcodeByte_eq_iff.2 hop), if_neg hfield]
  rw [issueWord, hdec]

/-- Settles O7, field by field; the instruction's arm refuses whatever the state. -/
theorem wormholeFieldsExtractedThenRefused : Obligations.WormholeFieldsExtractedThenRefused := by
  unfold Obligations.WormholeFieldsExtractedThenRefused
  intro w hop
  refine ⟨_, _, _, _, decode_loadmacroWh (opcodeByte_eq_iff.2 hop), toNat_extractLsb' w 20 4, toNat_extractLsb' w 16 4,
    toNat_extractLsb' w 14 2, ?_, fun s => rfl⟩
  rw [toNat_extractLsb', Nat.pow_zero, Nat.div_one]

/-- Settles O8, field by field; `parse` reads the same fields of the word. -/
theorem transpFieldsAndRecordOfWord : Obligations.TranspFieldsAndRecordOfWord := by
  unfold Obligations.TranspFieldsAndRecordOfWord
  intro w hop
  have hmod1 : (w.extractLsb' 0 4).toNat = w.toNat % 16 := by
    rw [toNat_extractLsb', Nat.pow_zero, Nat.div_one]
    rfl
  have hparse : parse w = some (insnOfTransp w) := if_pos (opcodeByte_eq_iff.2 hop)
  exact ⟨_, _, _, _, decode_transp hop, toNat_extractLsb' w 12 12, toNat_extractLsb' w 8 4, toNat_extractLsb' w 4 4,
    hmod1, _, hparse, rfl, rfl, rfl, rfl, rfl, rfl⟩

end Sys2Proof.Machine
end

section
/-! SUPPORT. One cycle, by how it can go (R81): a mark, a collision, or step 3 followed by step 4; and what a step says
of threads, parameters, marks and FPU distances (R20, R23, R80, R126). -/

namespace Sys2Proof.Machine

/-! ### Sequencing -/

theorem andThen_eq_fault {α β : Type} {o : Out α} {f : α → Out β} {r : Fault} :
    andThen o f = .fault r ↔ o = .fault r ∨ ∃ a, o = .next a ∧ f a = .fault r := by
  cases o <;> simp [andThen]

/-- Two continuations that agree on what a part answers are alike after it. -/
theorem andThen_congr {α β : Type} {o : Out α} {f g : α → Out β} (h : ∀ a, o = .next a → f a = g a) :
    andThen o f = andThen o g := by
  cases o with
  | next a => exact h a rfl
  | fault r => rfl
  | refused r => rfl

/-! ### The step of an unmarked state -/

section Step

variable {s : State}

theorem step_of_unmarked (hs : Unmarked s) : step s = cycleBody s.nextInput s.atCycleStart := by
  obtain ⟨hf, hr⟩ := hs
  unfold step cycle
  rw [hf, hr]

theorem step_of_collision {l : Lane} {u : SubUnit} (hs : Unmarked s) (hc : collision s.atCycleStart = some (l, u)) :
    step s = .fault (.scheduleCollision l u) := by
  rw [step_of_unmarked hs, cycleBody, hc]

theorem step_of_no_collision (hs : Unmarked s) (hc : collision s.atCycleStart = none) :
    step s = andThen (comingRegular s) fun r =>
      scheduledPart s.nextInput s.atCycleStart.sfpu (dueTable s.atCycleStart) r.1 r.2 := by
  rw [step_of_unmarked hs, cycleBody, hc]
  dsimp only
  rw [beforeRegular_sfpu]
  rfl

/-- A step that answers a next state goes through step 3. -/
theorem step_comingRegular {t : State} (h : step s = .next t) :
    ∃ (s3 : State) (reg : Option Action) (acts : List Action) (x : Sfpu), comingRegular s = .next (s3, reg) ∧
      comingDue s = .next acts ∧ s3 = { comingState s with sfpu := s3.sfpu, sched := s3.sched } ∧
      coexecute s3.params.sameCyclePolicy s.atCycleStart.sfpu reg acts s3.sfpu = .next x ∧
      t = { s3 with
        sfpu := x
        inFlight := ageInFlight s3.inFlight (reg.toList ++ acts)
        fpuDistance := ageDistances s.nextInput s3.issuer reg s3.fpuDistance } := by
  obtain ⟨-, -, -, s3, reg, acts, x, h3, hacts, -, hx, ht⟩ := step_spec h
  have hparams : s3.params = s.params := comingRegular_params h3
  exact ⟨s3, reg, acts, x, h3, by rwa [hparams] at hacts, regularPart_frame h3, hx, ht⟩

end Step

/-! ### An issued instruction of this spec -/

section Issue

variable {s : State} {th : Fin Config.nThreads} {w : Word} {i : Instr}

@[simp] theorem comingState_params (s : State) : (comingState s).params = s.params := beforeRegular_params _ _
@[simp] theorem comingState_sfpu (s : State) : (comingState s).sfpu = s.atCycleStart.sfpu := beforeRegular_sfpu _ _
@[simp] theorem comingState_inFlight (s : State) : (comingState s).inFlight = s.inFlight := beforeRegular_inFlight _ _
@[simp] theorem comingState_issuer (s : State) :
    (comingState s).issuer = ((comingIssue s).map Prod.fst).getD s.issuer := beforeRegular_issuer _ _

/-- A decoded word is subject to the priority rule, and otherwise is `exec` of its instruction (R81, R88). -/
theorem issueWord_decoded {d : Due} (hw : decode s.params.arch w = .ok i) : issueWord d w s = issueInstr d i s := by
  rw [issueWord, hw]

theorem issueInstr_execute {d : Due} {lanes : LaneMask} (h : fate s.params d (instrOp i) false = .execute lanes) :
    issueInstr d i s = andThen (exec i s) fun t => .next (t, instrAction i) := by
  rw [issueInstr, h]

theorem issueInstr_discarded {d : Due} (h : fate s.params d (instrOp i) false = .discarded) :
    issueInstr d i s = .next (s, none) := by
  rw [issueInstr, h]

/-- Step 3 of a cycle that issues a decoded word. -/
theorem comingRegular_decoded (hissue : comingIssue s = some (th, w)) (hw : decode s.params.arch w = .ok i) :
    comingRegular s = issueInstr (dueTable s.atCycleStart) i (comingState s) := by
  rw [comingRegular, hissue]
  exact issueWord_decoded (by rwa [comingState_params])

/-- An instruction leaves the thread that issues as it is. -/
theorem exec_issuer {t : State} (h : exec i s = .next t) : t.issuer = s.issuer := by
  rw [exec_frame h]

end Issue

/-- Settles O35: the priority rule lets an SFPLOADMACRO execute (R71, R88). -/
theorem loadmacroNeverDiscarded : Obligations.LoadmacroNeverDiscarded := by
  unfold Obligations.LoadmacroNeverDiscarded
  intro d w s i hw hop
  have hfate : fate s.params d (instrOp i) false = .execute fullMask := by rw [hop]; rfl
  rw [issueWord_decoded hw, issueInstr_execute hfate]

/-- Settles O30: step 3 by what the priority rule answers; with nothing due, step 4 is the bookkeeping alone. -/
theorem stepRunsDecodedInstruction : Obligations.StepRunsDecodedInstruction := by
  unfold Obligations.StepRunsDecodedInstruction
  intro s th w i hs hissue hw
  have h3 := comingRegular_decoded hissue hw
  refine ⟨fun hdue => ?_, fun hc => ⟨fun lanes hfate => ?_, fun hfate => ?_⟩⟩
  · have htable : ∀ l u, (dueTable s.atCycleStart).at l u = none := dueTable_at_none hdue
    rw [issueInstr_execute (fate_nothing_due htable _ _ _)] at h3
    rw [step_nothing_due hs.1 hs.2 hdue]
    refine (congrArg (andThen · _) h3).trans ?_
    rw [andThen_assoc]
    refine andThen_congr fun t ht => ?_
    have hissuer : t.issuer = th := by rw [exec_issuer ht, comingState_issuer, hissue]; rfl
    rw [andThen_next, ← hissuer]
  · rw [← comingState_params] at hfate
    rw [step_of_no_collision hs hc, h3, issueInstr_execute hfate, andThen_assoc]
    rfl
  · rw [← comingState_params] at hfate
    rw [step_of_comingRegular hs hc (h3.trans (issueInstr_discarded hfate))]

theorem comingState_threads_of_no_issue {s : State} (hno : comingIssue s = none) :
    (comingState s).threads = s.threads := by
  rw [comingState, beforeRegular, ← comingIssue, hno]
  rfl

/-- Nothing leaves a queue in which nothing is due. -/
theorem pendingEntries_eq_self {q : List Entry} (h : ∀ e ∈ q, e.counter ≠ 0) : pendingEntries q = q :=
  List.filter_eq_self.2 fun e he => decide_eq_true (h e he)

/-- Settles O31: with neither an issue nor a due entry only the count-down and the bookkeeping are left. -/
theorem idleCycleCompletes : Obligations.IdleCycleCompletes := by
  unfold Obligations.IdleCycleCompletes
  intro s hs hno hdue
  have h3 := comingRegular_of_no_issue hno
  have hstep : step s = .next _ :=
    (step_nothing_due hs.1 hs.2 hdue).trans ((congrArg (andThen · _) h3).trans (andThen_next _ _))
  refine ⟨_, hstep, comingState_sfpu s, ?_, fun l u => ?_⟩
  · exact comingState_threads_of_no_issue hno
  · rw [step_queue_of_no_issue hno hstep, pendingEntries_eq_self (hdue l u)]

/-! ### Collisions -/

/-- A list that holds two different elements holds more than one. -/
theorem one_lt_length_of_mem_ne {α : Type} {q : List α} {a b : α} (ha : a ∈ q) (hb : b ∈ q) (hne : a ≠ b) :
    1 < q.length := by
  match q, ha, hb with
  | [x], ha, hb => exact absurd ((List.mem_singleton.1 ha).trans (List.mem_singleton.1 hb).symm) hne
  | x :: y :: q, _, _ => exact Nat.succ_lt_succ (Nat.succ_pos q.length)

/-- Settles O33: the collision found is one of the step's stops, and under the invariant entries of one kind are never
due together. -/
theorem collisionFaults : Obligations.CollisionFaults := by
  unfold Obligations.CollisionFaults
  intro s l u e e' hs he he' hne h0 h0'
  constructor
  · have htwo : 1 < (dueEntries (s.queue l u)).length :=
      one_lt_length_of_mem_ne (mem_dueEntries.2 ⟨he, h0⟩) (mem_dueEntries.2 ⟨he', h0'⟩) hne
    have hsome : (collision s.atCycleStart).isSome = true :=
      List.find?_isSome.2 ⟨(l, u), mem_lanesAndUnits l u, decide_eq_true htwo⟩
    obtain ⟨⟨l', u'⟩, hc⟩ := Option.isSome_iff_exists.1 hsome
    have htwo' := List.find?_some hc
    exact ⟨l', u', step_of_collision hs hc, of_decide_eq_true htwo'⟩
  · rintro ⟨-, hq, -⟩ hkind
    obtain ⟨hpair, -⟩ := hq l u
    have hsymm : Std.Symm fun e e' : Entry => e.kind = e'.kind → e.counter ≠ e'.counter :=
      ⟨fun _ _ h hk => (h hk.symm).symm⟩
    exact hpair.forall he he' hne hkind (h0.trans h0'.symm)

/-- Settles O43: the count-down of a cycle with an issue empties slot 7 (R86). -/
theorem slotSevenIsEmptyAtIssue : Obligations.SlotSevenIsEmptyAtIssue := by
  unfold Obligations.SlotSevenIsEmptyAtIssue
  intro s l u hissue e he
  rw [comingState, beforeRegular_queue, show (issueOf s.nextInput s.atCycleStart).isSome = true from hissue] at he
  obtain ⟨e₀, -, rfl⟩ := List.mem_map.1 he
  have hne : (e₀.countDown true).counter.val ≠ 7 := fun h => Entry.countDown_counter_ne_seven e₀ (Fin.ext h)
  have := (e₀.countDown true).counter.isLt
  omega

/-! ### Runs without issues -/

/-- What is left after `k` cycles without an issue: of kind Cycles, entries that had a counter of `k` more, and of kind
Instructions, once a cycle has passed, entries that wait. -/
def DrainedBy (k : Nat) (s : State) : Prop :=
  ∀ l u, ∀ e ∈ s.queue l u,
    (e.kind = .cycles → e.counter.val + k ≤ 7) ∧ (e.kind = .instructions → k ≠ 0 → e.counter ≠ 0)

theorem drainedBy_zero (s : State) : DrainedBy 0 s :=
  fun _ _ e _ => ⟨fun _ => Nat.le_of_lt_succ e.counter.isLt, fun _ h => absurd rfl h⟩

theorem DrainedBy.of_step {k : Nat} {s t : State} (hd : DrainedBy k s) (hs : NoIssueAhead s) (h : step s = .next t) :
    DrainedBy (k + 1) t := by
  intro l u e' he'
  rw [step_queue_of_no_issue hs.comingIssue_eq_none h] at he'
  obtain ⟨e, he, rfl⟩ := List.mem_map.1 he'
  obtain ⟨hq, h0⟩ := mem_pendingEntries.1 he
  rw [Entry.countDown_kind]
  refine ⟨fun hkind => ?_, fun hkind _ => ?_⟩
  · have hdown := Entry.countDown_counter_of_counts (issued := false) (.inl hkind) h0
    have hbound := (hd l u e hq).1 hkind
    omega
  · rwa [Entry.countDown_of_waits hkind]

theorem DrainedBy.of_run {k n : Nat} {s t : State} (hd : DrainedBy k s) (hs : NoIssueAhead s)
    (h : Host.Core.run Sys2Proof.core n s = .next t) : DrainedBy (k + n) t := by
  induction n generalizing k s with
  | zero =>
    cases h
    exact hd
  | succ n ih =>
    obtain ⟨s', hstep, hrest⟩ := run_succ h
    have := ih (hd.of_step hs hstep) (hs.of_step hstep) hrest
    rwa [Nat.add_right_comm, Nat.add_assoc] at this

/-- Settles O41: an entry of kind Cycles left after 8 cycles would have had a counter above 7. -/
theorem cyclesEntriesDrainInEight : Obligations.CyclesEntriesDrainInEight := by
  unfold Obligations.CyclesEntriesDrainInEight
  intro s t hs h l u e he
  obtain ⟨hcycles, hinstr⟩ := (drainedBy_zero s).of_run hs h l u e he
  have hkind : e.kind = .instructions := by
    cases hk : e.kind with
    | cycles =>
      have := hcycles hk
      omega
    | instructions => rfl
  exact ⟨hkind, hinstr hkind (by decide)⟩

/-- Settles O44: without an issue the queues after a step are the pending entries counted down, whatever the unit. -/
theorem pendingEntriesKeepTheirRecords : Obligations.PendingEntriesKeepTheirRecords := by
  unfold Obligations.PendingEntriesKeepTheirRecords
  intro s t t' cfg hno h h' l u
  have hno' : comingIssue (s.withSfpu { s.sfpu with loadMacroConfig := cfg }) = none := hno
  rw [step_queue_of_no_issue hno h, step_queue_of_no_issue hno' h', State.withSfpu_queue]

/-! ### Threads, parameters and marks -/

/-- What a cycle does to a thread: the one that issues moves on by one (R20). -/
theorem comingState_thread (s : State) (th : Fin Config.nThreads) :
    (comingState s).threads[th] = { s.threads[th] with
      position := s.threads[th].position + (if (comingIssue s).map Prod.fst = some th then 1 else 0) } := by
  rw [comingState, beforeRegular, ← comingIssue]
  cases comingIssue s with
  | none => rfl
  | some tw =>
    obtain ⟨t, w⟩ := tw
    simp only [advanceThread, advanceSched_threads, State.atCycleStart_threads, vector_set_getElem, Option.map_some,
      Option.some.injEq]
    by_cases ht : t = th
    · rw [if_pos ht, if_pos ht, ht]
    · rw [if_neg ht, if_neg ht]
      rfl

/-- Settles O54: the thread moves on before step 3, which changes no thread. -/
theorem issuingThreadMovesOnByOne : Obligations.IssuingThreadMovesOnByOne := by
  unfold Obligations.IssuingThreadMovesOnByOne
  intro s t h th
  obtain ⟨s3, reg, acts, x, -, -, hframe, -, ht⟩ := step_comingRegular h
  have hthreads : t.threads[th] = (comingState s).threads[th] := by rw [ht, hframe]
  rw [hthreads, comingState_thread]
  exact ⟨rfl, rfl⟩

/-- Settles O56: step 3 changes no parameter, and step 4 none either. -/
theorem parametersNeverChange : Obligations.ParametersNeverChange := by
  unfold Obligations.ParametersNeverChange
  intro s t h
  obtain ⟨s3, reg, acts, x, h3, -, -, -, ht⟩ := step_comingRegular h
  have hparams : t.params = s3.params := by rw [ht]
  rw [hparams, comingRegular_params h3]

/-- A state that a marked step leaves as it is stays through any number of them. -/
theorem markedRun_of_markedStep {s : State} (h : markedStep s = s) (n : Nat) : markedRun n s = s := by
  induction n with
  | zero => rfl
  | succ n ih => rw [markedRun, h, ih]

/-- Settles O57, by which of the two marks is set. -/
theorem marksAreSticky : Obligations.MarksAreSticky := by
  unfold Obligations.MarksAreSticky
  refine ⟨fun s f h => ?_, fun s r h => ?_, fun s f hf => ?_, fun s r hf hr => ?_⟩
  · rw [markedStep, h]
  · rw [markedStep, h]
  · have hstep : step s = .fault f := by
      unfold step cycle
      rw [hf]
    have hstays : markedStep s = s := by simp only [markedStep, hstep, ← hf]
    exact ⟨hstep, markedRun_of_markedStep hstays, by simp [State.isFinal, State.noFaultRecorded, hf]⟩
  · have hstep : step s = .refused r := by
      unfold step cycle
      rw [hf, hr]
    have hstays : markedStep s = s := by simp only [markedStep, hstep, ← hr]
    exact ⟨hstep, markedRun_of_markedStep hstays, by simp [State.isFinal, State.noFaultRecorded, hr]⟩


/-! ### FPU distances -/

/-- A step whose regular part executed an action issued a word. -/
theorem comingIssue_of_regular {s s3 : State} {a : Action} (h : comingRegular s = .next (s3, some a)) :
    ∃ th w, comingIssue s = some (th, w) := by
  unfold comingRegular at h
  cases hi : comingIssue s with
  | none =>
    rw [hi] at h
    cases h
  | some thw => exact ⟨thw.1, thw.2, rfl⟩

/-- What a cycle counts for a thread: the environment's other instructions, and one more where the regular one counts
(R126; log entry 12). -/
theorem tensixExecuted_eq {s s3 : State} {reg : Option Action} (h : comingRegular s = .next (s3, reg)) (c : CycleInput)
    (th : Fin Config.nThreads) :
    (CountsForThread (comingIssue s) reg th → tensixExecuted c s3.issuer reg th = c.otherTensix[th] + 1) ∧
      (¬ CountsForThread (comingIssue s) reg th → tensixExecuted c s3.issuer reg th = c.otherTensix[th]) := by
  cases reg with
  | none => exact ⟨fun ⟨_, a, ha, _⟩ => (nomatch ha), fun _ => rfl⟩
  | some a =>
    obtain ⟨th', w, hissue⟩ := comingIssue_of_regular h
    have hissuer : s3.issuer = th' := by
      rw [regularPart_frame h]
      exact (comingState_issuer s).trans (by rw [hissue]; rfl)
    have hcounts : CountsForThread (comingIssue s) (some a) th ↔ th' = th ∧ a.touchesDst = false := by
      simp [CountsForThread, hissue]
    rw [hcounts, hissuer, tensixExecuted]
    exact ⟨fun hc => by rw [if_pos hc], fun hc => by rw [if_neg hc]; rfl⟩

section Region

variable {s : State} {r : Nat}

/-- A region that the FPU writes in the coming cycle, before step 3 and at the end of the cycle (R126). -/
theorem mem_fpuDistance_of_written (hw : ∃ w ∈ s.nextInput.fpuWrites, w.region = r) (n : Vector Nat Config.nThreads)
    (issuer : Fin Config.nThreads) (reg : Option Action) :
    ((r, n) ∈ s.atCycleStart.fpuDistance ↔ n = tab Config.nThreads fun _ => 0) ∧
      ((r, n) ∈ ageDistances s.nextInput issuer reg s.atCycleStart.fpuDistance ↔
        (r, n) ∈ s.atCycleStart.fpuDistance) := by
  have hnot : ¬ ∀ w ∈ s.nextInput.fpuWrites, w.region ≠ r := by
    obtain ⟨w, hmem, hr⟩ := hw
    exact fun hall => hall w hmem hr
  constructor
  · exact (mem_noteFpuWrites _ _ _).trans
      ⟨fun h => h.elim And.left fun h => absurd h.2 hnot, fun h => .inl ⟨h, hw⟩⟩
  · exact mem_ageDistances.trans
      ⟨fun h => h.elim And.right fun h => absurd h.1 hnot, fun h => .inl ⟨hw, h⟩⟩

/-- A region that the FPU does not write in the coming cycle. -/
theorem mem_fpuDistance_of_not_written (hw : ∀ w ∈ s.nextInput.fpuWrites, w.region ≠ r)
    (n : Vector Nat Config.nThreads) (issuer : Fin Config.nThreads) (reg : Option Action) :
    ((r, n) ∈ s.atCycleStart.fpuDistance ↔ (r, n) ∈ s.fpuDistance) ∧
      ((r, n) ∈ ageDistances s.nextInput issuer reg s.atCycleStart.fpuDistance ↔
        ∃ m, (r, m) ∈ s.atCycleStart.fpuDistance ∧
          n = tab Config.nThreads fun th => m[th] + tensixExecuted s.nextInput issuer reg th) := by
  have hnot : ¬ ∃ w ∈ s.nextInput.fpuWrites, w.region = r := fun ⟨w, hmem, hr⟩ => hw w hmem hr
  constructor
  · exact (mem_noteFpuWrites _ _ _).trans
      ⟨fun h => h.elim (fun h => absurd h.2 hnot) And.left, fun h => .inr ⟨h, hw⟩⟩
  · exact mem_ageDistances.trans
      ⟨fun h => h.elim (fun h => absurd h.1 hnot) And.right, fun h => .inr ⟨hw, h⟩⟩

end Region

theorem eq_tab_iff {n : Vector Nat Config.nThreads} {f : Fin Config.nThreads → Nat} :
    n = tab Config.nThreads f ↔ ∀ th : Fin Config.nThreads, n[th] = f th := by
  constructor
  · rintro rfl th
    exact getElem_tab f th.val th.isLt
  · intro h
    ext i hi
    rw [getElem_tab]
    exact h ⟨i, hi⟩

/-- Settles O55: a region written in the cycle is set to 0 before step 3 and does not grow, any other one only grows. -/
theorem fpuDistanceAfterStep : Obligations.FpuDistanceAfterStep := by
  unfold Obligations.FpuDistanceAfterStep
  intro s t r h
  obtain ⟨s3, reg, acts, x, h3, -, hframe, -, ht⟩ := step_comingRegular h
  have hdist : t.fpuDistance = ageDistances s.nextInput s3.issuer reg s.atCycleStart.fpuDistance := by
    have hs3 : s3.fpuDistance = s.atCycleStart.fpuDistance := by
      rw [hframe]
      exact beforeRegular_fpuDistance _ _
    rw [ht, ← hs3]
  refine ⟨s3, reg, h3, fun hw n => ?_, fun hw n' => ?_⟩
  · obtain ⟨hstart, hend⟩ := mem_fpuDistance_of_written hw n s3.issuer reg
    rw [hdist, hend, hstart, eq_tab_iff]
  · rw [hdist, (mem_fpuDistance_of_not_written hw n' s3.issuer reg).2]
    refine exists_congr fun n => ?_
    rw [(mem_fpuDistance_of_not_written hw n s3.issuer reg).1, eq_tab_iff]
    refine and_congr_right fun _ => forall_congr' fun th => ?_
    obtain ⟨hcounts, hnotCounts⟩ := tensixExecuted_eq h3 s.nextInput th
    by_cases hc : CountsForThread (comingIssue s) reg th
    · simp [hc, hcounts hc, Nat.add_assoc]
    · simp [hc, hnotCounts hc]

/-! ### The state after reset -/

@[simp] theorem reset_queue (l : Lane) (u : SubUnit) : State.reset.queue l u = [] := by
  simp [State.queue, State.reset]

/-- Settles O59: every list the invariant speaks of is empty. -/
theorem resetMeetsInvariant : Obligations.ResetMeetsInvariant := by
  unfold Obligations.ResetMeetsInvariant
  refine ⟨⟨Memory.wf_nil, Memory.wf_nil⟩, fun l u => ?_, by decide, fun f hf => (nomatch hf), List.nodup_nil⟩
  rw [reset_queue]
  exact ⟨List.Pairwise.nil, List.forall_mem_nil _⟩

/-- No issue ahead and nothing scheduled: the machine does nothing of its own any more. -/
def Quiescent (s : State) : Prop := NoIssueAhead s ∧ ∀ l u, s.queue l u = []

theorem quiescent_reset : Quiescent State.reset := ⟨List.forall_mem_nil _, reset_queue⟩

theorem Quiescent.of_step {s t : State} (hs : Quiescent s) (h : step s = .next t) : Quiescent t := by
  obtain ⟨hno, hq⟩ := hs
  refine ⟨hno.of_step h, fun l u => ?_⟩
  rw [step_queue_of_no_issue hno.comingIssue_eq_none h, hq]
  rfl

theorem Quiescent.of_run {n : Nat} {s t : State} (hs : Quiescent s) (h : Host.Core.run Sys2Proof.core n s = .next t) :
    Quiescent t := by
  induction n generalizing s with
  | zero =>
    cases h
    exact hs
  | succ n ih =>
    obtain ⟨s', hstep, hrest⟩ := run_succ h
    exact ih (hs.of_step hstep) hrest

theorem Quiescent.issuesLoadmacro_eq_false {s : State} (hs : Quiescent s) : issuesLoadmacro s = false := by
  rw [issuesLoadmacro, hs.1.comingIssue_eq_none]

/-- No SFPTRANSP executes where nothing issues and nothing is due. -/
theorem Quiescent.transpMasks_eq_nil {s : State} (hs : Quiescent s) : transpMasks s = [] := by
  obtain ⟨hno, hq⟩ := hs
  have hdue : comingDue s = .next [] := by
    refine dueActions_none (fun l u => ?_) _
    rw [dueTable_at, State.atCycleStart_queue, hq]
    rfl
  rw [transpMasks, comingRegular_of_no_issue hno.comingIssue_eq_none, hdue]
  cases s.params.sameCyclePolicy <;> rfl

/-- Every location of the unit reads 0 at reset (log entries 4 and 5). -/
theorem get_reset (loc : Loc) : Sfpu.reset.get loc = 0#32 := by
  cases loc <;> simp [Sfpu.get, Sfpu.reset, MacroConfig.reset, wordOfBool, Memory.blank]

/-- Settles O60: from reset the machine stays quiescent. -/
theorem resetMeetsLaunchPremises : Obligations.ResetMeetsLaunchPremises := by
  unfold Obligations.ResetMeetsLaunchPremises
  have hpending : State.reset.noPendingMacro = true := by simp [State.noPendingMacro]
  refine ⟨hpending, rfl, fun n t hrun _ hissues => ?_, fun mask n t hrun m hm => ?_, fun field => ?_, ?_, ?_⟩
  · rw [(quiescent_reset.of_run hrun).issuesLoadmacro_eq_false] at hissues
    cases hissues
  · rw [(quiescent_reset.of_run hrun).transpMasks_eq_nil] at hm
    cases hm
  · simp [State.configWritten, State.reset, get_reset]
  · simp [State.configUniform, State.reset, Sfpu.reset]
  · rw [State.isFinal, hpending]
    decide

end Sys2Proof.Machine
end

section
/-! SUPPORT. SFPLOADMACRO from its selectors' side: which fields build an entry and which stop (R63, R64, R69), the load
part's operands and footprint (R60, R61), and where the Dst hazard is answered (R126). -/

namespace Sys2Proof.Machine

/-! ### What a selector makes of its field -/

section Selector

variable {p : Params} {c : MacroConfig} {l : Lane} {u : SubUnit} {sel : BitVec 3} {i : Insn}

/-- Selector 3 on a sub-unit that takes SFPSTORE, its fields supplied (R63). -/
theorem selectInsn_three_supplied {f : StoreFields} (hu : u ∈ subUnitOf .sfpstore) (hf : p.sel3StoreFields = some f) :
    selectInsn p c l u 3#3 = .next (some (storeInsn f)) := by
  refine (if_pos hu).trans ?_
  rw [hf]

/-- Selector 3 on a sub-unit that takes SFPSTORE, its fields not supplied (R63, D14). -/
theorem selectInsn_three_missing (hu : u ∈ subUnitOf .sfpstore) (hf : p.sel3StoreFields = none) :
    selectInsn p c l u 3#3 = .refused .sel3FieldsOpen := by
  refine (if_pos hu).trans ?_
  rw [hf]

/-- What the table of R63 chooses, the choice answers, if the sub-unit can take it (R69). -/
theorem selectInsn_eligible (hi : SelectorChooses p c sel i) (hu : u ∈ subUnitOf i.op) :
    selectInsn p c l u sel = .next (some i) := by
  rcases hi with ⟨rfl, rfl⟩ | ⟨rfl, f, hf, rfl⟩ | ⟨t, ht, hparse⟩
  · exact if_pos hu
  · exact selectInsn_three_supplied hu hf
  · rw [selectInsn, choose_template ht, hparse]
    exact if_pos hu

/-- A selector that names an instruction its sub-unit cannot take, or no instruction, is ineligible (R69). -/
theorem selectInsn_ineligible {op : Option Mnemonic} (hop : SelectorNames c sel op)
    (hu : ∀ o, op = some o → u ∉ subUnitOf o) :
    selectInsn p c l u sel = .fault (.ineligibleForSubUnit l u op) := by
  rcases hop with ⟨rfl, rfl⟩ | ⟨rfl, rfl⟩ | ⟨t, ht, rfl⟩
  · exact if_neg (hu _ rfl)
  · exact if_neg (hu _ rfl)
  · rw [selectInsn, choose_template ht]
    cases hparse : parse c.instructionTemplate[t] with
    | none => rfl
    | some i =>
      rw [hparse] at hu
      exact if_neg (hu _ rfl)

/-- The selectors: nothing, undefined, SFPNOP, SFPSTORE, or a template (R63). -/
theorem selector_cases (sel : BitVec 3) :
    sel = 0#3 ∨ sel = 1#3 ∨ sel = 2#3 ∨ sel = 3#3 ∨ ∃ t : Fin 4, sel.toNat = t.val + 4 := by
  revert sel; decide

/-- What the choice answers is what the table of R63 chooses. -/
theorem selectorChooses_of_selectInsn (h : selectInsn p c l u sel = .next (some i)) : SelectorChooses p c sel i := by
  rcases selector_cases sel with rfl | rfl | rfl | rfl | ⟨t, ht⟩
  · cases h
  · cases h
  · exact .inl ⟨rfl, Option.some.inj (selectInsn_of_choose_insn rfl h)⟩
  · refine .inr (.inl ⟨rfl, ?_⟩)
    cases hf : p.sel3StoreFields with
    | none =>
      by_cases hu : u ∈ subUnitOf .sfpstore
      · cases (selectInsn_three_missing hu hf).symm.trans h
      · have hstop := selectInsn_ineligible (p := p) (c := c) (l := l) (.inr (.inl ⟨rfl, rfl⟩))
          fun o ho => Option.some.inj ho ▸ hu
        cases hstop.symm.trans h
    | some f => exact ⟨f, rfl, Option.some.inj (selectInsn_of_selectorChooses (.inr (.inl ⟨rfl, f, hf, rfl⟩)) h)⟩
  · refine .inr (.inr ⟨t, ht, ?_⟩)
    cases hparse : parse c.instructionTemplate[t] with
    | none =>
      rw [selectInsn, choose_template ht, hparse] at h
      cases h
    | some j => rw [selectInsn_of_selectorChooses (.inr (.inr ⟨t, ht, hparse⟩)) h]

/-- Selector 1 is undefined (R64). -/
theorem selectInsn_one (p : Params) (c : MacroConfig) (l : Lane) (u : SubUnit) :
    selectInsn p c l u 1#3 = .fault (.undefinedSelector l u) := rfl

end Selector

/-- Settles O27, by whether the fields are supplied. -/
theorem selectorThreeNeedsItsFields : Obligations.SelectorThreeNeedsItsFields := by
  unfold Obligations.SelectorThreeNeedsItsFields
  intro p c l
  have hstore : SubUnit.store ∈ subUnitOf .sfpstore := by decide
  exact ⟨selectInsn_three_missing hstore, fun f => selectInsn_three_supplied hstore⟩

/-! ### Registers and lanes from their locations -/

/-- A register is its lanes. -/
theorem lreg_eq_of_get {x y : Sfpu} {r : LRegNum} (h : ∀ l, x.get (.lreg r l) = y.get (.lreg r l)) :
    x.lreg[r] = y.lreg[r] := by
  ext l hl : 1
  exact h ⟨l, hl⟩

theorem wordOfBool_inj {a b : Bool} : wordOfBool a = wordOfBool b ↔ a = b := by
  revert a b; decide

/-- LaneEnabled is its bits. -/
theorem laneEnabled_eq_of_get {x y : Sfpu} (h : ∀ l, x.get (.laneEnabled l) = y.get (.laneEnabled l)) :
    x.laneEnabled = y.laneEnabled :=
  LaneMask.ext fun l => wordOfBool_inj.1 (h l)

/-! ### What becomes of the whole instruction -/

section Macro

variable {m : BitVec 2} {vd : BitVec 3} {mod0 : BitVec 4} {am : BitVec 3} {imm9 : BitVec 9} {s t : State} {l : Lane}
  {u : SubUnit}

theorem buildEntry_of_selectInsn_fault {p : Params} {c : MacroConfig} {f : Fault}
    (h : selectInsn p c l u (seqSelector (c.field m u)) = .fault f) : buildEntry p c m vd mod0 l u = .fault f := by
  rw [buildEntry, h]
  rfl

theorem buildEntry_eligible {p : Params} {c : MacroConfig} {i : Insn}
    (hi : SelectorChooses p c (seqSelector (c.field m u)) i) (hu : u ∈ subUnitOf i.op) :
    ∃ e, buildEntry p c m vd mod0 l u = .next (some e) := by
  rw [buildEntry, selectInsn_eligible hi hu]
  exact ⟨_, rfl⟩

/-- A field that stops keeps the instruction from completing, and is the stop where nothing before it stops (R113). -/
theorem exec_stops_at_field {f : Fault}
    (h : selectInsn s.params s.sfpu.loadMacroConfig[l] l u (seqSelector (s.sfpu.loadMacroConfig[l].field m u)) =
      .fault f) :
    (∀ t, exec (.sfploadmacroBh m vd mod0 am imm9) s ≠ .next t) ∧
    (dstHazard s am (imm10 imm9 vd) = false → s.loadRaises = false →
      ∀ before after, lanesAndUnits = before ++ (l, u) :: after →
      (∀ p ∈ before, ∃ o, buildEntry s.params s.sfpu.loadMacroConfig[p.1] m vd mod0 p.1 p.2 = .next o) →
      exec (.sfploadmacroBh m vd mod0 am imm9) s = .fault f) := by
  have hbuild := buildEntry_of_selectInsn_fault (vd := vd) (mod0 := mod0) h
  refine ⟨fun t ht => ?_, fun hz hl _ _ hsplit hbefore => execSfploadmacroBh_fault hz hl hsplit hbefore hbuild⟩
  obtain ⟨-, -, hqueue, -⟩ := execSfploadmacroBh_spec ht
  obtain ⟨e, he, -⟩ := hqueue l u
  cases hbuild.symm.trans he

/-- The hazard of R126. -/
theorem dstHazard_iff {i : BitVec 10} :
    dstHazard s am i = true ↔
      ∃ d ∈ s.fpuDistance, d.2[s.issuer] < 3 ∧ Config.loadReadsRegion am i s.sfpu.addrCounters d.1 = true := by
  simp [dstHazard]

end Macro

/-- Settles O21: selector 1 is one of the stops of a field. -/
theorem selectorOneFaults : Obligations.SelectorOneFaults := by
  unfold Obligations.SelectorOneFaults
  intro m vd mod0 am imm9 s l u h
  exact exec_stops_at_field (by rw [h]; exact selectInsn_one _ _ l u)

/-- Settles O22: an ineligible selection is one of the stops of a field. -/
theorem ineligibleFaults : Obligations.IneligibleFaults := by
  unfold Obligations.IneligibleFaults
  intro m vd mod0 am imm9 s l u op hop hu
  exact exec_stops_at_field (selectInsn_ineligible hop hu)

/-- Settles O18: past the hazard and the load's own stop, every field builds its entry or none. -/
theorem loadmacroCompletes : Obligations.LoadmacroCompletes := by
  unfold Obligations.LoadmacroCompletes
  intro m vd mod0 am imm9 s hdist hload hfields
  have hz : dstHazard s am (imm10 imm9 vd) = false := by
    rw [← Bool.not_eq_true, dstHazard_iff]
    rintro ⟨d, hd, hlt, hreads⟩
    exact absurd hlt (Nat.not_lt.2 (hdist d hd hreads))
  have hbuild : ∀ l u, ∃ e, buildEntry s.params s.sfpu.loadMacroConfig[l] m vd mod0 l u = .next e := by
    intro l u
    rcases hfields l u with h0 | ⟨i, hi, hu⟩
    · exact ⟨none, buildEntry_selector_zero h0 s.params vd mod0 l⟩
    · obtain ⟨e, he⟩ := buildEntry_eligible hi hu
      exact ⟨some e, he⟩
  obtain ⟨t, ht⟩ := execSfploadmacroBh_completes hz hload hbuild
  obtain ⟨-, -, hqueue, hframe⟩ := execSfploadmacroBh_spec ht
  have hunit : t.sfpu = loadSem (macroLoadOps vd am imm9) s.sfpu := by rw [hframe]
  have hkept : ∀ loc : Loc, loc.isHighLreg = true ∨ loc.isLaneEnabled = true →
      (loadSem (macroLoadOps vd am imm9) s.sfpu).get loc = s.sfpu.get loc :=
    fun loc => loadSem_ofMacro (macroLoadOps_ofMacro vd am imm9) s.sfpu
  refine ⟨t, ht, ?_⟩
  rw [hunit]
  refine ⟨rfl, loadSem_lreg (macroLoadOps_vd_ne vd am imm9) s.sfpu, fun loc => loadSem_get_other _ _,
    fun r hr => lreg_eq_of_get fun l => hkept _ (.inl (decide_eq_true hr)),
    laneEnabled_eq_of_get fun l => hkept _ (.inr rfl), rfl,
    fun l u => ⟨fun h0 => ?_, fun i => queue_of_selectorChooses ht⟩, hframe⟩
  obtain ⟨o, ho, hq⟩ := hqueue l u
  rw [hq, Host.Outcome.next.inj (ho.symm.trans (buildEntry_selector_zero h0 s.params vd mod0 l))]
  rfl

section Overrides

variable {m : BitVec 2} {vd : BitVec 3} {mod0 : BitVec 4} {am : BitVec 3} {imm9 : BitVec 9} {s t : State} {l : Lane}
  {u : SubUnit} {i : Insn}

/-- Where SFPLOADMACRO completes and a field's selector chooses an instruction, the field's queue holds that instruction
with its overrides (R63 to R68). -/
theorem exists_entry_of_selectorChooses (h : exec (.sfploadmacroBh m vd mod0 am imm9) s = .next t)
    (hi : SelectorChooses s.params s.sfpu.loadMacroConfig[l] (seqSelector (s.sfpu.loadMacroConfig[l].field m u)) i) :
    ∃ e ∈ t.queue l u,
      e.insn = overrides s.sfpu.loadMacroConfig[l] u (s.sfpu.loadMacroConfig[l].field m u) m vd mod0 i ∧
      e.counter = seqDelay (s.sfpu.loadMacroConfig[l].field m u) := by
  rw [queue_of_selectorChooses h hi]
  exact ⟨_, mem_forgetAndSchedule.2 (.inl rfl), rfl, rfl⟩

/-- Simple, MAD and Round share their overrides (R65). -/
theorem overrides_of_ne_store (hu : u ≠ .store) (c : MacroConfig) (b : BitVec 8) :
    overrides c u b m vd mod0 i = overrideCompute b vd i := by
  cases u with
  | simple | mad | round => rfl
  | store => exact absurd rfl hu

end Overrides

/-- Settles O23: the entry of `exists_entry_of_selectorChooses` with the overrides of R65. -/
theorem computeOverridesReplaceOneSource : Obligations.ComputeOverridesReplaceOneSource := by
  unfold Obligations.ComputeOverridesReplaceOneSource
  rintro m vd mod0 am imm9 s t l u i b h hu rfl hi
  obtain ⟨e, he, hinsn, hcounter⟩ := exists_entry_of_selectorChooses h hi
  rw [overrides_of_ne_store hu] at hinsn
  refine ⟨e, he, lregOf3 vd, rfl, ?_⟩
  rw [hinsn]
  exact ⟨rfl, rfl, rfl, rfl, rfl, rfl, hcounter⟩

/-- Settles O25: the entry of `exists_entry_of_selectorChooses`, by whether the sub-unit is Store (R67). -/
theorem storeMod0Override : Obligations.StoreMod0Override := by
  unfold Obligations.StoreMod0Override
  intro m vd mod0 am imm9 s t l u i h hi
  obtain ⟨e, he, hinsn, hcounter⟩ := exists_entry_of_selectorChooses h hi
  refine ⟨e, he, by rw [hinsn, overrides_op], hcounter, ?_, fun hu => ?_⟩
  · rintro rfl
    rw [hinsn]
    rfl
  · rw [hinsn, overrides_of_ne_store hu]
    rfl

/-- The delay kind of a sub-unit is its bit of `UnitDelayKind` (R16). -/
theorem delayKind_eq_instructions_iff (c : MacroConfig) (u : SubUnit) :
    c.delayKind u = .instructions ↔ c.misc.unitDelayKind.getLsbD u.number.val = true := by
  rw [MacroConfig.delayKind]
  split_ifs with h
  · exact iff_of_true rfl h
  · exact iff_of_false nofun h

/-- Settles O26: a field whose selector is not 0 builds an entry, and the queue forgets and schedules it. -/
theorem forgetThenSchedule : Obligations.ForgetThenSchedule := by
  unfold Obligations.ForgetThenSchedule
  rintro m vd mod0 am imm9 s t l u b h rfl hsel
  obtain ⟨-, -, hqueue, -⟩ := execSfploadmacroBh_spec h
  obtain ⟨o, ho, hq⟩ := hqueue l u
  rcases buildEntry_spec ho with ⟨-, h0⟩ | ⟨i, hi, -, rfl⟩
  · exact absurd h0 hsel
  · refine ⟨⟨overrides s.sfpu.loadMacroConfig[l] u _ m vd mod0 i, _, _⟩, rfl, delayKind_eq_instructions_iff _ u,
      ⟨i, selectorChooses_of_selectInsn hi, rfl⟩, fun e' => ?_⟩
    rw [hq]
    exact mem_forgetAndSchedule


/-! ### The load part of a word -/

/-- A word that decodes to a Blackhole SFPLOADMACRO has its opcode byte, and zeros in bits 12:10 (R41, R43). -/
theorem decode_bh_loadmacro {w : Word} {m : BitVec 2} {vd : BitVec 3} {mod0 : BitVec 4} {am : BitVec 3}
    {imm9 : BitVec 9}
    (h : decode .bh w = .ok (.sfploadmacroBh m vd mod0 am imm9)) :
    w.toNat / 2 ^ 24 = 0x93 ∧ w.toNat / 2 ^ 10 % 8 = 0 := by
  by_cases hm : opcodeByte w = opSfploadmacro
  · rw [decode_loadmacroBh_eq hm] at h
    split_ifs at h with hres
    exact ⟨opcodeByte_eq_iff.1 hm, (toNat_extractLsb' w 10 3).symm.trans (by rw [hres]; rfl)⟩
  · by_cases ht : opcodeByte w = opSfptransp
    · cases (decode_transp (opcodeByte_eq_iff.1 ht) _).symm.trans h
    · cases (decode_notInScope hm ht _).symm.trans h

/-- The address of the load part is bits 9:0 of the word (R42, R61). -/
theorem imm10_of_decode {w : Word} {m : BitVec 2} {vd : BitVec 3} {mod0 : BitVec 4} {am : BitVec 3} {imm9 : BitVec 9}
    (h : decode .bh w = .ok (.sfploadmacroBh m vd mod0 am imm9)) : imm10 imm9 vd = w.extractLsb' 0 10 := by
  obtain ⟨hop, hres⟩ := decode_bh_loadmacro h
  obtain ⟨_, _, _, _, _, hdecode, -, -, -, -, -, himm⟩ := loadmacroOperandsOfWord w hop hres
  cases h.symm.trans hdecode
  refine BitVec.eq_of_toNat_eq ?_
  rw [toNat_extractLsb', Nat.pow_zero, Nat.div_one]
  exact himm

/-- With the operands of an SFPLOADMACRO the load reads its list but for `LReg[8..16]` (R10, R12). -/
theorem loadReads_ofMacro {ops : LoadOps} (h : ops.ofMacro = true) :
    loadReads ops = (Config.loadReads ops).filter fun loc => !loc.isHighLreg := by
  refine List.filter_congr fun loc _ => ?_
  have hhigh : loc.isLreg16 = true → loc.isHighLreg = true := by
    cases loc with
    | lreg r l =>
      intro h16
      rw [show r = lreg16 from eq_of_beq h16]
      rfl
    | _ => nofun
  rw [LoadOps.mayRead, h]
  cases h16 : loc.isLreg16
  · simp
  · simp [hhigh h16]

/-- Settles O19: the operands are those of the load part, which acts through its footprint. -/
theorem loadPartOperandsAndDestination : Obligations.LoadPartOperandsAndDestination := by
  unfold Obligations.LoadPartOperandsAndDestination
  intro w m vd mod0 am imm9 s ops hw hvd hmod0 ham himm
  obtain rfl : ops = macroLoadOps vd am imm9 := by
    obtain ⟨ovd, omod0, oam, oimm⟩ := ops
    dsimp only at hvd hmod0 ham himm
    obtain rfl : ovd = lregOf3 vd := Fin.ext hvd
    rw [hmod0, ham, himm, macroLoadOps, imm10_of_decode hw]
    rfl
  have hmacro := macroLoadOps_ofMacro vd am imm9
  constructor
  · intro t ht
    obtain ⟨-, -, -, hframe⟩ := execSfploadmacroBh_spec ht
    have hunit : t.sfpu = loadSem (macroLoadOps vd am imm9) s.sfpu := by rw [hframe]
    refine ⟨hunit, _, rfl, fun r l hr => ?_, fun loc hdest hloc => ?_⟩
    · obtain rfl : r = (macroLoadOps vd am imm9).vd := Fin.ext hr
      rw [← loadReads_ofMacro hmacro, hunit]
      exact loadSem_lreg (macroLoadOps_vd_ne vd am imm9) s.sfpu l
    · rw [hunit]
      rcases hloc with hnot | hkept
      · refine loadSem_get_other _ _ fun hw => ?_
        rcases (mem_loadWrites.1 hw).1 with ⟨l, hl⟩ | hl
        · exact hdest l hl.symm
        · exact hnot hl
      · exact loadSem_ofMacro hmacro s.sfpu hkept
  · intro hraises hz
    exact (if_neg (by rw [hz]; exact Bool.false_ne_true)).trans (if_pos hraises)

/-! ### The Dst hazard -/

/-- A loop faults only as one of its passes does. -/
theorem foldOut_eq_fault {α β : Type} {f : α → β → Out β} {as : List α} {r : Fault} {b : β}
    (h : foldOut f as b = .fault r) : ∃ a ∈ as, ∃ b', f a b' = .fault r := by
  induction as generalizing b with
  | nil => cases h
  | cons a as ih =>
    rcases andThen_eq_fault.1 h with hfirst | ⟨b', -, hrest⟩
    · exact ⟨a, List.mem_cons_self, b, hfirst⟩
    · obtain ⟨a', ha', hb'⟩ := ih hrest
      exact ⟨a', List.mem_cons_of_mem _ ha', hb'⟩

/-- The choice of an instruction knows no Dst hazard. -/
theorem selectInsn_ne_dstHazard (p : Params) (c : MacroConfig) (l : Lane) (u : SubUnit) (sel : BitVec 3) :
    selectInsn p c l u sel ≠ .fault .dstHazard := by
  unfold selectInsn
  split
  · nofun
  · nofun
  · nofun
  · split_ifs <;> nofun
  · split_ifs
    · split <;> nofun
    · nofun

theorem scheduleAll_ne_dstHazard (m : BitVec 2) (vd : BitVec 3) (mod0 : BitVec 4) (s : State) :
    scheduleAll m vd mod0 s ≠ .fault .dstHazard := by
  intro h
  obtain ⟨⟨l, u⟩, -, s', hone⟩ := foldOut_eq_fault h
  rcases andThen_eq_fault.1 hone with hbuild | ⟨e, -, hqueue⟩
  · rcases andThen_eq_fault.1 hbuild with hsel | ⟨o, -, ho⟩
    · exact selectInsn_ne_dstHazard _ _ _ _ _ hsel
    · cases ho
  · cases e <;> cases hqueue

/-- A Blackhole SFPLOADMACRO answers the fault DstHazard exactly under the hazard of R126. -/
theorem exec_eq_dstHazard_iff {m : BitVec 2} {vd : BitVec 3} {mod0 : BitVec 4} {am : BitVec 3} {imm9 : BitVec 9}
    {s : State} : exec (.sfploadmacroBh m vd mod0 am imm9) s = .fault .dstHazard ↔
      dstHazard s am (imm10 imm9 vd) = true := by
  change execSfploadmacroBh m vd mod0 am imm9 s = _ ↔ _
  constructor
  · intro h
    by_contra hz
    rw [execSfploadmacroBh, if_neg hz] at h
    split_ifs at h
    · cases h
    · exact scheduleAll_ne_dstHazard _ _ _ _ h
  · intro hz
    rw [execSfploadmacroBh, if_pos hz]


theorem dueActions_ne_fault (p : Params) (d : Due) (r : Fault) : dueActions p d ≠ .fault r := by
  intro h
  obtain ⟨u, -, acts, hrow⟩ := foldOut_eq_fault h
  rcases rowActions_cases p d u with ⟨more, hmore⟩ | hrefused
  · rw [hmore] at hrow
    cases hrow
  · rw [hrefused] at hrow
    cases hrow

theorem Action.perform_ne_fault (a : Action) (x : Sfpu) (r : Fault) : a.perform x ≠ .fault r := by
  intro h
  rcases a.perform_cases x with ⟨y, hy⟩ | hrefused
  · cases hy.symm.trans h
  · cases hrefused.symm.trans h

theorem performAll_ne_fault (acts : List Action) (x : Sfpu) (r : Fault) : performAll acts x ≠ .fault r := by
  intro h
  obtain ⟨a, -, y, ha⟩ := foldOut_eq_fault h
  exact a.perform_ne_fault y r ha

theorem performOld_ne_fault (pre : Sfpu) (acts : List Action) (x : Sfpu) (r : Fault) :
    performOld pre acts x ≠ .fault r := by
  intro h
  obtain ⟨a, -, y, ha⟩ := foldOut_eq_fault h
  rcases andThen_eq_fault.1 ha with hperform | ⟨post, -, hpost⟩
  · exact a.perform_ne_fault pre r hperform
  · cases hpost

theorem coexecute_ne_fault (p : CyclePolicy) (pre : Sfpu) (reg : Option Action) (due : List Action) (x : Sfpu)
    (r : Fault) : coexecute p pre reg due x ≠ .fault r := by
  cases p with
  | refuse =>
    simp only [coexecute]
    split_ifs
    · exact performAll_ne_fault due x r
    · nofun
  | old =>
    simp only [coexecute]
    split_ifs
    · exact performOld_ne_fault pre due x r
    · nofun
  | unitOrder => exact performAll_ne_fault due x r

/-- The one fault of step 4 is the read of a result in flight (R91). -/
theorem scheduledPart_eq_fault {c : CycleInput} {pre : Sfpu} {d : Due} {s : State} {reg : Option Action} {r : Fault}
    (h : scheduledPart c pre d s reg = .fault r) : r = .scheduledReadNotReady := by
  rcases andThen_eq_fault.1 h with hdue | ⟨acts, -, hrest⟩
  · exact absurd hdue (dueActions_ne_fault _ _ _)
  · split_ifs at hrest
    · exact (Host.Outcome.fault.inj hrest).symm
    · rcases andThen_eq_fault.1 hrest with hco | ⟨x, -, hx⟩
      · exact absurd hco (coexecute_ne_fault _ _ _ _ _ _)
      · cases hx

section IssuedLoadmacro

variable {s : State} {th : Fin Config.nThreads} {w : Word} {i : Instr} (hs : Unmarked s)
  (hc : collision s.atCycleStart = none) (hissue : comingIssue s = some (th, w))

include hs hc hissue

/-- A cycle without a collision that issues an SFPLOADMACRO is its execution and step 4 (R71, R81, R88). -/
theorem step_of_loadmacro (hw : decode s.params.arch w = .ok i) (hop : instrOp i = .sfploadmacro) :
    step s = andThen (exec i (comingState s)) fun t =>
      scheduledPart s.nextInput s.atCycleStart.sfpu (dueTable s.atCycleStart) t (instrAction i) := by
  have hfate : fate (comingState s).params (dueTable s.atCycleStart) (instrOp i) false = .execute fullMask := by
    rw [hop]; rfl
  rw [step_of_no_collision hs hc, comingRegular_decoded hissue hw, issueInstr_execute hfate, andThen_assoc]
  rfl

/-- Such a cycle answers the fault DstHazard exactly where its SFPLOADMACRO does. -/
theorem step_eq_dstHazard_iff (hw : decode s.params.arch w = .ok i) (hop : instrOp i = .sfploadmacro) :
    step s = .fault .dstHazard ↔ exec i (comingState s) = .fault .dstHazard := by
  rw [step_of_loadmacro hs hc hissue hw hop, andThen_eq_fault]
  exact or_iff_left fun ⟨t, _, h⟩ => nomatch scheduledPart_eq_fault h

end IssuedLoadmacro

/-- An issued word that `issuesLoadmacro` speaks of. -/
theorem exists_of_issuesLoadmacro {s : State} (h : issuesLoadmacro s = true) :
    ∃ th w i, comingIssue s = some (th, w) ∧ decode s.params.arch w = .ok i ∧ instrOp i = .sfploadmacro := by
  unfold issuesLoadmacro at h
  split at h
  · cases h
  · rename_i th w hissue
    split at h
    · rename_i i hw
      exact ⟨th, w, i, hissue, hw, eq_of_beq h⟩
    · cases h

/-- The hazard in the state on which the coming cycle's instruction acts: a region written in the cycle counts, its
distance being 0 (R126; log entry 12). -/
theorem dstHazard_comingState_iff {s : State} {th : Fin Config.nThreads} {w : Word}
    (hissue : comingIssue s = some (th, w)) (am : BitVec 3) (i : BitVec 10) :
    dstHazard (comingState s) am i = true ↔
      (∃ wr ∈ s.nextInput.fpuWrites, Config.loadReadsRegion am i s.sfpu.addrCounters wr.region = true) ∨
        ∃ d ∈ s.fpuDistance, d.2[th] < 3 ∧ Config.loadReadsRegion am i s.sfpu.addrCounters d.1 = true := by
  have hissuer : (comingState s).issuer = th := by rw [comingState_issuer, hissue]; rfl
  have hmem : ∀ d, d ∈ (comingState s).fpuDistance ↔
      (d.2 = (tab Config.nThreads fun _ => 0) ∧ ∃ wr ∈ s.nextInput.fpuWrites, wr.region = d.1) ∨
        (d ∈ s.fpuDistance ∧ ∀ wr ∈ s.nextInput.fpuWrites, wr.region ≠ d.1) := by
    intro d
    rw [comingState, beforeRegular_fpuDistance]
    exact mem_noteFpuWrites _ _ d
  have hctr : (comingState s).sfpu.addrCounters = s.sfpu.addrCounters := by rw [comingState_sfpu]; rfl
  simp only [dstHazard_iff, hissuer, hctr]
  constructor
  · rintro ⟨d, hd, hlt, hreads⟩
    rcases (hmem d).1 hd with ⟨-, wr, hwr, hregion⟩ | ⟨hd, -⟩
    · exact .inl ⟨wr, hwr, hregion ▸ hreads⟩
    · exact .inr ⟨d, hd, hlt, hreads⟩
  · have hwritten : ∀ wr ∈ s.nextInput.fpuWrites,
        Config.loadReadsRegion am i s.sfpu.addrCounters wr.region = true → ∃ d ∈ (comingState s).fpuDistance,
          d.2[th] < 3 ∧ Config.loadReadsRegion am i s.sfpu.addrCounters d.1 = true := by
      intro wr hwr hreads
      refine ⟨(wr.region, tab Config.nThreads fun _ => 0), (hmem _).2 (.inl ⟨rfl, wr, hwr, rfl⟩), ?_, hreads⟩
      simp
    rintro (⟨wr, hwr, hreads⟩ | ⟨d, hd, hlt, hreads⟩)
    · exact hwritten wr hwr hreads
    · by_cases hw : ∃ wr ∈ s.nextInput.fpuWrites, wr.region = d.1
      · obtain ⟨wr, hwr, hregion⟩ := hw
        exact hwritten wr hwr (hregion ▸ hreads)
      · exact ⟨d, (hmem d).2 (.inr ⟨hd, fun wr hwr hr => hw ⟨wr, hwr, hr⟩⟩), hlt, hreads⟩

/-- Where no recorded region is near, no cycle answers the fault DstHazard. -/
theorem step_ne_dstHazard {s : State} (hs : Unmarked s) (hissues : issuesLoadmacro s = true)
    (hquiet : ∀ d ∈ (comingState s).fpuDistance, 3 ≤ d.2[(comingState s).issuer]) : step s ≠ .fault .dstHazard := by
  intro h
  obtain ⟨th, w, i, hissue, hw, hop⟩ := exists_of_issuesLoadmacro hissues
  cases hc : collision s.atCycleStart with
  | some lu =>
    rw [step_of_collision hs hc] at h
    cases h
  | none =>
    rw [step_eq_dstHazard_iff hs hc hissue hw hop] at h
    cases i with
    | sfploadmacroBh m vd mod0 am imm9 =>
      rw [exec_eq_dstHazard_iff, dstHazard_eq_false hquiet] at h
      cases h
    | sfploadmacroWh => cases h
    | sfptransp => cases hop

/-- Settles O28: the instruction, the cycle that issues it, and the first one of a run from a quiet state. -/
theorem dstHazardFaults : Obligations.DstHazardFaults := by
  unfold Obligations.DstHazardFaults
  refine ⟨fun m vd mod0 am imm9 s => exec_eq_dstHazard_iff.trans dstHazard_iff, ?_, ?_⟩
  · intro m vd mod0 am imm9 s th w hs htwo hissue hw
    have hc : collision s.atCycleStart = none := collision_none_of_le htwo
    rw [step_eq_dstHazard_iff hs hc hissue hw rfl, exec_eq_dstHazard_iff, dstHazard_comingState_iff hissue]
  · intro s t n hquiet hrun ht hfirst hissues
    exact step_ne_dstHazard ht hissues (hquiet n t hrun hfirst hissues)

end Sys2Proof.Machine
end

section
/-! SUPPORT. The guard of SFPTRANSP (R102), and the priority rule for the regular instructions the spec does not define
(R88). -/

namespace Sys2Proof.Machine

/-! ### The guard of SFPTRANSP -/

/-- Settles O14: an SFPTRANSP's arm does not use its other three fields. -/
theorem transpIgnoresOtherFields : Obligations.TranspIgnoresOtherFields := by
  unfold Obligations.TranspIgnoresOtherFields
  intro a a' c c' vd m m' s
  rfl

/-- With VD of 12 or more and the backdoor not disabled, SFPTRANSP is refused (R102, D17). -/
theorem transpose_refused {vd : LRegNum} {x : Sfpu} (hvd : 12 ≤ vd.val) (hx : x.disableBackdoorLoad = false) :
    transpose vd x = .refused .backdoorLoadOpen := by
  have hguard : ¬ transpGuard vd x = true := by
    rw [transpGuard_iff, hx]
    exact not_or.2 ⟨Nat.not_lt.2 hvd, Bool.false_ne_true⟩
  rw [transpose, if_neg hguard]

/-- Settles O13, by the guard. -/
theorem transpGuardDecides : Obligations.TranspGuardDecides := by
  unfold Obligations.TranspGuardDecides
  refine ⟨fun imm12 lregC vd mod1 s => ⟨fun hguard => exec_sfptransp hguard imm12 lregC mod1, fun hvd hx => ?_⟩,
    fun vd x => ⟨fun hguard => transpose_eq_next.2 ⟨transpGuard_iff.2 hguard, rfl⟩, transpose_refused⟩⟩
  exact congrArg (fun o => andThen o fun x => .next (s.withSfpu x)) (transpose_refused (vd := lregOf4 vd) hvd hx)

/-! ### The priority rule -/

section Priority

variable {d : Due} {l : Lane} {u : SubUnit}

@[simp] theorem getLsbD_dueMask (d : Due) (u : SubUnit) (l : Lane) :
    (dueMask d u).getLsbD l.val = (d.at l u).isSome := getLsbD_maskWhere _ l

theorem dueMask_ne_zero (h : (d.at l u).isSome = true) : dueMask d u ≠ 0#32 := by
  intro hz
  rw [dueMask_eq_zero.1 hz l] at h
  cases h

theorem dueMask_ne_full (h : d.at l u = none) : dueMask d u ≠ fullMask := by
  intro hfull
  have hsome := dueMask_eq_full.1 hfull l
  rw [h] at hsome
  cases hsome

theorem anyDue_of_isSome (h : (d.at l u).isSome = true) : anyDue d = true :=
  List.any_eq_true.2 ⟨(l, u), mem_lanesAndUnits l u, h⟩

/-- An instruction of one row is neither SFPLOAD nor SFPLOADMACRO (R52). -/
theorem not_load_of_one_row {op : Mnemonic} (hu : subUnitOf op = [u]) : op ≠ .sfpload ∧ op ≠ .sfploadmacro := by
  constructor <;> rintro rfl <;> cases hu

/-- An instruction of one row that is due nowhere, or does not cross lanes and is not due everywhere, executes on the
lanes with none due (R88). -/
theorem fate_execute_rest {op : Mnemonic} (hu : subUnitOf op = [u]) {p : Params} (hnone : ∃ l, d.at l u = none)
    (hlanes : isCrossLane p op = false ∨ ∀ l, d.at l u = none) :
    ∃ lanes : LaneMask, (∀ b, fate p d op b = .execute lanes) ∧
      ∀ l : Lane, lanes.getLsbD l.val = (d.at l u).isNone := by
  by_cases hall : ∀ l, d.at l u = none
  · exact ⟨fullMask, fate_due_nowhere (not_load_of_one_row hu) hu hall p,
      fun l => by rw [getLsbD_fullMask, hall l]; rfl⟩
  · obtain ⟨l', hl'⟩ := hnone
    have hzero : dueMask d u ≠ 0#32 := fun hz => hall (dueMask_eq_zero.1 hz)
    refine ⟨~~~dueMask d u, fun b => ?_, fun l => ?_⟩
    · rw [fate_one_row (not_load_of_one_row hu) hu, if_neg hzero, if_neg (dueMask_ne_full hl'),
        hlanes.resolve_right hall, if_neg Bool.false_ne_true]
    · rw [BitVec.getLsbD_not, decide_eq_true l.isLt, Bool.true_and, getLsbD_dueMask, Option.not_isSome]

/-- SFPNOP with nothing due on Simple, MAD or Round (R88). -/
theorem fate_sfpnop_clear (h : ∀ l u, u ≠ .store → d.at l u = none) (p : Params) (b : Bool) :
    fate p d .sfpnop b = .execute fullMask := by
  have hzero : ∀ u, u ≠ .store → dueMask d u = 0#32 := fun u hu => dueMask_eq_zero.2 fun l => h l u hu
  have hany : (subUnitOf .sfpnop).any (fun u => decide (dueMask d u ≠ 0#32)) = false := by
    simp [subUnitOf, hzero]
  cases b with
  | true => rfl
  | false =>
    refine if_neg (c := (subUnitOf .sfpnop).any (fun u => decide (dueMask d u ≠ 0#32)) = true) ?_
    rw [hany]
    exact Bool.false_ne_true

/-- SFPNOP with an entry due on Simple, MAD or Round: executed if it writes nothing (R88; log entry 16). -/
theorem fate_sfpnop_due (h : (d.at l u).isSome = true) (hu : u ≠ .store) (p : Params) (b : Bool) :
    fate p d .sfpnop b = if b then .execute fullMask else .refused .unknownSubUnit := by
  have hrow : u ∈ subUnitOf .sfpnop := by
    revert hu; cases u <;> decide
  have hany : (subUnitOf .sfpnop).any (fun u => decide (dueMask d u ≠ 0#32)) = true :=
    List.any_eq_true.2 ⟨u, hrow, decide_eq_true (dueMask_ne_zero h)⟩
  cases b with
  | true => rfl
  | false => exact if_pos hany

/-- An instruction in no row while an entry is due (R88). -/
theorem fate_no_row {op : Mnemonic} (hrow : subUnitOf op = []) (hop : op ≠ .sfpload ∧ op ≠ .sfploadmacro)
    (h : (d.at l u).isSome = true) (p : Params) (b : Bool) : fate p d op b = .refused .unknownSubUnit := by
  rw [fate, if_neg (not_or.2 hop), hrow, anyDue_of_isSome h]
  rfl

end Priority

/-! ### A regular instruction the spec does not define -/

section Other

variable {d : Due} {s : State} {i : Insn}

theorem issueOther_execute {lanes : LaneMask} (h : ∀ b, fate s.params d i.op b = .execute lanes) :
    issueOther d i s = executeOther i lanes s := by
  rw [issueOther, h]

theorem issueOther_discarded (h : ∀ b, fate s.params d i.op b = .discarded) : issueOther d i s = .next (s, none) := by
  rw [issueOther, h]

theorem issueOther_refused {r : Refusal} (h : ∀ b, fate s.params d i.op b = .refused r) :
    issueOther d i s = .refused r := by
  rw [issueOther, h]

end Other

/-- Settles O36, by the lanes in which an entry is due on the instruction's sub-unit. -/
theorem singleRowInstructionLosesDueLanes : Obligations.SingleRowInstructionLosesDueLanes := by
  unfold Obligations.SingleRowInstructionLosesDueLanes
  rintro d s i u cr hu rfl
  have hop := not_load_of_one_row hu
  refine ⟨fun hall => issueOther_discarded (fate_due_everywhere hop hu hall s.params), fun hnone hlanes => ?_,
    fun hsome hnone hcross => issueOther_refused (fate_crossLane_due_somewhere hop hu hcross hsome hnone)⟩
  obtain ⟨lanes, hfate, hbits⟩ := fate_execute_rest hu hnone hlanes
  have hrun := executeOther_run (s := s) hop.1 lanes
  refine ⟨lanes, _, hbits, rfl, (issueOther_execute hfate).trans hrun, fun l loc hdue hloc => ?_⟩
  have hcross : isCrossLane s.params i.op = false :=
    hlanes.resolve_right fun hall => by rw [hall l] at hdue; cases hdue
  have hidle : lanes.getLsbD l.val ≠ true := by
    rw [hbits l, ← Option.not_isSome, hdue]
    exact Bool.false_ne_true
  rw [hcross]
  exact Action.perform_other (a := .run i lanes false false) rfl fun hw => hidle (Action.run_writes_lane hw hloc)

/-- Settles O37, by the mnemonic. -/
theorem unplacedInstructionsWhileDue : Obligations.UnplacedInstructionsWhileDue := by
  unfold Obligations.UnplacedInstructionsWhileDue
  rintro d s i l u a ran hdue rfl rfl
  refine ⟨fun hop => ?_, fun hrow hload hmacro => ?_, fun hop hclear => ?_, fun hop hu => ?_⟩
  · have hissue : issueOther d i s = executeOther i fullMask s := issueOther_execute fun b => by rw [hop]; rfl
    rw [hissue, executeOther_sfpload hop]
    exact ⟨fun hl => by rw [hl]; rfl, fun hl => by rw [hl]; rfl⟩
  · exact issueOther_refused (fate_no_row hrow ⟨hload, hmacro⟩ hdue s.params)
  · rw [issueOther_execute fun b => by rw [hop, fate_sfpnop_clear hclear], executeOther_run (by rw [hop]; decide)]
  · have hload : i.op ≠ .sfpload := by rw [hop]; decide
    have haction : regularAction s.params i fullMask = .run i fullMask false (isCrossLane s.params i.op) := if_neg hload
    rw [issueOther, haction, hop, fate_sfpnop_due hdue hu, ← hop, ← executeOther_run hload fullMask]
    by_cases hw : (Action.run i fullMask false (isCrossLane s.params i.op)).writes = []
    · rw [if_pos hw, hw]
      rfl
    · rw [if_neg hw, if_neg (by rwa [List.isEmpty_iff])]

end Sys2Proof.Machine
end

section
/-! SUPPORT. Co-execution (R90): actions without a conflict commute and make no difference to the policies, and what the
policies `old` and `unitOrder` make of actions that conflict. -/

namespace Sys2Proof.Machine

/-! ### Two actions -/

section TwoActions

variable {a b : Action} {x y : Sfpu}

theorem Action.conflicts_symm (h : a.conflicts b = false) : b.conflicts a = false := by
  obtain ⟨hab, hba⟩ := Action.conflicts_eq_false.1 h
  exact Action.conflicts_eq_false.2
    ⟨fun loc hloc => ⟨hba loc hloc, fun hw => (hab loc hw).2 hloc⟩, fun loc hloc => (hab loc hloc).1⟩

theorem Action.writesMeet_eq_false : a.writesMeet b = false ↔ ∀ loc ∈ a.writes, loc ∉ b.writes := by
  simp [Action.writesMeet]

theorem Action.writesMeet_of_not_conflicts (h : a.conflicts b = false) : a.writesMeet b = false :=
  Action.writesMeet_eq_false.2 fun loc hloc => ((Action.conflicts_eq_false.1 h).1 loc hloc).2

/-- What an action leaves of the footprint of one it does not conflict with. -/
theorem Action.perform_keeps_footprint (h : a.conflicts b = false) (ha : a.perform x = .next y) {loc : Loc}
    (hloc : loc ∈ b.reads ∨ loc ∈ b.writes) : y.get loc = x.get loc := by
  obtain ⟨hab, -⟩ := Action.conflicts_eq_false.1 h
  exact Action.perform_other ha fun hw => hloc.elim (hab loc hw).1 (hab loc hw).2

/-- An action acts on two units that agree on its footprint alike, or is refused on both. -/
theorem Action.perform_agree_footprint (hx : x.wf) (hy : y.wf)
    (hagree : ∀ loc, loc ∈ a.reads ∨ loc ∈ a.writes → x.get loc = y.get loc) :
    (∃ x' y', a.perform x = .next x' ∧ a.perform y = .next y' ∧ ∀ loc ∈ a.writes, x'.get loc = y'.get loc) ∨
      (a.perform x = .refused .backdoorLoadOpen ∧ a.perform y = .refused .backdoorLoadOpen) := by
  have hreads : ∀ loc ∈ a.reads, x.get loc = y.get loc := fun loc hloc => hagree loc (.inl hloc)
  rcases a.perform_cases x with ⟨x', hx'⟩ | hrefused
  · obtain ⟨y', hy', hmem⟩ := Action.perform_local hx hy hreads hx'
    exact .inl ⟨x', y', hx', hy', fun loc hloc => hmem loc hloc (hagree loc (.inr hloc))⟩
  · exact .inr ⟨hrefused, Action.perform_refused_local hx hy hreads hrefused⟩

/-- Where both of two actions without a conflict complete, either order gives the same unit. -/
theorem Action.perform_comm (hx : x.wf) (h : a.conflicts b = false) {z : Sfpu} (ha : a.perform x = .next y)
    (hb : b.perform x = .next z) : ∃ w, b.perform y = .next w ∧ a.perform z = .next w := by
  have hy := Action.perform_wf hx ha
  have hz := Action.perform_wf hx hb
  have hxy : ∀ loc, loc ∈ b.reads ∨ loc ∈ b.writes → x.get loc = y.get loc :=
    fun loc hloc => (Action.perform_keeps_footprint h ha hloc).symm
  have hxz : ∀ loc, loc ∈ a.reads ∨ loc ∈ a.writes → x.get loc = z.get loc :=
    fun loc hloc => (Action.perform_keeps_footprint (Action.conflicts_symm h) hb hloc).symm
  obtain ⟨w, hw, hwb⟩ := Action.perform_local hx hy (fun loc hloc => hxy loc (.inl hloc)) hb
  obtain ⟨v, hv, hva⟩ := Action.perform_local hx hz (fun loc hloc => hxz loc (.inl hloc)) ha
  refine ⟨w, hw, ?_⟩
  suffices hwv : w = v by rw [hwv, hv]
  refine Sfpu.ext_get (Action.perform_wf hy hw) (Action.perform_wf hz hv) fun loc => ?_
  by_cases hla : loc ∈ a.writes
  · have hlb := ((Action.conflicts_eq_false.1 h).1 loc hla).2
    rw [Action.perform_other hw hlb, hva loc hla (hxz loc (.inr hla))]
  · rw [Action.perform_other hv hla]
    by_cases hlb : loc ∈ b.writes
    · rw [hwb loc hlb (hxy loc (.inr hlb))]
    · rw [Action.perform_other hw hlb, Action.perform_other ha hla, Action.perform_other hb hlb]

/-- An action that stops still does after another one that it does not conflict with. -/
theorem Action.perform_refused_after (hx : x.wf) (h : a.conflicts b = false) (ha : a.perform x = .next y)
    (hb : b.perform x = .refused .backdoorLoadOpen) : b.perform y = .refused .backdoorLoadOpen :=
  Action.perform_refused_local hx (Action.perform_wf hx ha)
    (fun _ hloc => (Action.perform_keeps_footprint h ha (.inl hloc)).symm) hb

end TwoActions

/-- Settles O45, by which of the two completes. -/
theorem disjointFootprintsCommute : Obligations.DisjointFootprintsCommute := by
  unfold Obligations.DisjointFootprintsCommute
  intro a b x hx h
  rcases a.perform_cases x with ⟨y, ha⟩ | ha <;> rcases b.perform_cases x with ⟨z, hb⟩ | hb <;> rw [ha, hb]
  · obtain ⟨w, hw, hv⟩ := Action.perform_comm hx h ha hb
    rw [andThen_next, andThen_next, hw, hv]
  · exact Action.perform_refused_after hx h ha hb
  · exact (Action.perform_refused_after hx (Action.conflicts_symm h) hb ha).symm
  · rfl

/-- Settles O47: the policy looks for a conflict before anything executes. -/
theorem conflictRefusedByDefault : Obligations.ConflictRefusedByDefault := by
  unfold Obligations.ConflictRefusedByDefault
  intro pre x regular due h
  exact if_neg h

/-! ### Policy `old` -/

section Old

variable {pre x : Sfpu} {due : List Action}

theorem performOld_cons (pre : Sfpu) (a : Action) (due : List Action) (x : Sfpu) :
    performOld pre (a :: due) x =
      andThen (a.perform pre) fun post => performOld pre due (x.overlay a.writes post) :=
  andThen_assoc _ _ _

/-- Actions without a conflict, on a unit that agrees with `pre` on their footprints, do under `old` what they do one
after the other. -/
theorem performOld_eq_performAll (hpre : pre.wf) (hx : x.wf) (hdue : due.Pairwise fun a b => a.conflicts b = false)
    (hagree : ∀ a ∈ due, ∀ loc, loc ∈ a.reads ∨ loc ∈ a.writes → pre.get loc = x.get loc) :
    performOld pre due x = performAll due x := by
  induction due generalizing x with
  | nil => rfl
  | cons a due ih =>
    obtain ⟨ha, hrest⟩ := List.pairwise_cons.1 hdue
    obtain ⟨hagreeA, hagreeRest⟩ := List.forall_mem_cons.1 hagree
    rw [performOld_cons, performAll, foldOut_cons]
    rcases Action.perform_agree_footprint hpre hx hagreeA with ⟨post, y, hpost, hy, hmem⟩ | ⟨hrefused, hrefused'⟩
    · have hoverlay : x.overlay a.writes post = y := by
        refine Sfpu.ext_get (Sfpu.overlay_wf hx _ _) (Action.perform_wf hx hy) fun loc => ?_
        by_cases hloc : loc ∈ a.writes
        · rw [Sfpu.get_overlay_mem hx _ _ hloc, hmem loc hloc]
        · rw [Sfpu.get_overlay_other _ _ _ hloc, Action.perform_other hy hloc]
      rw [hpost, hy, andThen_next, andThen_next, hoverlay]
      refine ih (Action.perform_wf hx hy) hrest fun b hb loc hloc => ?_
      rw [Action.perform_keeps_footprint (ha b hb) hy hloc, hagreeRest b hb loc hloc]
    · rw [hrefused, hrefused']
      rfl

/-- Under `old` each action completes on `pre`, and what it writes is what it makes of `pre` (D11). -/
theorem performOld_spec {y : Sfpu} (hx : x.wf) (hdue : due.Pairwise fun a b => a.writesMeet b = false)
    (h : performOld pre due x = .next y) :
    (∀ a ∈ due, ∃ post, a.perform pre = .next post ∧ ∀ loc ∈ a.writes, y.get loc = post.get loc) ∧
      ∀ loc, (∀ a ∈ due, loc ∉ a.writes) → y.get loc = x.get loc := by
  induction due generalizing x with
  | nil =>
    cases h
    exact ⟨List.forall_mem_nil _, fun _ _ => rfl⟩
  | cons a due ih =>
    obtain ⟨ha, hrest⟩ := List.pairwise_cons.1 hdue
    rw [performOld_cons] at h
    obtain ⟨post, hpost, h⟩ := andThen_eq_next.1 h
    obtain ⟨hmem, hother⟩ := ih (Sfpu.overlay_wf hx _ _) hrest h
    refine ⟨List.forall_mem_cons.2 ⟨⟨post, hpost, fun loc hloc => ?_⟩, hmem⟩, fun loc hloc => ?_⟩
    · rw [hother loc fun b hb => Action.writesMeet_eq_false.1 (ha b hb) loc hloc, Sfpu.get_overlay_mem hx _ _ hloc]
    · obtain ⟨hlocA, hlocRest⟩ := List.forall_mem_cons.1 hloc
      rw [hother loc hlocRest, Sfpu.get_overlay_other _ _ _ hlocA]

theorem performOld_completes (h : ∀ a ∈ due, ∃ post, a.perform pre = .next post) :
    ∃ y, performOld pre due x = .next y := by
  obtain ⟨y, hy, -⟩ := foldOut_completes (P := fun _ => True)
    (f := fun a x => andThen (a.perform pre) fun post => .next (x.overlay a.writes post)) (as := due)
    (fun a ha x _ => by
      obtain ⟨post, hpost⟩ := h a ha
      exact ⟨_, by rw [hpost]; rfl, trivial⟩) (b := x) trivial
  exact ⟨y, hy⟩

end Old

/-! ### A cycle's regular action and its due ones -/

section Regular

variable {pre x : Sfpu} {regular : Option Action} {due : List Action} (hpre : pre.wf)
  (hreg : (regular = none ∧ x = pre) ∨ ∃ a, regular = some a ∧ a.perform pre = .next x)

include hpre hreg

theorem wf_after_regular : x.wf := by
  rcases hreg with ⟨-, rfl⟩ | ⟨a, -, ha⟩
  · exact hpre
  · exact Action.perform_wf hpre ha

/-- The regular action keeps the footprints of due ones it does not conflict with. -/
theorem regular_keeps_footprints (h : (regular.toList ++ due).Pairwise fun a b => a.conflicts b = false) :
    ∀ a ∈ due, ∀ loc, loc ∈ a.reads ∨ loc ∈ a.writes → pre.get loc = x.get loc := by
  intro b hb loc hloc
  rcases hreg with ⟨-, rfl⟩ | ⟨a, rfl, ha⟩
  · rfl
  · have hab : a.conflicts b = false := (List.pairwise_cons.1 h).1 b hb
    exact (Action.perform_keeps_footprint hab ha hloc).symm

end Regular

/-- Settles O46: under `refuse` and `unitOrder` this is the definition, under `old` each action meets its footprint as
it was. -/
theorem policiesAgreeWithoutConflict : Obligations.PoliciesAgreeWithoutConflict := by
  unfold Obligations.PoliciesAgreeWithoutConflict
  intro policy pre x regular due hpre hreg h
  cases policy with
  | refuse => exact if_pos h
  | old =>
    have hmeet := h.imp fun {a b} hab => Action.writesMeet_of_not_conflicts hab
    exact (if_pos hmeet).trans (performOld_eq_performAll hpre (wf_after_regular hpre hreg)
      (List.pairwise_append.1 h).2.1 (regular_keeps_footprints hpre hreg h))
  | unitOrder => rfl

/-- Settles O48, by whether two actions write one location. -/
theorem oldPolicyUnderConflict : Obligations.OldPolicyUnderConflict := by
  unfold Obligations.OldPolicyUnderConflict
  intro pre x regular due hpre hreg
  refine ⟨fun h => if_neg h, fun h => ?_⟩
  have hold : coexecute .old pre regular due x = performOld pre due x := if_pos h
  obtain ⟨-, hdue, -⟩ := List.pairwise_append.1 h
  rw [hold]
  exact ⟨performOld_completes, fun y hy => performOld_spec (wf_after_regular hpre hreg) hdue hy⟩

end Sys2Proof.Machine
end

section
/-! SUPPORT. Step 4 of a whole cycle: due entries that do not cross lanes, one run each (R70, R85), rows one after the
other (D11), results in flight (R91), and who writes `LReg[16]` (R12). -/

namespace Sys2Proof.Machine

/-! ### Step 4 -/

/-- Step 4 where the due actions are given, none of them reads a result in flight, and they execute: the unit changes,
and of the rest results in flight and FPU distances. -/
theorem scheduledPart_eq {pre x : Sfpu} {d : Due} {s : State} {reg : Option Action} {acts : List Action}
    (hdue : dueActions s.params d = .next acts) (hready : readsNotReady s.inFlight acts = false)
    (hco : coexecute s.params.sameCyclePolicy pre reg acts s.sfpu = .next x) (c : CycleInput) :
    scheduledPart c pre d s reg = .next { s with
      sfpu := x
      inFlight := ageInFlight s.inFlight (reg.toList ++ acts)
      fpuDistance := ageDistances c s.issuer reg s.fpuDistance } := by
  rw [scheduledPart, hdue, andThen_next, hready, if_neg Bool.false_ne_true, hco, andThen_next]

theorem performAll_append (acts acts' : List Action) (x : Sfpu) :
    performAll (acts ++ acts') x = andThen (performAll acts x) (performAll acts') := foldOut_append _ _ _ _

section Step

variable {s s3 : State} {reg : Option Action} {acts : List Action}

theorem comingRegular_inFlight (h3 : comingRegular s = .next (s3, reg)) : s3.inFlight = s.inFlight := by
  rw [regularPart_frame h3]
  exact comingState_inFlight s

theorem comingRegular_dueActions (h3 : comingRegular s = .next (s3, reg)) (hdue : comingDue s = .next acts) :
    dueActions s3.params (dueTable s.atCycleStart) = .next acts := by
  rw [comingRegular_params h3]
  exact hdue

/-- A cycle whose regular part completes, in which nothing is in flight and the due actions execute. -/
theorem step_of_coexecute {x : Sfpu} (hs : Unmarked s) (hc : collision s.atCycleStart = none)
    (h3 : comingRegular s = .next (s3, reg)) (hfl : s.inFlight = []) (hdue : comingDue s = .next acts)
    (hco : coexecute s.params.sameCyclePolicy s.atCycleStart.sfpu reg acts s3.sfpu = .next x) :
    ∃ t, step s = .next t ∧ t.sfpu = x ∧ ∀ l u, t.queue l u = s3.queue l u := by
  have hready : readsNotReady s3.inFlight acts = false := by
    simp [comingRegular_inFlight h3, hfl, readsNotReady]
  rw [← comingRegular_params h3] at hco
  exact ⟨_, (step_of_comingRegular hs hc h3).trans
    (scheduledPart_eq (comingRegular_dueActions h3 hdue) hready hco s.nextInput), rfl, fun _ _ => rfl⟩

end Step

/-- Settles O49: under `unitOrder` the due actions are the rows one after the other. -/
theorem unitOrderPolicyUnderConflict : Obligations.UnitOrderPolicyUnderConflict := by
  unfold Obligations.UnitOrderPolicyUnderConflict
  intro s s3 reg row x1 x2 x3 x4 hs hpolicy hc h3 hrows hfl h1 h2 h3' h4
  refine ⟨fun a as x y => andThen_eq_next, ?_⟩
  refine step_of_coexecute hs hc h3 hfl (dueActions_eq_of_rows hrows) ?_
  rw [hpolicy]
  change performAll (row .simple ++ row .mad ++ row .round ++ row .store) s3.sfpu = .next x4
  simp only [performAll_append, h1, h2, h3', h4, andThen_next]

/-- Settles O50: the check of step 4, and what `ageInFlight` keeps. -/
theorem readInFlightFaults : Obligations.ReadInFlightFaults := by
  unfold Obligations.ReadInFlightFaults
  constructor
  · intro s s3 reg acts a loc n hs hc h3 hdue ha hloc hfl
    have hnot : readsNotReady s3.inFlight acts = true := by
      rw [comingRegular_inFlight h3]
      exact List.any_eq_true.2 ⟨a, ha, List.any_eq_true.2 ⟨loc, hloc, List.any_eq_true.2
        ⟨(loc, n), hfl, decide_eq_true rfl⟩⟩⟩
    rw [step_of_comingRegular hs hc h3, scheduledPart, comingRegular_dueActions h3 hdue, andThen_next, if_pos hnot]
  · intro s t h
    obtain ⟨s3, reg, acts, x, h3, hdue, -, -, ht⟩ := step_comingRegular h
    refine ⟨s3, reg, acts, h3, hdue, fun loc n => ?_⟩
    have hfl : t.inFlight = ageInFlight s.inFlight (reg.toList ++ acts) := by rw [ht, ← comingRegular_inFlight h3]
    rw [hfl]
    exact mem_ageInFlight

/-! ### `LReg[16]` -/

/-- A scheduled execution by `ExecSFPU` is of no SFPTRANSP, which is an action of its own (R70, R104). -/
theorem dueActions_run_ne_transp {p : Params} {d : Due} {acts : List Action} {i : Insn} {lanes : LaneMask}
    {sch cr : Bool} (h : dueActions p d = .next acts) (ha : Action.run i lanes sch cr ∈ acts) : i.op ≠ .sfptransp := by
  obtain ⟨u, l, e, -, hrun | ⟨hcross, hrun⟩⟩ := dueActions_mem h ha
  · unfold crossAction at hrun
    split_ifs at hrun with hop
    cases hrun
    exact hop
  · cases hrun
    rintro hop
    rw [hop] at hcross
    cases hcross

/-- Settles O51: neither the regular action nor a due one has a lane of `LReg[16]` in its write footprint. -/
theorem lreg16WrittenOnlyByScheduled : Obligations.Lreg16WrittenOnlyByScheduled := by
  unfold Obligations.Lreg16WrittenOnlyByScheduled
  intro s t h hdue
  obtain ⟨-, -, -, s3, reg, acts, x, h3, hacts, -, hx, rfl⟩ := step_spec h
  refine lreg_eq_of_get (y := s.sfpu) fun l => ?_
  have hdueKeeps : x.get (.lreg lreg16 l) = s3.sfpu.get (.lreg lreg16 l) := by
    refine coexecute_other (fun a ha hw => ?_) hx
    obtain ⟨i, lanes, cr, rfl, hstore, hvd⟩ := Action.writes_lreg16 hw
    obtain ⟨l', u, e, he, h0, rfl⟩ := dueActions_run hacts ha
    rcases hdue l' u e he h0 hvd with hop | hop
    · exact hstore hop
    · exact dueActions_run_ne_transp hacts ha hop
  have hregKeeps : s3.sfpu.get (.lreg lreg16 l) = s.atCycleStart.sfpu.get (.lreg lreg16 l) := by
    rw [← beforeRegular_sfpu s.nextInput s.atCycleStart]
    rcases regularPart_action h3 with ⟨-, hsame⟩ | ⟨a, -, hperform, hrun, -⟩
    · rw [hsame]
    · refine Action.perform_other hperform fun hw => ?_
      obtain ⟨i, lanes, cr, rfl, -⟩ := Action.writes_lreg16 hw
      exact hrun i lanes cr rfl
  exact hdueKeeps.trans hregKeeps

/-! ### Due entries that do not cross lanes -/

theorem laneBit_injective {l l' : Lane} (h : laneBit l = laneBit l') : l = l' := by
  have hbit := getLsbD_laneBit l' l
  rw [← h, getLsbD_laneBit, decide_eq_true rfl] at hbit
  exact of_decide_eq_true hbit.symm

/-- The run of the entry due on a lane and sub-unit of a table, if any. -/
def dueRun (d : Due) (u : SubUnit) (l : Lane) : Option Action :=
  (d.at l u).map fun e => .run e.insn (laneBit l) true false

theorem dueRun_eq_some {d : Due} {u : SubUnit} {l : Lane} {a : Action} :
    dueRun d u l = some a ↔ ∃ e, d.at l u = some e ∧ a = .run e.insn (laneBit l) true false := by
  simp [dueRun, eq_comm]

/-- A row without a cross-lane entry is one run for each lane with a due entry (R70). -/
theorem rowActions_lane_by_lane {p : Params} {d : Due} {u : SubUnit}
    (h : ∀ l e, d.at l u = some e → isCrossLane p e.insn.op = false) :
    ∃ acts, rowActions p d u = .next acts ∧ acts.Nodup ∧
      ∀ a, a ∈ acts ↔ ∃ l e, d.at l u = some e ∧ a = .run e.insn (laneBit l) true false := by
  have hany : (allLanes.any fun l => (d.at l u).any fun e => isCrossLane p e.insn.op) = false := by
    rw [List.any_eq_false]
    intro l _
    cases hd : d.at l u with
    | none => exact Bool.false_ne_true
    | some e => rw [Option.any_some, h l e hd]; exact Bool.false_ne_true
  refine ⟨allLanes.filterMap (dueRun d u), ?_, ?_, fun a => ?_⟩
  · rw [rowActions, hany, if_neg Bool.false_ne_true]
    rfl
  · refine (List.nodup_finRange 32).filterMap fun l l' a hl hl' => ?_
    obtain ⟨e, -, rfl⟩ := dueRun_eq_some.1 hl
    obtain ⟨e', -, he'⟩ := dueRun_eq_some.1 hl'
    exact laneBit_injective (Action.run.inj he').2.1
  · simp only [List.mem_filterMap, mem_allLanes, true_and, dueRun_eq_some]

/-- The four rows in the order of the sub-units. -/
theorem rows_eq_flatMap (row : SubUnit → List Action) :
    row .simple ++ row .mad ++ row .round ++ row .store = SubUnit.all.flatMap row := by
  simp [SubUnit.all]

section NoTwoDue

variable {s : State} {l : Lane} {u : SubUnit}

/-- With no two entries due together the table holds exactly the due entries (R87). -/
theorem dueTable_at_eq_some_iff (htwo : NoTwoDue s) {e : Entry} :
    (dueTable s.atCycleStart).at l u = some e ↔ e ∈ s.queue l u ∧ e.counter = 0 := by
  rw [dueTable_at, State.atCycleStart_queue, ← mem_dueEntries]
  constructor
  · exact List.mem_of_head?
  · intro he
    cases hq : dueEntries (s.queue l u) with
    | nil =>
      rw [hq] at he
      cases he
    | cons e' es =>
      have hlen := htwo l u
      rw [hq] at hlen he
      rw [eq_singleton_of_head? hlen rfl, List.mem_singleton] at he
      rw [he]
      rfl

theorem dueRun_iff (htwo : NoTwoDue s) {a : Action} :
    DueRun s l u a ↔ ∃ e, (dueTable s.atCycleStart).at l u = some e ∧ a = .run e.insn (laneBit l) true false := by
  simp only [DueRun, dueTable_at_eq_some_iff htwo, and_assoc]

/-- A lane and a sub-unit have one due run. -/
theorem dueRun_unique (htwo : NoTwoDue s) {a a' : Action} (h : DueRun s l u a) (h' : DueRun s l u a') : a = a' := by
  obtain ⟨e, he, rfl⟩ := (dueRun_iff htwo).1 h
  obtain ⟨e', he', rfl⟩ := (dueRun_iff htwo).1 h'
  rw [Option.some.inj (he.symm.trans he')]

/-- With no two entries due together and none cross-lane, each sub-unit's row is its due runs. -/
theorem exists_rows (htwo : NoTwoDue s) (hcross : NoCrossLaneDue s) :
    ∃ row : SubUnit → List Action, (∀ u, rowActions s.params (dueTable s.atCycleStart) u = .next (row u)) ∧
      ∀ u, (row u).Nodup ∧ ∀ a, a ∈ row u ↔ ∃ l, DueRun s l u a := by
  have hlane : ∀ u l e, (dueTable s.atCycleStart).at l u = some e → isCrossLane s.params e.insn.op = false := by
    intro u l e he
    obtain ⟨hq, h0⟩ := (dueTable_at_eq_some_iff htwo).1 he
    exact hcross l u e hq h0
  choose row hrow hnodup hmem using fun u => rowActions_lane_by_lane (hlane u)
  refine ⟨row, hrow, fun u => ⟨hnodup u, fun a => ?_⟩⟩
  simp only [hmem, dueRun_iff htwo]

theorem exists_due_rows (htwo : NoTwoDue s) (hcross : NoCrossLaneDue s) :
    ∃ row : SubUnit → List Action, comingDue s = .next (row .simple ++ row .mad ++ row .round ++ row .store) ∧
      ∀ u, (row u).Nodup ∧ ∀ a, a ∈ row u ↔ ∃ l, DueRun s l u a := by
  obtain ⟨row, hrow, hspec⟩ := exists_rows htwo hcross
  exact ⟨row, dueActions_eq_of_rows hrow, hspec⟩

/-- The due runs do not conflict, row by row and between the rows, if those of different lanes or sub-units do not. -/
theorem due_rows_pairwise (htwo : NoTwoDue s) {row : SubUnit → List Action}
    (hrow : ∀ u, (row u).Nodup ∧ ∀ a, a ∈ row u ↔ ∃ l, DueRun s l u a)
    (h : ∀ l u a l' u' a', DueRun s l u a → DueRun s l' u' a' → (l, u) ≠ (l', u') → a.conflicts a' = false) :
    (row .simple ++ row .mad ++ row .round ++ row .store).Pairwise fun a b => a.conflicts b = false := by
  have hwithin : ∀ u, (row u).Pairwise fun a b => a.conflicts b = false := by
    intro u
    obtain ⟨hnodup, hmem⟩ := hrow u
    refine hnodup.imp_of_mem fun {a b} ha hb hne => ?_
    obtain ⟨l, hl⟩ := (hmem a).1 ha
    obtain ⟨l', hl'⟩ := (hmem b).1 hb
    refine h l u a l' u b hl hl' fun he => hne ?_
    cases he
    exact dueRun_unique htwo hl hl'
  have hbetween : ∀ u u', u ≠ u' → ∀ a ∈ row u, ∀ b ∈ row u', a.conflicts b = false := by
    intro u u' hu a ha b hb
    obtain ⟨l, hl⟩ := ((hrow u).2 a).1 ha
    obtain ⟨l', hl'⟩ := ((hrow u').2 b).1 hb
    exact h l u a l' u' b hl hl' fun he => hu (Prod.ext_iff.1 he).2
  rw [rows_eq_flatMap, List.pairwise_flatMap]
  exact ⟨fun u _ => hwithin u, (by decide : SubUnit.all.Nodup).imp fun {u u'} hu => hbetween u u' hu⟩

end NoTwoDue

/-! ### A due entry alone -/

section DueAlone

variable {s : State} {l : Lane} {u : SubUnit} {e : Entry} (hother : NothingElseDue s fun l' u' => l' = l ∧ u' = u)

include hother

theorem dueTable_at_none_of_alone {l' : Lane} {u' : SubUnit} (h : ¬ (l' = l ∧ u' = u)) :
    (dueTable s.atCycleStart).at l' u' = none := by
  rw [dueTable_at, State.atCycleStart_queue, dueEntries_eq_nil (hother l' u' h)]
  rfl

variable (hdue : dueEntries (s.queue l u) = [e])

include hdue

theorem collision_none_of_alone : collision s.atCycleStart = none := by
  refine collision_none_of_le fun l' u' => ?_
  rw [State.atCycleStart_queue]
  by_cases h : l' = l ∧ u' = u
  · rw [h.1, h.2, hdue]
    exact Nat.le_refl 1
  · rw [dueEntries_eq_nil (hother l' u' h)]
    exact Nat.zero_le 1

theorem dueTable_at_row_of_alone {l' : Lane} {e' : Entry} :
    (dueTable s.atCycleStart).at l' u = some e' ↔ l' = l ∧ e' = e := by
  by_cases h : l' = l
  · subst h
    rw [dueTable_at_of_singleton hdue, Option.some.injEq]
    exact ⟨fun he => ⟨rfl, he.symm⟩, fun he => he.2.symm⟩
  · rw [dueTable_at_none_of_alone hother fun hlu => h hlu.1]
    exact ⟨nofun, fun he => absurd he.1 h⟩

/-- The one due action of the cycle is the entry's run on its lane (R70, R85). -/
theorem comingDue_of_alone (hcross : isCrossLane s.params e.insn.op = false) :
    comingDue s = .next [.run e.insn (laneBit l) true false] := by
  have hlane : ∀ l' e', (dueTable s.atCycleStart).at l' u = some e' → isCrossLane s.params e'.insn.op = false := by
    intro l' e' he'
    obtain ⟨-, rfl⟩ := (dueTable_at_row_of_alone hother hdue).1 he'
    exact hcross
  obtain ⟨acts, hacts, hnodup, hmem⟩ := rowActions_lane_by_lane hlane
  have hone : acts = [.run e.insn (laneBit l) true false] := by
    refine List.perm_singleton.1 ((List.perm_ext_iff_of_nodup hnodup (List.nodup_singleton _)).2 fun a => ?_)
    simp only [hmem, dueTable_at_row_of_alone hother hdue, List.mem_singleton]
    constructor
    · rintro ⟨_, _, ⟨rfl, rfl⟩, ha⟩
      exact ha
    · exact fun ha => ⟨l, e, ⟨rfl, rfl⟩, ha⟩
  rw [← hone]
  exact dueActions_single_row hacts fun l' u' hu => dueTable_at_none_of_alone hother fun hlu => hu hlu.2

end DueAlone

/-- What a run on one lane does not reach: what is outside its write footprint, and what belongs to another lane. -/
theorem execOther_lane_frame {i : Insn} {l l' : Lane} {x : Sfpu} {loc : Loc} (hne : l' ≠ l)
    (hloc : loc.lane? = some l') :
    (execOther i (laneBit l) true false x).get loc = x.get loc := by
  refine Action.perform_other (a := .run i (laneBit l) true false) rfl fun hw => hne ?_
  have hbit := Action.run_writes_lane hw hloc
  rw [getLsbD_laneBit] at hbit
  exact of_decide_eq_true hbit

/-- Actions that complete on every unit complete one after the other. -/
theorem performAll_completes {acts : List Action} (h : ∀ a ∈ acts, ∀ x, ∃ y, a.perform x = .next y) (x : Sfpu) :
    ∃ y, performAll acts x = .next y := by
  obtain ⟨y, hy, -⟩ := foldOut_completes (P := fun _ => True) (f := Action.perform)
    (fun a ha x _ => (h a ha x).imp fun y hy => ⟨hy, trivial⟩) (b := x) trivial
  exact ⟨y, hy⟩

/-- Where no two actions conflict, each one does, one after the other, what it does alone. -/
theorem performAll_spec_of_not_conflicts {acts : List Action} {x y : Sfpu} (hx : x.wf)
    (hacts : acts.Pairwise fun a b => a.conflicts b = false) (h : performAll acts x = .next y) :
    (∀ a ∈ acts, ∃ post, a.perform x = .next post ∧ ∀ loc ∈ a.writes, y.get loc = post.get loc) ∧
      ∀ loc, (∀ a ∈ acts, loc ∉ a.writes) → y.get loc = x.get loc := by
  rw [← performOld_eq_performAll hx hx hacts fun _ _ _ _ => rfl] at h
  exact performOld_spec hx (hacts.imp fun hab => Action.writesMeet_of_not_conflicts hab) h

/-- The unit before step 3, the regular action and the unit after it. -/
theorem comingRegular_action {s s3 : State} {reg : Option Action} (h3 : comingRegular s = .next (s3, reg)) :
    (reg = none ∧ s3.sfpu = s.atCycleStart.sfpu) ∨
      ∃ a, reg = some a ∧ a.perform s.atCycleStart.sfpu = .next s3.sfpu := by
  rw [← comingState_sfpu]
  rcases regularPart_action h3 with h | ⟨a, hreg, hperform, -, -⟩
  · exact .inl h
  · exact .inr ⟨a, hreg, hperform⟩

/-- A cycle in which no two actions conflict: each due entry does on its lane what it does alone. -/
theorem step_of_due_runs {s s3 : State} {reg : Option Action} (hs : Unmarked s) (htwo : NoTwoDue s)
    (hcross : NoCrossLaneDue s) (h3 : comingRegular s = .next (s3, reg)) (hfl : s.inFlight = []) (hwf : s.sfpu.wf)
    (hdue : ∀ l u a l' u' a', DueRun s l u a → DueRun s l' u' a' → (l, u) ≠ (l', u') → a.conflicts a' = false)
    (hreg : ∀ a l u b, reg = some a → DueRun s l u b → a.conflicts b = false) :
    ∃ t, step s = .next t ∧
      (∀ l u, ∀ e ∈ s.queue l u, e.counter = 0 → ∀ loc ∈ (Action.run e.insn (laneBit l) true false).writes,
        t.sfpu.get loc = (execOther e.insn (laneBit l) true false s3.sfpu).get loc) ∧
      (∀ loc, (∀ l u a, DueRun s l u a → loc ∉ a.writes) → t.sfpu.get loc = s3.sfpu.get loc) ∧
      ∀ l u, t.queue l u = s3.queue l u := by
  obtain ⟨row, hcoming, hrow⟩ := exists_due_rows htwo hcross
  have hpairwise := due_rows_pairwise htwo hrow hdue
  rw [rows_eq_flatMap] at hcoming hpairwise
  generalize hactsEq : SubUnit.all.flatMap row = acts at hcoming hpairwise
  have hmem : ∀ a, a ∈ acts ↔ ∃ l u, DueRun s l u a := by
    intro a
    have hall : ∀ u, u ∈ SubUnit.all := by intro u; cases u <;> decide
    simp only [← hactsEq, List.mem_flatMap, hall, true_and, hrow]
    exact exists_comm
  have hwf0 : s.atCycleStart.sfpu.wf := State.atCycleStart_wf hwf
  have hunit := comingRegular_action h3
  have hwf3 : s3.sfpu.wf := wf_after_regular hwf0 hunit
  have hall : (reg.toList ++ acts).Pairwise fun a b => a.conflicts b = false := by
    refine List.pairwise_append.2 ⟨by cases reg <;> simp, hpairwise, fun a ha b hb => ?_⟩
    obtain ⟨l, u, hb⟩ := (hmem b).1 hb
    exact hreg a l u b (by simpa using ha) hb
  obtain ⟨x, hx⟩ := performAll_completes (acts := acts) (fun a ha y => by
    obtain ⟨l, u, e, -, -, rfl⟩ := (hmem a).1 ha
    exact ⟨_, rfl⟩) s3.sfpu
  have hco := policiesAgreeWithoutConflict s.params.sameCyclePolicy _ _ reg acts hwf0 hunit hall
  obtain ⟨t, ht, hsfpu, hqueue⟩ := step_of_coexecute hs (collision_none_of_le htwo) h3 hfl hcoming (hco.trans hx)
  obtain ⟨hwritten, hkept⟩ := performAll_spec_of_not_conflicts hwf3 hpairwise hx
  refine ⟨t, ht, fun l u e he h0 loc hloc => ?_, fun loc hloc => ?_, hqueue⟩
  · obtain ⟨post, hpost, hget⟩ := hwritten _ ((hmem _).2 ⟨l, u, e, he, h0, rfl⟩)
    rw [hsfpu, hget loc hloc, ← Host.Outcome.next.inj hpost]
  · rw [hsfpu]
    refine hkept loc fun a ha => ?_
    obtain ⟨l, u, ha⟩ := (hmem a).1 ha
    exact hloc l u a ha

/-- Settles O39: the entry alone, the row, the four rows, and the cycle without a conflict. -/
theorem dueEntryExecutesOnItsLane : Obligations.DueEntryExecutesOnItsLane := by
  unfold Obligations.DueEntryExecutesOnItsLane
  refine ⟨?_, fun p d u => rowActions_lane_by_lane, fun s => exists_due_rows, fun s s3 reg => step_of_due_runs⟩
  intro s l u e hs hno hdue hother hcross hfl hwf
  have hco := coexecute_single (a := .run e.insn (laneBit l) true false) hwf rfl s.params.sameCyclePolicy
  obtain ⟨t, ht, hunit, -⟩ := step_of_coexecute hs (collision_none_of_alone hother hdue) (comingRegular_of_no_issue hno)
    hfl (comingDue_of_alone hother hdue hcross) (by rw [comingState_sfpu]; exact hco)
  refine ⟨t, ht, hunit, fun loc hloc => ?_, fun l' loc hne hloc => ?_, step_queue_of_no_issue hno ht⟩
  · rw [hunit]
    exact Action.perform_other (a := .run e.insn (laneBit l) true false) rfl hloc
  · rw [hunit]
    exact execOther_lane_frame hne hloc

end Sys2Proof.Machine
end
